-- ==== Sys2Proof/Word.lean ====
section
/-! DEFINITION. The words of the machine: bytes, instruction words, register numbers and the register width `XLEN`. -/

namespace Sys2Proof

/-- A byte of memory, 8 bits (R33). -/
abbrev Byte := BitVec 8

/-- An instruction word: every instruction is 32 bits long (R90). -/
abbrev InstWord := BitVec 32

/-- A register number, the 5-bit field `rd`, `rs1` or `rs2` (R91). -/
abbrev RegNum := BitVec 5

/-- `XLEN`, the width of an integer register: 32 for RV32, 64 for RV64 (R6). -/
inductive XLen where
  | rv32
  | rv64
  deriving DecidableEq, Repr

/-- The number of bits that `XLEN` stands for (R6). -/
def XLen.width : XLen → Nat
  | .rv32 => 32
  | .rv64 => 64

end Sys2Proof
end

