-- ==== Sys2Proof/Machine/Flags.lean ====
section
/-! DEFINITION. This hardware has no flags and no condition codes (R29): a comparison either decides a branch of the same
instruction or writes 0 or 1 to a register. These are the comparisons (R12, R139, R140, R182 to R187). -/

namespace Sys2Proof.Machine

variable {w : Nat}

/-- `a == b`: the bit patterns are equal. -/
def eqBits (a b : BitVec w) : Bool := decide (a = b)

/-- `a <s b`: less as two's complement numbers. -/
def ltSigned (a b : BitVec w) : Bool := a.slt b

/-- `a <u b`: less as unsigned numbers. -/
def ltUnsigned (a b : BitVec w) : Bool := a.ult b

/-- The `XLEN`-bit value 1 or 0 that a set-less-than instruction writes (R139). -/
def bitValue (b : Bool) : BitVec w := if b then 1 else 0

end Sys2Proof.Machine
end

