-- ==== Sys2Proof/Machine/Operands.lean ====
section
/-! DEFINITION. Operand values: how the immediates of an instruction are widened to the register width (R98 to R103), how a
shift amount is taken from a register, and the word convention of RV64 (R236). -/

namespace Sys2Proof.Machine

variable {w : Nat}

/-- `imm_I` and `imm_S`: 12 bits sign-extended to `XLEN` (R98, R99). -/
def imm12 (imm : BitVec 12) : BitVec w := imm.signExtend w

/-- `imm_B`: 13 bits sign-extended to `XLEN` (R100). -/
def immB (offset : BitVec 13) : BitVec w := offset.signExtend w

/-- `imm_J`: 21 bits sign-extended to `XLEN` (R101). -/
def immJ (offset : BitVec 21) : BitVec w := offset.signExtend w

/-- `imm_U`: the 32-bit value `immu << 12`, sign-extended to `XLEN` (R102). -/
def immU (immu : BitVec 20) : BitVec w := (immu ++ 0#12).signExtend w

/-- How many low bits of a register are a shift amount: 5 when `XLEN = 32` (and for every word shift), 6 when `XLEN = 64`
(R136, R236). -/
def shiftBits (w : Nat) : Nat := if w = 64 then 6 else 5

/-- The shift amount held in a register: its low 5 or 6 bits, unsigned (R136). -/
def shiftAmount (v : BitVec w) : Nat := v.toNat % 2 ^ shiftBits w

/-- The low 32 bits of a register, the source of a word instruction (R236). -/
def lowWord (v : BitVec 64) : BitVec 32 := v.setWidth 32

/-- A 32-bit result widened to 64 bits with copies of its bit 31, as every word instruction does (R236). -/
def sextWord (v : BitVec 32) : BitVec 64 := v.signExtend 64

end Sys2Proof.Machine
end

