-- ==== Sys2Proof/Machine/Alu.lean ====
section
/-! DEFINITION. The arithmetic of the register results at a width of `w` bits: shifts, set-less-than, multiplication and
division. The word instructions of RV64 use the same functions at 32 bits (R236). -/

namespace Sys2Proof.Machine

variable {w : Nat}

/-- Shift left by the amount held in `b` (R136). -/
def shiftLeft (a b : BitVec w) : BitVec w := a <<< shiftAmount b

/-- Shift right, zeros entering at the top (R137). -/
def shiftRightLogical (a b : BitVec w) : BitVec w := a >>> shiftAmount b

/-- Shift right, copies of the top bit entering (R138). -/
def shiftRightArith (a b : BitVec w) : BitVec w := a.sshiftRight (shiftAmount b)

/-- Bits `2w-1` to `w` of a product, taken as a `2w`-bit two's complement number (R263, R264, R265). -/
def highHalf (p : Int) : BitVec w := (BitVec.ofInt (2 * w) p).extractLsb' w w

/-- The high half of signed by signed (R263). -/
def mulHigh (a b : BitVec w) : BitVec w := highHalf (a.toInt * b.toInt)

/-- The high half of unsigned by unsigned (R264). -/
def mulHighUnsigned (a b : BitVec w) : BitVec w := highHalf ((a.toNat : Int) * b.toNat)

/-- The high half of signed `a` by unsigned `b` (R265). -/
def mulHighSignedUnsigned (a b : BitVec w) : BitVec w := highHalf (a.toInt * b.toNat)

/-- Whether a signed division overflows: the most negative dividend by -1 (R261). -/
def divOverflows (a b : BitVec w) : Bool := decide (a = BitVec.intMin w) && decide (b = BitVec.allOnes w)

/-- Signed quotient, rounded toward zero, with the corner values of R261 (R266). -/
def quotSigned (a b : BitVec w) : BitVec w :=
  if b = 0 then BitVec.allOnes w
  else if divOverflows a b then a
  else BitVec.ofInt w (a.toInt.tdiv b.toInt)

/-- Unsigned quotient; all ones for a zero divisor (R261, R267). -/
def quotUnsigned (a b : BitVec w) : BitVec w :=
  if b = 0 then BitVec.allOnes w else BitVec.ofNat w (a.toNat / b.toNat)

/-- Signed remainder, with the corner values of R261 (R268). -/
def remSigned (a b : BitVec w) : BitVec w :=
  if b = 0 then a
  else if divOverflows a b then 0
  else BitVec.ofInt w (a.toInt - b.toInt * a.toInt.tdiv b.toInt)

/-- Unsigned remainder; the dividend for a zero divisor (R261, R269). -/
def remUnsigned (a b : BitVec w) : BitVec w :=
  if b = 0 then a else BitVec.ofNat w (a.toNat % b.toNat)

/-- R236: a word instruction takes the low 32 bits of its sources, computes at 32 bits and sign-extends the result. -/
def wordResult (op : BitVec 32 → BitVec 32 → BitVec 32) (a b : BitVec 64) : BitVec 64 :=
  sextWord (op (lowWord a) (lowWord b))

end Sys2Proof.Machine
end

