-- ==== Sys2Proof/Config.lean ====
section
/-! DEFINITION. What a platform or a run fixes and the card leaves open: the types of the open parameters (R7, R36), the
values that `State.reset` gives them, and the free choices of a store-conditional. -/

namespace Sys2Proof.Machine

/-- `MISALIGNED_DATA` (R53): what a misaligned ordinary load or store does. -/
inductive MisalignedData where
  /-- It raises an address-misaligned condition (the spec's default). -/
  | fault
  /-- It is done byte by byte after every byte has been checked. -/
  | split
  deriving DecidableEq, Repr

/-- The three kinds of access that `Perm` speaks of (R62): a load needs R, a store W, a fetch X. -/
inductive Access where
  | read
  | write
  | fetch
  deriving DecidableEq, Repr

/-- A subset of the three permissions R, W, X (R62). -/
structure Perm where
  read : Bool
  write : Bool
  exec : Bool
  deriving DecidableEq, Repr

/-- A range of byte addresses that hold memory, with one permission set. A list of regions stands for the two functions
`Backed` and `Perm` of R62; where regions overlap the first one in the list gives the permissions (assumption 5). -/
structure Region where
  base : Nat
  size : Nat
  perm : Perm
  deriving DecidableEq, Repr

/-- The parameters of the step relation that stay fixed for a run (R36): the memory map, `MISALIGNED_DATA` and
`SC_SPURIOUS_FAIL`. -/
structure Platform where
  map : List Region
  misaligned : MisalignedData
  scMayFail : Bool
  deriving DecidableEq, Repr

end Sys2Proof.Machine

namespace Sys2Proof.Config

/-- FREE VALUE (R220, assumption 8): whether the store-conditional that takes the `n`-th free choice fails although its
reservation matches. -/
opaque scSpuriousFail : Nat → Bool

/-- FREE VALUE (R220, assumption 8): whether the store-conditional that takes the `n`-th free choice succeeds although the
reservation names other bytes or another width. -/
opaque scOtherSucceeds : Nat → Bool

/-- DESIGN CHOICE (unsafe, assumption 1): the width of `State.reset`. -/
def resetXlen : XLen := .rv64

/-- DESIGN CHOICE (unsafe, assumption 3): `RESET_PC` of `State.reset`. -/
def resetPc : Nat := 0x1000

/-- DESIGN CHOICE (unsafe, assumption 4): what a byte reads as that neither the launch image nor a store has set. -/
def unsetByte : Byte := 0

/-- DESIGN CHOICE (unsafe, assumption 5): the map of `State.reset`, the whole address space with R, W and X. The other two
parameters are the spec's defaults (R7). -/
def resetPlatform : Machine.Platform where
  map := [{ base := 0, size := 2 ^ 64, perm := { read := true, write := true, exec := true } }]
  misaligned := .fault
  scMayFail := true

end Sys2Proof.Config
end

