-- ==== Sys2Proof/Syntax.lean ====
section
/-! DEFINITION. The instructions: one constructor per row of the opcode table, in the table's order. Operands are the fields
of the instruction word (R91 to R105); a branch or jump offset keeps its bit 0, which no encoding holds (R100, R101) and
which `WellFormed` requires to be 0. A constructor ending in `64` is the `XLEN = 64` row of a mnemonic with two rows. -/

namespace Sys2Proof

/-- One constructor per row of the opcode table (R4). Operand order is always rd, rs1, rs2, then the immediate. -/
inductive Instr where
  /-- `add` (R131). -/
  | add (rd rs1 rs2 : RegNum)
  /-- `sub` (R132). -/
  | sub (rd rs1 rs2 : RegNum)
  /-- `and` (R133). -/
  | and (rd rs1 rs2 : RegNum)
  /-- `or` (R134). -/
  | or (rd rs1 rs2 : RegNum)
  /-- `xor` (R135). -/
  | xor (rd rs1 rs2 : RegNum)
  /-- `sll` (R136). -/
  | sll (rd rs1 rs2 : RegNum)
  /-- `srl` (R137). -/
  | srl (rd rs1 rs2 : RegNum)
  /-- `sra` (R138). -/
  | sra (rd rs1 rs2 : RegNum)
  /-- `slt` (R139). -/
  | slt (rd rs1 rs2 : RegNum)
  /-- `sltu` (R140). -/
  | sltu (rd rs1 rs2 : RegNum)
  /-- `addi` (R141). -/
  | addi (rd rs1 : RegNum) (imm : BitVec 12)
  /-- `andi` (R142). -/
  | andi (rd rs1 : RegNum) (imm : BitVec 12)
  /-- `ori` (R143). -/
  | ori (rd rs1 : RegNum) (imm : BitVec 12)
  /-- `xori` (R144). -/
  | xori (rd rs1 : RegNum) (imm : BitVec 12)
  /-- `slti` (R145). -/
  | slti (rd rs1 : RegNum) (imm : BitVec 12)
  /-- `sltiu` (R146). -/
  | sltiu (rd rs1 : RegNum) (imm : BitVec 12)
  /-- `slli` (R147, the `XLEN = 32` row). -/
  | slli (rd rs1 : RegNum) (shamt : BitVec 5)
  /-- `srli` (R148, the `XLEN = 32` row). -/
  | srli (rd rs1 : RegNum) (shamt : BitVec 5)
  /-- `srai` (R149, the `XLEN = 32` row). -/
  | srai (rd rs1 : RegNum) (shamt : BitVec 5)
  /-- `lb` (R162). -/
  | lb (rd rs1 : RegNum) (imm : BitVec 12)
  /-- `lbu` (R163). -/
  | lbu (rd rs1 : RegNum) (imm : BitVec 12)
  /-- `lh` (R164). -/
  | lh (rd rs1 : RegNum) (imm : BitVec 12)
  /-- `lhu` (R165). -/
  | lhu (rd rs1 : RegNum) (imm : BitVec 12)
  /-- `lw` (R166). -/
  | lw (rd rs1 : RegNum) (imm : BitVec 12)
  /-- `sb` (R167). -/
  | sb (rs1 rs2 : RegNum) (imm : BitVec 12)
  /-- `sh` (R168). -/
  | sh (rs1 rs2 : RegNum) (imm : BitVec 12)
  /-- `sw` (R169). -/
  | sw (rs1 rs2 : RegNum) (imm : BitVec 12)
  /-- `beq` (R182). -/
  | beq (rs1 rs2 : RegNum) (offset : BitVec 13)
  /-- `bne` (R183). -/
  | bne (rs1 rs2 : RegNum) (offset : BitVec 13)
  /-- `blt` (R184). -/
  | blt (rs1 rs2 : RegNum) (offset : BitVec 13)
  /-- `bltu` (R185). -/
  | bltu (rs1 rs2 : RegNum) (offset : BitVec 13)
  /-- `bge` (R186). -/
  | bge (rs1 rs2 : RegNum) (offset : BitVec 13)
  /-- `bgeu` (R187). -/
  | bgeu (rs1 rs2 : RegNum) (offset : BitVec 13)
  /-- `jal` (R188). -/
  | jal (rd : RegNum) (offset : BitVec 21)
  /-- `jalr` (R189). -/
  | jalr (rd rs1 : RegNum) (imm : BitVec 12)
  /-- `auipc` (R201). -/
  | auipc (rd : RegNum) (immu : BitVec 20)
  /-- `lui` (R202). -/
  | lui (rd : RegNum) (immu : BitVec 20)
  /-- `ebreak` (R203). -/
  | ebreak
  /-- `ecall` (R204). -/
  | ecall
  /-- `lr.w` (R218). -/
  | lrw (rd rs1 : RegNum) (aq rl : Bool)
  /-- `lr.d` (R219, `XLEN = 64` only). -/
  | lrd (rd rs1 : RegNum) (aq rl : Bool)
  /-- `sc.w` (R220). -/
  | scw (rd rs1 rs2 : RegNum) (aq rl : Bool)
  /-- `sc.d` (R221, `XLEN = 64` only). -/
  | scd (rd rs1 rs2 : RegNum) (aq rl : Bool)
  /-- `addw` (R237, `XLEN = 64` only). -/
  | addw (rd rs1 rs2 : RegNum)
  /-- `subw` (R238, `XLEN = 64` only). -/
  | subw (rd rs1 rs2 : RegNum)
  /-- `sllw` (R239, `XLEN = 64` only). -/
  | sllw (rd rs1 rs2 : RegNum)
  /-- `srlw` (R240, `XLEN = 64` only). -/
  | srlw (rd rs1 rs2 : RegNum)
  /-- `sraw` (R241, `XLEN = 64` only). -/
  | sraw (rd rs1 rs2 : RegNum)
  /-- `slli` (R242, `XLEN = 64` only). -/
  | slli64 (rd rs1 : RegNum) (shamt : BitVec 6)
  /-- `srli` (R243, `XLEN = 64` only). -/
  | srli64 (rd rs1 : RegNum) (shamt : BitVec 6)
  /-- `srai` (R244, `XLEN = 64` only). -/
  | srai64 (rd rs1 : RegNum) (shamt : BitVec 6)
  /-- `addiw` (R245, `XLEN = 64` only). -/
  | addiw (rd rs1 : RegNum) (imm : BitVec 12)
  /-- `slliw` (R246, `XLEN = 64` only). -/
  | slliw (rd rs1 : RegNum) (shamt : BitVec 5)
  /-- `srliw` (R247, `XLEN = 64` only). -/
  | srliw (rd rs1 : RegNum) (shamt : BitVec 5)
  /-- `sraiw` (R248, `XLEN = 64` only). -/
  | sraiw (rd rs1 : RegNum) (shamt : BitVec 5)
  /-- `lwu` (R249, `XLEN = 64` only). -/
  | lwu (rd rs1 : RegNum) (imm : BitVec 12)
  /-- `ld` (R250, `XLEN = 64` only). -/
  | ld (rd rs1 : RegNum) (imm : BitVec 12)
  /-- `sd` (R251, `XLEN = 64` only). -/
  | sd (rs1 rs2 : RegNum) (imm : BitVec 12)
  /-- `mul` (R262). -/
  | mul (rd rs1 rs2 : RegNum)
  /-- `mulh` (R263). -/
  | mulh (rd rs1 rs2 : RegNum)
  /-- `mulhu` (R264). -/
  | mulhu (rd rs1 rs2 : RegNum)
  /-- `mulhsu` (R265). -/
  | mulhsu (rd rs1 rs2 : RegNum)
  /-- `div` (R266). -/
  | div (rd rs1 rs2 : RegNum)
  /-- `divu` (R267). -/
  | divu (rd rs1 rs2 : RegNum)
  /-- `rem` (R268). -/
  | rem (rd rs1 rs2 : RegNum)
  /-- `remu` (R269). -/
  | remu (rd rs1 rs2 : RegNum)
  /-- `mulw` (R270, `XLEN = 64` only). -/
  | mulw (rd rs1 rs2 : RegNum)
  /-- `divw` (R271, `XLEN = 64` only). -/
  | divw (rd rs1 rs2 : RegNum)
  /-- `divuw` (R272, `XLEN = 64` only). -/
  | divuw (rd rs1 rs2 : RegNum)
  /-- `remw` (R273, `XLEN = 64` only). -/
  | remw (rd rs1 rs2 : RegNum)
  /-- `remuw` (R274, `XLEN = 64` only). -/
  | remuw (rd rs1 rs2 : RegNum)
  deriving DecidableEq, Repr

/-- The mnemonic of an instruction, as the opcode table spells it. -/
def Instr.mnemonic : Instr → String
  | .add _ _ _ => "add"
  | .sub _ _ _ => "sub"
  | .and _ _ _ => "and"
  | .or _ _ _ => "or"
  | .xor _ _ _ => "xor"
  | .sll _ _ _ => "sll"
  | .srl _ _ _ => "srl"
  | .sra _ _ _ => "sra"
  | .slt _ _ _ => "slt"
  | .sltu _ _ _ => "sltu"
  | .addi _ _ _ => "addi"
  | .andi _ _ _ => "andi"
  | .ori _ _ _ => "ori"
  | .xori _ _ _ => "xori"
  | .slti _ _ _ => "slti"
  | .sltiu _ _ _ => "sltiu"
  | .slli _ _ _ => "slli"
  | .srli _ _ _ => "srli"
  | .srai _ _ _ => "srai"
  | .lb _ _ _ => "lb"
  | .lbu _ _ _ => "lbu"
  | .lh _ _ _ => "lh"
  | .lhu _ _ _ => "lhu"
  | .lw _ _ _ => "lw"
  | .sb _ _ _ => "sb"
  | .sh _ _ _ => "sh"
  | .sw _ _ _ => "sw"
  | .beq _ _ _ => "beq"
  | .bne _ _ _ => "bne"
  | .blt _ _ _ => "blt"
  | .bltu _ _ _ => "bltu"
  | .bge _ _ _ => "bge"
  | .bgeu _ _ _ => "bgeu"
  | .jal _ _ => "jal"
  | .jalr _ _ _ => "jalr"
  | .auipc _ _ => "auipc"
  | .lui _ _ => "lui"
  | .ebreak => "ebreak"
  | .ecall => "ecall"
  | .lrw _ _ _ _ => "lr.w"
  | .lrd _ _ _ _ => "lr.d"
  | .scw _ _ _ _ _ => "sc.w"
  | .scd _ _ _ _ _ => "sc.d"
  | .addw _ _ _ => "addw"
  | .subw _ _ _ => "subw"
  | .sllw _ _ _ => "sllw"
  | .srlw _ _ _ => "srlw"
  | .sraw _ _ _ => "sraw"
  | .slli64 _ _ _ => "slli"
  | .srli64 _ _ _ => "srli"
  | .srai64 _ _ _ => "srai"
  | .addiw _ _ _ => "addiw"
  | .slliw _ _ _ => "slliw"
  | .srliw _ _ _ => "srliw"
  | .sraiw _ _ _ => "sraiw"
  | .lwu _ _ _ => "lwu"
  | .ld _ _ _ => "ld"
  | .sd _ _ _ => "sd"
  | .mul _ _ _ => "mul"
  | .mulh _ _ _ => "mulh"
  | .mulhu _ _ _ => "mulhu"
  | .mulhsu _ _ _ => "mulhsu"
  | .div _ _ _ => "div"
  | .divu _ _ _ => "divu"
  | .rem _ _ _ => "rem"
  | .remu _ _ _ => "remu"
  | .mulw _ _ _ => "mulw"
  | .divw _ _ _ => "divw"
  | .divuw _ _ _ => "divuw"
  | .remw _ _ _ => "remw"
  | .remuw _ _ _ => "remuw"

end Sys2Proof
end

