-- ==== Sys2Proof/WellFormed.lean ====
section
/-! DEFINITION. Which terms of `Instr` are instructions of the hardware at a given `XLEN`: the row exists at that width
(R6, R111), and an offset is even (R100, R101). -/

namespace Sys2Proof

/-- Whether the opcode table has the instruction's row at a width (`fields.xlen`, R110, R111): the `XLEN = 64` rows are
absent from RV32, and the 5-bit rows of `slli srli srai` are replaced in RV64 by the 6-bit ones. -/
def Instr.existsAt (x : XLen) : Instr → Bool
  | .slli _ _ _ | .srli _ _ _ | .srai _ _ _ => decide (x = .rv32)
  | .lrd _ _ _ _ | .scd _ _ _ _ _ => decide (x = .rv64)
  | .addw _ _ _ | .subw _ _ _ | .sllw _ _ _ | .srlw _ _ _ | .sraw _ _ _ => decide (x = .rv64)
  | .slli64 _ _ _ | .srli64 _ _ _ | .srai64 _ _ _ => decide (x = .rv64)
  | .addiw _ _ _ | .slliw _ _ _ | .srliw _ _ _ | .sraiw _ _ _ => decide (x = .rv64)
  | .lwu _ _ _ | .ld _ _ _ | .sd _ _ _ => decide (x = .rv64)
  | .mulw _ _ _ | .divw _ _ _ | .divuw _ _ _ | .remw _ _ _ | .remuw _ _ _ => decide (x = .rv64)
  | .add _ _ _ | .sub _ _ _ | .and _ _ _ | .or _ _ _ | .xor _ _ _ | .sll _ _ _ | .srl _ _ _ | .sra _ _ _ => true
  | .slt _ _ _ | .sltu _ _ _ | .addi _ _ _ | .andi _ _ _ | .ori _ _ _ | .xori _ _ _ | .slti _ _ _ | .sltiu _ _ _ => true
  | .lb _ _ _ | .lbu _ _ _ | .lh _ _ _ | .lhu _ _ _ | .lw _ _ _ | .sb _ _ _ | .sh _ _ _ | .sw _ _ _ => true
  | .beq _ _ _ | .bne _ _ _ | .blt _ _ _ | .bltu _ _ _ | .bge _ _ _ | .bgeu _ _ _ | .jal _ _ | .jalr _ _ _ => true
  | .auipc _ _ | .lui _ _ | .ebreak | .ecall | .lrw _ _ _ _ | .scw _ _ _ _ _ => true
  | .mul _ _ _ | .mulh _ _ _ | .mulhu _ _ _ | .mulhsu _ _ _ | .div _ _ _ | .divu _ _ _ | .rem _ _ _ | .remu _ _ _ => true

/-- Whether a branch or jump offset has bit 0 equal to 0, as every offset an encoding holds has (R100, R101). -/
def Instr.offsetEven : Instr → Bool
  | .beq _ _ o | .bne _ _ o | .blt _ _ o | .bltu _ _ o | .bge _ _ o | .bgeu _ _ o => !o.getLsbD 0
  | .jal _ o => !o.getLsbD 0
  | .add _ _ _ | .sub _ _ _ | .and _ _ _ | .or _ _ _ | .xor _ _ _ | .sll _ _ _ | .srl _ _ _ | .sra _ _ _ => true
  | .slt _ _ _ | .sltu _ _ _ | .addi _ _ _ | .andi _ _ _ | .ori _ _ _ | .xori _ _ _ | .slti _ _ _ | .sltiu _ _ _ => true
  | .slli _ _ _ | .srli _ _ _ | .srai _ _ _ | .lb _ _ _ | .lbu _ _ _ | .lh _ _ _ | .lhu _ _ _ | .lw _ _ _ => true
  | .sb _ _ _ | .sh _ _ _ | .sw _ _ _ | .jalr _ _ _ | .auipc _ _ | .lui _ _ | .ebreak | .ecall | .lrw _ _ _ _ => true
  | .lrd _ _ _ _ | .scw _ _ _ _ _ | .scd _ _ _ _ _ | .addw _ _ _ | .subw _ _ _ | .sllw _ _ _ | .srlw _ _ _ => true
  | .sraw _ _ _ | .slli64 _ _ _ | .srli64 _ _ _ | .srai64 _ _ _ | .addiw _ _ _ | .slliw _ _ _ | .srliw _ _ _ => true
  | .sraiw _ _ _ | .lwu _ _ _ | .ld _ _ _ | .sd _ _ _ | .mul _ _ _ | .mulh _ _ _ | .mulhu _ _ _ | .mulhsu _ _ _ => true
  | .div _ _ _ | .divu _ _ _ | .rem _ _ _ | .remu _ _ _ | .mulw _ _ _ | .divw _ _ _ | .divuw _ _ _ | .remw _ _ _ => true
  | .remuw _ _ _ => true

/-- A well-formed instruction of the given width. -/
def Instr.wellFormed (x : XLen) (i : Instr) : Bool := i.existsAt x && i.offsetEven

end Sys2Proof
end

