-- ==== Sys2Proof/Decode.lean ====
section
/-! DEFINITION. Decoding (R90 to R112) and, after it, the opcode table row by row (R110) and the encoder. The decoder follows
the opcode map of R107: the major opcode first, then funct3, then funct7 or the other fixed bits; every word it has no arm
for is illegal (R112). -/

namespace Sys2Proof

/-- Why bytes are not an instruction. -/
inductive DecodeError where
  /-- The 32-bit word matches no row of the opcode table at the run's `XLEN` (R112). -/
  | illegal (inst : InstWord)
  /-- Fewer than the four bytes of an instruction (R90) are there. -/
  | truncated (bytes : List Byte)
  deriving DecidableEq, Repr

/-! ## The fields of an instruction word (R91 to R105) -/

/-- `opcode = inst[6:0]` (R91). -/
def opcodeOf (v : InstWord) : BitVec 7 := v.extractLsb' 0 7

/-- `rd = inst[11:7]` (R91). -/
def rdOf (v : InstWord) : RegNum := v.extractLsb' 7 5

/-- `funct3 = inst[14:12]` (R91). -/
def funct3Of (v : InstWord) : BitVec 3 := v.extractLsb' 12 3

/-- `rs1 = inst[19:15]` (R91). -/
def rs1Of (v : InstWord) : RegNum := v.extractLsb' 15 5

/-- `rs2 = inst[24:20]` (R91). -/
def rs2Of (v : InstWord) : RegNum := v.extractLsb' 20 5

/-- `funct7 = inst[31:25]` (R91). -/
def funct7Of (v : InstWord) : BitVec 7 := v.extractLsb' 25 7

/-- The I-type immediate field `inst[31:20]` (R93, R98). -/
def immIOf (v : InstWord) : BitVec 12 := v.extractLsb' 20 12

/-- The S-type immediate field, inst[31:25] then inst[11:7] (R94, R99). -/
def immSOf (v : InstWord) : BitVec 12 := v.extractLsb' 25 7 ++ v.extractLsb' 7 5

/-- The B-type offset, inst[31], inst[7], inst[30:25], inst[11:8], then a 0 (R95, R100). -/
def immBOf (v : InstWord) : BitVec 13 :=
  v.extractLsb' 31 1 ++ v.extractLsb' 7 1 ++ v.extractLsb' 25 6 ++ v.extractLsb' 8 4 ++ 0#1

/-- The J-type offset, inst[31], inst[19:12], inst[20], inst[30:21], then a 0 (R96, R101). -/
def immJOf (v : InstWord) : BitVec 21 :=
  v.extractLsb' 31 1 ++ v.extractLsb' 12 8 ++ v.extractLsb' 20 1 ++ v.extractLsb' 21 10 ++ 0#1

/-- The U-type field `immu = inst[31:12]` (R97, R102). -/
def immUOf (v : InstWord) : BitVec 20 := v.extractLsb' 12 20

/-- The 5-bit shift amount `inst[24:20]` (R103). -/
def shamt5Of (v : InstWord) : BitVec 5 := v.extractLsb' 20 5

/-- The 6-bit shift amount `inst[25:20]` of `XLEN = 64` (R103). -/
def shamt6Of (v : InstWord) : BitVec 6 := v.extractLsb' 20 6

/-- The fixed bits `inst[31:26]` above a 6-bit shift amount (R103). -/
def funct6Of (v : InstWord) : BitVec 6 := v.extractLsb' 26 6

/-- `funct5 = inst[31:27]` of `lr` and `sc` (R105). -/
def funct5Of (v : InstWord) : BitVec 5 := v.extractLsb' 27 5

/-- `aq = inst[26]` (R105). -/
def aqOf (v : InstWord) : Bool := v.getLsbD 26

/-- `rl = inst[25]` (R105). -/
def rlOf (v : InstWord) : Bool := v.getLsbD 25

/-! ## The decoder -/

/-- A row that exists only when `XLEN = 64` (R111). -/
def only64 (x : XLen) (i : Instr) : Option Instr :=
  match x with
  | .rv64 => some i
  | .rv32 => none

/-- Opcode `0000011`, the loads (R107). -/
def decodeLoad (x : XLen) (v : InstWord) : Option Instr :=
  match funct3Of v with
  | 0#3 => some (.lb (rdOf v) (rs1Of v) (immIOf v))
  | 1#3 => some (.lh (rdOf v) (rs1Of v) (immIOf v))
  | 2#3 => some (.lw (rdOf v) (rs1Of v) (immIOf v))
  | 3#3 => only64 x (.ld (rdOf v) (rs1Of v) (immIOf v))
  | 4#3 => some (.lbu (rdOf v) (rs1Of v) (immIOf v))
  | 5#3 => some (.lhu (rdOf v) (rs1Of v) (immIOf v))
  | 6#3 => only64 x (.lwu (rdOf v) (rs1Of v) (immIOf v))
  | _ => none

/-- The shift-immediates of opcode `0010011` when `XLEN = 32`: `inst[31:25]` is fixed (R103). -/
def decodeShift32 (v : InstWord) : Option Instr :=
  match funct3Of v, funct7Of v with
  | 1#3, 0x00#7 => some (.slli (rdOf v) (rs1Of v) (shamt5Of v))
  | 5#3, 0x00#7 => some (.srli (rdOf v) (rs1Of v) (shamt5Of v))
  | 5#3, 0x20#7 => some (.srai (rdOf v) (rs1Of v) (shamt5Of v))
  | _, _ => none

/-- The shift-immediates of opcode `0010011` when `XLEN = 64`: `inst[31:26]` is fixed (R103). -/
def decodeShift64 (v : InstWord) : Option Instr :=
  match funct3Of v, funct6Of v with
  | 1#3, 0x00#6 => some (.slli64 (rdOf v) (rs1Of v) (shamt6Of v))
  | 5#3, 0x00#6 => some (.srli64 (rdOf v) (rs1Of v) (shamt6Of v))
  | 5#3, 0x10#6 => some (.srai64 (rdOf v) (rs1Of v) (shamt6Of v))
  | _, _ => none

/-- The shift-immediates of opcode `0010011` at either width (R103, R111). -/
def decodeShift (x : XLen) (v : InstWord) : Option Instr :=
  match x with
  | .rv32 => decodeShift32 v
  | .rv64 => decodeShift64 v

/-- Opcode `0010011`, the immediate arithmetic (R107). -/
def decodeOpImm (x : XLen) (v : InstWord) : Option Instr :=
  match funct3Of v with
  | 0#3 => some (.addi (rdOf v) (rs1Of v) (immIOf v))
  | 2#3 => some (.slti (rdOf v) (rs1Of v) (immIOf v))
  | 3#3 => some (.sltiu (rdOf v) (rs1Of v) (immIOf v))
  | 4#3 => some (.xori (rdOf v) (rs1Of v) (immIOf v))
  | 6#3 => some (.ori (rdOf v) (rs1Of v) (immIOf v))
  | 7#3 => some (.andi (rdOf v) (rs1Of v) (immIOf v))
  | _ => decodeShift x v

/-- The shift-immediates of opcode `0011011` (R103, R246 to R248). -/
def decodeShiftW (v : InstWord) : Option Instr :=
  match funct3Of v, funct7Of v with
  | 1#3, 0x00#7 => some (.slliw (rdOf v) (rs1Of v) (shamt5Of v))
  | 5#3, 0x00#7 => some (.srliw (rdOf v) (rs1Of v) (shamt5Of v))
  | 5#3, 0x20#7 => some (.sraiw (rdOf v) (rs1Of v) (shamt5Of v))
  | _, _ => none

/-- Opcode `0011011`, the immediate word arithmetic, `XLEN = 64` only (R107, R111). -/
def decodeOpImm32 (x : XLen) (v : InstWord) : Option Instr :=
  match x with
  | .rv32 => none
  | .rv64 =>
    match funct3Of v with
    | 0#3 => some (.addiw (rdOf v) (rs1Of v) (immIOf v))
    | _ => decodeShiftW v

/-- Opcode `0100011`, the stores (R107). -/
def decodeStore (x : XLen) (v : InstWord) : Option Instr :=
  match funct3Of v with
  | 0#3 => some (.sb (rs1Of v) (rs2Of v) (immSOf v))
  | 1#3 => some (.sh (rs1Of v) (rs2Of v) (immSOf v))
  | 2#3 => some (.sw (rs1Of v) (rs2Of v) (immSOf v))
  | 3#3 => only64 x (.sd (rs1Of v) (rs2Of v) (immSOf v))
  | _ => none

/-- `lr` needs a zero `rs2` field (R105, R218). -/
def onlyRs2Zero (v : InstWord) (i : Instr) : Option Instr := if rs2Of v = 0 then some i else none

/-- Opcode `0101111`, load-reserved and store-conditional (R105, R107). -/
def decodeAtomic (x : XLen) (v : InstWord) : Option Instr :=
  match funct5Of v, funct3Of v with
  | 0x02#5, 2#3 => onlyRs2Zero v (.lrw (rdOf v) (rs1Of v) (aqOf v) (rlOf v))
  | 0x02#5, 3#3 => (onlyRs2Zero v (.lrd (rdOf v) (rs1Of v) (aqOf v) (rlOf v))).bind (only64 x)
  | 0x03#5, 2#3 => some (.scw (rdOf v) (rs1Of v) (rs2Of v) (aqOf v) (rlOf v))
  | 0x03#5, 3#3 => only64 x (.scd (rdOf v) (rs1Of v) (rs2Of v) (aqOf v) (rlOf v))
  | _, _ => none

/-- Opcode `0110011`, the register arithmetic, multiplication and division (R107). -/
def decodeOp (v : InstWord) : Option Instr :=
  match funct7Of v, funct3Of v with
  | 0x00#7, 0#3 => some (.add (rdOf v) (rs1Of v) (rs2Of v))
  | 0x00#7, 1#3 => some (.sll (rdOf v) (rs1Of v) (rs2Of v))
  | 0x00#7, 2#3 => some (.slt (rdOf v) (rs1Of v) (rs2Of v))
  | 0x00#7, 3#3 => some (.sltu (rdOf v) (rs1Of v) (rs2Of v))
  | 0x00#7, 4#3 => some (.xor (rdOf v) (rs1Of v) (rs2Of v))
  | 0x00#7, 5#3 => some (.srl (rdOf v) (rs1Of v) (rs2Of v))
  | 0x00#7, 6#3 => some (.or (rdOf v) (rs1Of v) (rs2Of v))
  | 0x00#7, 7#3 => some (.and (rdOf v) (rs1Of v) (rs2Of v))
  | 0x20#7, 0#3 => some (.sub (rdOf v) (rs1Of v) (rs2Of v))
  | 0x20#7, 5#3 => some (.sra (rdOf v) (rs1Of v) (rs2Of v))
  | 0x01#7, 0#3 => some (.mul (rdOf v) (rs1Of v) (rs2Of v))
  | 0x01#7, 1#3 => some (.mulh (rdOf v) (rs1Of v) (rs2Of v))
  | 0x01#7, 2#3 => some (.mulhsu (rdOf v) (rs1Of v) (rs2Of v))
  | 0x01#7, 3#3 => some (.mulhu (rdOf v) (rs1Of v) (rs2Of v))
  | 0x01#7, 4#3 => some (.div (rdOf v) (rs1Of v) (rs2Of v))
  | 0x01#7, 5#3 => some (.divu (rdOf v) (rs1Of v) (rs2Of v))
  | 0x01#7, 6#3 => some (.rem (rdOf v) (rs1Of v) (rs2Of v))
  | 0x01#7, 7#3 => some (.remu (rdOf v) (rs1Of v) (rs2Of v))
  | _, _ => none

/-- Opcode `0111011`, the register word arithmetic, multiplication and division, `XLEN = 64` only (R107, R111). -/
def decodeOp32 (x : XLen) (v : InstWord) : Option Instr :=
  match x with
  | .rv32 => none
  | .rv64 =>
    match funct7Of v, funct3Of v with
    | 0x00#7, 0#3 => some (.addw (rdOf v) (rs1Of v) (rs2Of v))
    | 0x00#7, 1#3 => some (.sllw (rdOf v) (rs1Of v) (rs2Of v))
    | 0x00#7, 5#3 => some (.srlw (rdOf v) (rs1Of v) (rs2Of v))
    | 0x20#7, 0#3 => some (.subw (rdOf v) (rs1Of v) (rs2Of v))
    | 0x20#7, 5#3 => some (.sraw (rdOf v) (rs1Of v) (rs2Of v))
    | 0x01#7, 0#3 => some (.mulw (rdOf v) (rs1Of v) (rs2Of v))
    | 0x01#7, 4#3 => some (.divw (rdOf v) (rs1Of v) (rs2Of v))
    | 0x01#7, 5#3 => some (.divuw (rdOf v) (rs1Of v) (rs2Of v))
    | 0x01#7, 6#3 => some (.remw (rdOf v) (rs1Of v) (rs2Of v))
    | 0x01#7, 7#3 => some (.remuw (rdOf v) (rs1Of v) (rs2Of v))
    | _, _ => none

/-- Opcode `1100011`, the branches (R107, R108). -/
def decodeBranch (v : InstWord) : Option Instr :=
  match funct3Of v with
  | 0#3 => some (.beq (rs1Of v) (rs2Of v) (immBOf v))
  | 1#3 => some (.bne (rs1Of v) (rs2Of v) (immBOf v))
  | 4#3 => some (.blt (rs1Of v) (rs2Of v) (immBOf v))
  | 5#3 => some (.bge (rs1Of v) (rs2Of v) (immBOf v))
  | 6#3 => some (.bltu (rs1Of v) (rs2Of v) (immBOf v))
  | 7#3 => some (.bgeu (rs1Of v) (rs2Of v) (immBOf v))
  | _ => none

/-- Opcode `1100111`, `jalr` (R107). -/
def decodeJalr (v : InstWord) : Option Instr :=
  match funct3Of v with
  | 0#3 => some (.jalr (rdOf v) (rs1Of v) (immIOf v))
  | _ => none

/-- Opcode `1110011`: `ecall` and `ebreak` are single words (R104, R205). -/
def decodeSystem (v : InstWord) : Option Instr :=
  if v = 0x00000073#32 then some .ecall else if v = 0x00100073#32 then some .ebreak else none

/-- The opcode map of R107, at the given width; `none` is an illegal word. -/
def decodeWord? (x : XLen) (v : InstWord) : Option Instr :=
  if opcodeOf v = 0x03#7 then decodeLoad x v
  else if opcodeOf v = 0x13#7 then decodeOpImm x v
  else if opcodeOf v = 0x17#7 then some (.auipc (rdOf v) (immUOf v))
  else if opcodeOf v = 0x1B#7 then decodeOpImm32 x v
  else if opcodeOf v = 0x23#7 then decodeStore x v
  else if opcodeOf v = 0x2F#7 then decodeAtomic x v
  else if opcodeOf v = 0x33#7 then decodeOp v
  else if opcodeOf v = 0x37#7 then some (.lui (rdOf v) (immUOf v))
  else if opcodeOf v = 0x3B#7 then decodeOp32 x v
  else if opcodeOf v = 0x63#7 then decodeBranch v
  else if opcodeOf v = 0x67#7 then decodeJalr v
  else if opcodeOf v = 0x6F#7 then some (.jal (rdOf v) (immJOf v))
  else if opcodeOf v = 0x73#7 then decodeSystem v
  else none

/-- Decoding a word is total: an instruction, or `illegal` with the word (R110, R112). -/
def decode (x : XLen) (v : InstWord) : Except DecodeError Instr :=
  match decodeWord? x v with
  | some i => .ok i
  | none => .error (.illegal v)

/-- The word whose bytes, lowest address first, are these four: fetch is little-endian (R51). -/
def wordOfBytes (b0 b1 b2 b3 : Byte) : InstWord := b3 ++ b2 ++ b1 ++ b0

/-- The four bytes of a word, lowest address first (R51). -/
def bytesOfWord (v : InstWord) : List Byte :=
  [v.extractLsb' 0 8, v.extractLsb' 8 8, v.extractLsb' 16 8, v.extractLsb' 24 8]

/-- Decode the instruction at the head of a list of bytes and return the bytes after it. -/
def decodeBytes (x : XLen) : List Byte → Except DecodeError (Instr × List Byte)
  | b0 :: b1 :: b2 :: b3 :: rest =>
    match decode x (wordOfBytes b0 b1 b2 b3) with
    | .ok i => .ok (i, rest)
    | .error e => .error e
  | bytes => .error (.truncated bytes)

/-- The instruction the decoder reads from the low `nbits` bits of `w`, laid out in memory as the hardware stores it; bits
above `nbits` are 0. The width is that of `State.reset` (assumption 22). -/
def decodeTableWord (nbits w : Nat) : Option Instr :=
  match decodeBytes Config.resetXlen (bytesOfWord (BitVec.ofNat 32 (w % 2 ^ nbits))) with
  | .ok (i, _) => some i
  | .error _ => none

/-! ## The opcode table (R110), transcribed row by row -/

/-- A row of the opcode table: `word` has the row's instruction when `word &&& mask = pattern`, at the widths of `xlens`;
`build` is that instruction. -/
structure TableRow where
  mnemonic : String
  pattern : InstWord
  mask : InstWord
  xlens : List XLen
  build : InstWord → Instr

/-- R110: whether a word matches a row that exists at the given width. -/
def TableRow.selects (r : TableRow) (x : XLen) (v : InstWord) : Bool :=
  decide (x ∈ r.xlens) && decide (v &&& r.mask = r.pattern)

/-- The rows of RV32I arithmetic (R131 to R149), as the opcode table gives them. -/
def tableArithmetic : List TableRow := [
  ⟨"add", 0x00000033#32, 0xFE00707F#32, [.rv32, .rv64], fun v => .add (rdOf v) (rs1Of v) (rs2Of v)⟩,
  ⟨"sub", 0x40000033#32, 0xFE00707F#32, [.rv32, .rv64], fun v => .sub (rdOf v) (rs1Of v) (rs2Of v)⟩,
  ⟨"and", 0x00007033#32, 0xFE00707F#32, [.rv32, .rv64], fun v => .and (rdOf v) (rs1Of v) (rs2Of v)⟩,
  ⟨"or", 0x00006033#32, 0xFE00707F#32, [.rv32, .rv64], fun v => .or (rdOf v) (rs1Of v) (rs2Of v)⟩,
  ⟨"xor", 0x00004033#32, 0xFE00707F#32, [.rv32, .rv64], fun v => .xor (rdOf v) (rs1Of v) (rs2Of v)⟩,
  ⟨"sll", 0x00001033#32, 0xFE00707F#32, [.rv32, .rv64], fun v => .sll (rdOf v) (rs1Of v) (rs2Of v)⟩,
  ⟨"srl", 0x00005033#32, 0xFE00707F#32, [.rv32, .rv64], fun v => .srl (rdOf v) (rs1Of v) (rs2Of v)⟩,
  ⟨"sra", 0x40005033#32, 0xFE00707F#32, [.rv32, .rv64], fun v => .sra (rdOf v) (rs1Of v) (rs2Of v)⟩,
  ⟨"slt", 0x00002033#32, 0xFE00707F#32, [.rv32, .rv64], fun v => .slt (rdOf v) (rs1Of v) (rs2Of v)⟩,
  ⟨"sltu", 0x00003033#32, 0xFE00707F#32, [.rv32, .rv64], fun v => .sltu (rdOf v) (rs1Of v) (rs2Of v)⟩,
  ⟨"addi", 0x00000013#32, 0x0000707F#32, [.rv32, .rv64], fun v => .addi (rdOf v) (rs1Of v) (immIOf v)⟩,
  ⟨"andi", 0x00007013#32, 0x0000707F#32, [.rv32, .rv64], fun v => .andi (rdOf v) (rs1Of v) (immIOf v)⟩,
  ⟨"ori", 0x00006013#32, 0x0000707F#32, [.rv32, .rv64], fun v => .ori (rdOf v) (rs1Of v) (immIOf v)⟩,
  ⟨"xori", 0x00004013#32, 0x0000707F#32, [.rv32, .rv64], fun v => .xori (rdOf v) (rs1Of v) (immIOf v)⟩,
  ⟨"slti", 0x00002013#32, 0x0000707F#32, [.rv32, .rv64], fun v => .slti (rdOf v) (rs1Of v) (immIOf v)⟩,
  ⟨"sltiu", 0x00003013#32, 0x0000707F#32, [.rv32, .rv64], fun v => .sltiu (rdOf v) (rs1Of v) (immIOf v)⟩,
  ⟨"slli", 0x00001013#32, 0xFE00707F#32, [.rv32], fun v => .slli (rdOf v) (rs1Of v) (shamt5Of v)⟩,
  ⟨"srli", 0x00005013#32, 0xFE00707F#32, [.rv32], fun v => .srli (rdOf v) (rs1Of v) (shamt5Of v)⟩,
  ⟨"srai", 0x40005013#32, 0xFE00707F#32, [.rv32], fun v => .srai (rdOf v) (rs1Of v) (shamt5Of v)⟩]

/-- The rows of RV32I loads and stores (R162 to R169), as the opcode table gives them. -/
def tableMemory : List TableRow := [
  ⟨"lb", 0x00000003#32, 0x0000707F#32, [.rv32, .rv64], fun v => .lb (rdOf v) (rs1Of v) (immIOf v)⟩,
  ⟨"lbu", 0x00004003#32, 0x0000707F#32, [.rv32, .rv64], fun v => .lbu (rdOf v) (rs1Of v) (immIOf v)⟩,
  ⟨"lh", 0x00001003#32, 0x0000707F#32, [.rv32, .rv64], fun v => .lh (rdOf v) (rs1Of v) (immIOf v)⟩,
  ⟨"lhu", 0x00005003#32, 0x0000707F#32, [.rv32, .rv64], fun v => .lhu (rdOf v) (rs1Of v) (immIOf v)⟩,
  ⟨"lw", 0x00002003#32, 0x0000707F#32, [.rv32, .rv64], fun v => .lw (rdOf v) (rs1Of v) (immIOf v)⟩,
  ⟨"sb", 0x00000023#32, 0x0000707F#32, [.rv32, .rv64], fun v => .sb (rs1Of v) (rs2Of v) (immSOf v)⟩,
  ⟨"sh", 0x00001023#32, 0x0000707F#32, [.rv32, .rv64], fun v => .sh (rs1Of v) (rs2Of v) (immSOf v)⟩,
  ⟨"sw", 0x00002023#32, 0x0000707F#32, [.rv32, .rv64], fun v => .sw (rs1Of v) (rs2Of v) (immSOf v)⟩]

/-- The rows of RV32I control (R182 to R189), as the opcode table gives them. -/
def tableControl : List TableRow := [
  ⟨"beq", 0x00000063#32, 0x0000707F#32, [.rv32, .rv64], fun v => .beq (rs1Of v) (rs2Of v) (immBOf v)⟩,
  ⟨"bne", 0x00001063#32, 0x0000707F#32, [.rv32, .rv64], fun v => .bne (rs1Of v) (rs2Of v) (immBOf v)⟩,
  ⟨"blt", 0x00004063#32, 0x0000707F#32, [.rv32, .rv64], fun v => .blt (rs1Of v) (rs2Of v) (immBOf v)⟩,
  ⟨"bltu", 0x00006063#32, 0x0000707F#32, [.rv32, .rv64], fun v => .bltu (rs1Of v) (rs2Of v) (immBOf v)⟩,
  ⟨"bge", 0x00005063#32, 0x0000707F#32, [.rv32, .rv64], fun v => .bge (rs1Of v) (rs2Of v) (immBOf v)⟩,
  ⟨"bgeu", 0x00007063#32, 0x0000707F#32, [.rv32, .rv64], fun v => .bgeu (rs1Of v) (rs2Of v) (immBOf v)⟩,
  ⟨"jal", 0x0000006F#32, 0x0000007F#32, [.rv32, .rv64], fun v => .jal (rdOf v) (immJOf v)⟩,
  ⟨"jalr", 0x00000067#32, 0x0000707F#32, [.rv32, .rv64], fun v => .jalr (rdOf v) (rs1Of v) (immIOf v)⟩]

/-- The rows of RV32I other (R201 to R204), as the opcode table gives them. -/
def tableOther : List TableRow := [
  ⟨"auipc", 0x00000017#32, 0x0000007F#32, [.rv32, .rv64], fun v => .auipc (rdOf v) (immUOf v)⟩,
  ⟨"lui", 0x00000037#32, 0x0000007F#32, [.rv32, .rv64], fun v => .lui (rdOf v) (immUOf v)⟩,
  ⟨"ebreak", 0x00100073#32, 0xFFFFFFFF#32, [.rv32, .rv64], fun _ => .ebreak⟩,
  ⟨"ecall", 0x00000073#32, 0xFFFFFFFF#32, [.rv32, .rv64], fun _ => .ecall⟩]

/-- The rows of load-reserved and store-conditional (R218 to R221), as the opcode table gives them. -/
def tableAtomic : List TableRow := [
  ⟨"lr.w", 0x1000202F#32, 0xF9F0707F#32, [.rv32, .rv64], fun v => .lrw (rdOf v) (rs1Of v) (aqOf v) (rlOf v)⟩,
  ⟨"lr.d", 0x1000302F#32, 0xF9F0707F#32, [.rv64], fun v => .lrd (rdOf v) (rs1Of v) (aqOf v) (rlOf v)⟩,
  ⟨"sc.w", 0x1800202F#32, 0xF800707F#32, [.rv32, .rv64], fun v => .scw (rdOf v) (rs1Of v) (rs2Of v) (aqOf v) (rlOf v)⟩,
  ⟨"sc.d", 0x1800302F#32, 0xF800707F#32, [.rv64], fun v => .scd (rdOf v) (rs1Of v) (rs2Of v) (aqOf v) (rlOf v)⟩]

/-- The rows of RV64I additions (R237 to R251), as the opcode table gives them. -/
def tableRv64 : List TableRow := [
  ⟨"addw", 0x0000003B#32, 0xFE00707F#32, [.rv64], fun v => .addw (rdOf v) (rs1Of v) (rs2Of v)⟩,
  ⟨"subw", 0x4000003B#32, 0xFE00707F#32, [.rv64], fun v => .subw (rdOf v) (rs1Of v) (rs2Of v)⟩,
  ⟨"sllw", 0x0000103B#32, 0xFE00707F#32, [.rv64], fun v => .sllw (rdOf v) (rs1Of v) (rs2Of v)⟩,
  ⟨"srlw", 0x0000503B#32, 0xFE00707F#32, [.rv64], fun v => .srlw (rdOf v) (rs1Of v) (rs2Of v)⟩,
  ⟨"sraw", 0x4000503B#32, 0xFE00707F#32, [.rv64], fun v => .sraw (rdOf v) (rs1Of v) (rs2Of v)⟩,
  ⟨"slli", 0x00001013#32, 0xFC00707F#32, [.rv64], fun v => .slli64 (rdOf v) (rs1Of v) (shamt6Of v)⟩,
  ⟨"srli", 0x00005013#32, 0xFC00707F#32, [.rv64], fun v => .srli64 (rdOf v) (rs1Of v) (shamt6Of v)⟩,
  ⟨"srai", 0x40005013#32, 0xFC00707F#32, [.rv64], fun v => .srai64 (rdOf v) (rs1Of v) (shamt6Of v)⟩,
  ⟨"addiw", 0x0000001B#32, 0x0000707F#32, [.rv64], fun v => .addiw (rdOf v) (rs1Of v) (immIOf v)⟩,
  ⟨"slliw", 0x0000101B#32, 0xFE00707F#32, [.rv64], fun v => .slliw (rdOf v) (rs1Of v) (shamt5Of v)⟩,
  ⟨"srliw", 0x0000501B#32, 0xFE00707F#32, [.rv64], fun v => .srliw (rdOf v) (rs1Of v) (shamt5Of v)⟩,
  ⟨"sraiw", 0x4000501B#32, 0xFE00707F#32, [.rv64], fun v => .sraiw (rdOf v) (rs1Of v) (shamt5Of v)⟩,
  ⟨"lwu", 0x00006003#32, 0x0000707F#32, [.rv64], fun v => .lwu (rdOf v) (rs1Of v) (immIOf v)⟩,
  ⟨"ld", 0x00003003#32, 0x0000707F#32, [.rv64], fun v => .ld (rdOf v) (rs1Of v) (immIOf v)⟩,
  ⟨"sd", 0x00003023#32, 0x0000707F#32, [.rv64], fun v => .sd (rs1Of v) (rs2Of v) (immSOf v)⟩]

/-- The rows of multiplication and division (R262 to R274), as the opcode table gives them. -/
def tableMulDiv : List TableRow := [
  ⟨"mul", 0x02000033#32, 0xFE00707F#32, [.rv32, .rv64], fun v => .mul (rdOf v) (rs1Of v) (rs2Of v)⟩,
  ⟨"mulh", 0x02001033#32, 0xFE00707F#32, [.rv32, .rv64], fun v => .mulh (rdOf v) (rs1Of v) (rs2Of v)⟩,
  ⟨"mulhu", 0x02003033#32, 0xFE00707F#32, [.rv32, .rv64], fun v => .mulhu (rdOf v) (rs1Of v) (rs2Of v)⟩,
  ⟨"mulhsu", 0x02002033#32, 0xFE00707F#32, [.rv32, .rv64], fun v => .mulhsu (rdOf v) (rs1Of v) (rs2Of v)⟩,
  ⟨"div", 0x02004033#32, 0xFE00707F#32, [.rv32, .rv64], fun v => .div (rdOf v) (rs1Of v) (rs2Of v)⟩,
  ⟨"divu", 0x02005033#32, 0xFE00707F#32, [.rv32, .rv64], fun v => .divu (rdOf v) (rs1Of v) (rs2Of v)⟩,
  ⟨"rem", 0x02006033#32, 0xFE00707F#32, [.rv32, .rv64], fun v => .rem (rdOf v) (rs1Of v) (rs2Of v)⟩,
  ⟨"remu", 0x02007033#32, 0xFE00707F#32, [.rv32, .rv64], fun v => .remu (rdOf v) (rs1Of v) (rs2Of v)⟩,
  ⟨"mulw", 0x0200003B#32, 0xFE00707F#32, [.rv64], fun v => .mulw (rdOf v) (rs1Of v) (rs2Of v)⟩,
  ⟨"divw", 0x0200403B#32, 0xFE00707F#32, [.rv64], fun v => .divw (rdOf v) (rs1Of v) (rs2Of v)⟩,
  ⟨"divuw", 0x0200503B#32, 0xFE00707F#32, [.rv64], fun v => .divuw (rdOf v) (rs1Of v) (rs2Of v)⟩,
  ⟨"remw", 0x0200603B#32, 0xFE00707F#32, [.rv64], fun v => .remw (rdOf v) (rs1Of v) (rs2Of v)⟩,
  ⟨"remuw", 0x0200703B#32, 0xFE00707F#32, [.rv64], fun v => .remuw (rdOf v) (rs1Of v) (rs2Of v)⟩]

/-- The whole opcode table, 71 rows (R110). -/
def opcodeTable : List TableRow :=
  tableArithmetic ++ tableMemory ++ tableControl ++ tableOther ++ tableAtomic ++ tableRv64 ++ tableMulDiv

/-! ## The encoder -/

/-- R-type: funct7, rs2, rs1, funct3, rd, opcode (R92). The 5-bit shift-immediates have the same cut, `shamt` standing where
rs2 does (R103). -/
def encR (f7 : BitVec 7) (rs2 rs1 : BitVec 5) (f3 : BitVec 3) (rd : RegNum) (op : BitVec 7) : InstWord :=
  f7 ++ rs2 ++ rs1 ++ f3 ++ rd ++ op

/-- I-type: imm[11:0], rs1, funct3, rd, opcode (R93). -/
def encI (imm : BitVec 12) (rs1 : RegNum) (f3 : BitVec 3) (rd : RegNum) (op : BitVec 7) : InstWord :=
  imm ++ rs1 ++ f3 ++ rd ++ op

/-- The 6-bit shift-immediates: inst[31:26], shamt, rs1, funct3, rd, opcode (R103). -/
def encSh6 (f6 : BitVec 6) (shamt : BitVec 6) (rs1 : RegNum) (f3 : BitVec 3) (rd : RegNum) (op : BitVec 7) : InstWord :=
  f6 ++ shamt ++ rs1 ++ f3 ++ rd ++ op

/-- S-type: imm[11:5], rs2, rs1, funct3, imm[4:0], opcode (R94). -/
def encS (imm : BitVec 12) (rs2 rs1 : RegNum) (f3 : BitVec 3) (op : BitVec 7) : InstWord :=
  imm.extractLsb' 5 7 ++ rs2 ++ rs1 ++ f3 ++ imm.extractLsb' 0 5 ++ op

/-- B-type: imm[12], imm[10:5], rs2, rs1, funct3, imm[4:1], imm[11], opcode (R95). -/
def encB (o : BitVec 13) (rs2 rs1 : RegNum) (f3 : BitVec 3) (op : BitVec 7) : InstWord :=
  o.extractLsb' 12 1 ++ o.extractLsb' 5 6 ++ rs2 ++ rs1 ++ f3 ++ o.extractLsb' 1 4 ++ o.extractLsb' 11 1 ++ op

/-- J-type: imm[20], imm[10:1], imm[11], imm[19:12], rd, opcode (R96). -/
def encJ (o : BitVec 21) (rd : RegNum) (op : BitVec 7) : InstWord :=
  o.extractLsb' 20 1 ++ o.extractLsb' 1 10 ++ o.extractLsb' 11 1 ++ o.extractLsb' 12 8 ++ rd ++ op

/-- U-type: imm[31:12], rd, opcode (R97). -/
def encU (immu : BitVec 20) (rd : RegNum) (op : BitVec 7) : InstWord := immu ++ rd ++ op

/-- `lr` and `sc`: funct5, aq, rl, rs2, rs1, funct3, rd, opcode (R105). -/
def encA (f5 : BitVec 5) (aq rl : Bool) (rs2 rs1 : RegNum) (f3 : BitVec 3) (rd : RegNum) (op : BitVec 7) : InstWord :=
  f5 ++ BitVec.ofBool aq ++ BitVec.ofBool rl ++ rs2 ++ rs1 ++ f3 ++ rd ++ op

/-- The word of an instruction, written from the encoding of its row (R92 to R105, R107). -/
def encode : Instr → InstWord
  | .add rd rs1 rs2 => encR 0x0 rs2 rs1 0 rd 0x33
  | .sub rd rs1 rs2 => encR 0x20 rs2 rs1 0 rd 0x33
  | .and rd rs1 rs2 => encR 0x0 rs2 rs1 7 rd 0x33
  | .or rd rs1 rs2 => encR 0x0 rs2 rs1 6 rd 0x33
  | .xor rd rs1 rs2 => encR 0x0 rs2 rs1 4 rd 0x33
  | .sll rd rs1 rs2 => encR 0x0 rs2 rs1 1 rd 0x33
  | .srl rd rs1 rs2 => encR 0x0 rs2 rs1 5 rd 0x33
  | .sra rd rs1 rs2 => encR 0x20 rs2 rs1 5 rd 0x33
  | .slt rd rs1 rs2 => encR 0x0 rs2 rs1 2 rd 0x33
  | .sltu rd rs1 rs2 => encR 0x0 rs2 rs1 3 rd 0x33
  | .addi rd rs1 imm => encI imm rs1 0 rd 0x13
  | .andi rd rs1 imm => encI imm rs1 7 rd 0x13
  | .ori rd rs1 imm => encI imm rs1 6 rd 0x13
  | .xori rd rs1 imm => encI imm rs1 4 rd 0x13
  | .slti rd rs1 imm => encI imm rs1 2 rd 0x13
  | .sltiu rd rs1 imm => encI imm rs1 3 rd 0x13
  | .slli rd rs1 shamt => encR 0x0 shamt rs1 1 rd 0x13
  | .srli rd rs1 shamt => encR 0x0 shamt rs1 5 rd 0x13
  | .srai rd rs1 shamt => encR 0x20 shamt rs1 5 rd 0x13
  | .lb rd rs1 imm => encI imm rs1 0 rd 0x3
  | .lbu rd rs1 imm => encI imm rs1 4 rd 0x3
  | .lh rd rs1 imm => encI imm rs1 1 rd 0x3
  | .lhu rd rs1 imm => encI imm rs1 5 rd 0x3
  | .lw rd rs1 imm => encI imm rs1 2 rd 0x3
  | .sb rs1 rs2 imm => encS imm rs2 rs1 0 0x23
  | .sh rs1 rs2 imm => encS imm rs2 rs1 1 0x23
  | .sw rs1 rs2 imm => encS imm rs2 rs1 2 0x23
  | .beq rs1 rs2 offset => encB offset rs2 rs1 0 0x63
  | .bne rs1 rs2 offset => encB offset rs2 rs1 1 0x63
  | .blt rs1 rs2 offset => encB offset rs2 rs1 4 0x63
  | .bltu rs1 rs2 offset => encB offset rs2 rs1 6 0x63
  | .bge rs1 rs2 offset => encB offset rs2 rs1 5 0x63
  | .bgeu rs1 rs2 offset => encB offset rs2 rs1 7 0x63
  | .jal rd offset => encJ offset rd 0x6f
  | .jalr rd rs1 imm => encI imm rs1 0 rd 0x67
  | .auipc rd immu => encU immu rd 0x17
  | .lui rd immu => encU immu rd 0x37
  | .ebreak => encI 1 0 0 0 0x73
  | .ecall => encI 0 0 0 0 0x73
  | .lrw rd rs1 aq rl => encA 0x2 aq rl 0 rs1 2 rd 0x2f
  | .lrd rd rs1 aq rl => encA 0x2 aq rl 0 rs1 3 rd 0x2f
  | .scw rd rs1 rs2 aq rl => encA 0x3 aq rl rs2 rs1 2 rd 0x2f
  | .scd rd rs1 rs2 aq rl => encA 0x3 aq rl rs2 rs1 3 rd 0x2f
  | .addw rd rs1 rs2 => encR 0x0 rs2 rs1 0 rd 0x3b
  | .subw rd rs1 rs2 => encR 0x20 rs2 rs1 0 rd 0x3b
  | .sllw rd rs1 rs2 => encR 0x0 rs2 rs1 1 rd 0x3b
  | .srlw rd rs1 rs2 => encR 0x0 rs2 rs1 5 rd 0x3b
  | .sraw rd rs1 rs2 => encR 0x20 rs2 rs1 5 rd 0x3b
  | .slli64 rd rs1 shamt => encSh6 0x0 shamt rs1 1 rd 0x13
  | .srli64 rd rs1 shamt => encSh6 0x0 shamt rs1 5 rd 0x13
  | .srai64 rd rs1 shamt => encSh6 0x10 shamt rs1 5 rd 0x13
  | .addiw rd rs1 imm => encI imm rs1 0 rd 0x1b
  | .slliw rd rs1 shamt => encR 0x0 shamt rs1 1 rd 0x1b
  | .srliw rd rs1 shamt => encR 0x0 shamt rs1 5 rd 0x1b
  | .sraiw rd rs1 shamt => encR 0x20 shamt rs1 5 rd 0x1b
  | .lwu rd rs1 imm => encI imm rs1 6 rd 0x3
  | .ld rd rs1 imm => encI imm rs1 3 rd 0x3
  | .sd rs1 rs2 imm => encS imm rs2 rs1 3 0x23
  | .mul rd rs1 rs2 => encR 0x1 rs2 rs1 0 rd 0x33
  | .mulh rd rs1 rs2 => encR 0x1 rs2 rs1 1 rd 0x33
  | .mulhu rd rs1 rs2 => encR 0x1 rs2 rs1 3 rd 0x33
  | .mulhsu rd rs1 rs2 => encR 0x1 rs2 rs1 2 rd 0x33
  | .div rd rs1 rs2 => encR 0x1 rs2 rs1 4 rd 0x33
  | .divu rd rs1 rs2 => encR 0x1 rs2 rs1 5 rd 0x33
  | .rem rd rs1 rs2 => encR 0x1 rs2 rs1 6 rd 0x33
  | .remu rd rs1 rs2 => encR 0x1 rs2 rs1 7 rd 0x33
  | .mulw rd rs1 rs2 => encR 0x1 rs2 rs1 0 rd 0x3b
  | .divw rd rs1 rs2 => encR 0x1 rs2 rs1 4 rd 0x3b
  | .divuw rd rs1 rs2 => encR 0x1 rs2 rs1 5 rd 0x3b
  | .remw rd rs1 rs2 => encR 0x1 rs2 rs1 6 rd 0x3b
  | .remuw rd rs1 rs2 => encR 0x1 rs2 rs1 7 rd 0x3b

/-- The bytes of an instruction, lowest address first (R51, R90). -/
def encodeBytes (i : Instr) : List Byte := bytesOfWord (encode i)

end Sys2Proof
end

