-- ==== Sys2Proof/Machine/State.lean ====
section
/-! DEFINITION. The state of the machine as plain data: everything the spec names as state (R20 to R37), and the parameters of a
run (R36), which no step changes. -/

namespace Sys2Proof.Machine

/-- The ten conditions a step can raise, with their payloads (R300). A raising step records its condition in the state's
`outcome` and writes nothing else (R306); the step after it answers the host's `fault` with that condition, since the hart
takes no further step. A payload address is the unsigned value of the `XLEN`-bit address. -/
inductive Fault where
  /-- A taken branch, `jal` or `jalr` whose target is not a multiple of 4, or a fetch at such a `pc` (R181, R70).
  Safe: the program gets no meaning. -/
  | instructionAddressMisaligned (target : Nat)
  /-- A fetch from a byte that is not backed or lacks X (R70). Safe. -/
  | instructionAccessFault (pc : Nat)
  /-- A fetch of a byte that a store of this run has written (R71): a fault of the model, not of RISC-V. Safe. -/
  | fetchAfterStore (pc : Nat)
  /-- A fetched word that matches no row of the opcode table at the run's `XLEN` (R112, R302). Safe. -/
  | illegalInstruction (inst : InstWord)
  /-- A load or `lr` whose address is not a multiple of its size (R53). Safe. -/
  | loadAddressMisaligned (addr : Nat)
  /-- A load or `lr` that touches a byte not backed or without R (R62). Safe. -/
  | loadAccessFault (addr : Nat)
  /-- A store or `sc` whose address is not a multiple of its size (R53). Safe. -/
  | storeAddressMisaligned (addr : Nat)
  /-- A store or `sc` that touches a byte not backed or without W (R62). Safe. -/
  | storeAccessFault (addr : Nat)
  /-- `ecall`, when the environment does not resume the hart (R310). Safe. -/
  | environmentCall (pc : Nat)
  /-- `ebreak`, when the environment does not resume the hart (R310). Safe. -/
  | breakpoint (pc : Nat)
  deriving DecidableEq, Repr

/-- Why a step has no meaning at all. No arm of `exec` uses it: every instruction of the opcode table has its meaning. -/
inductive Refusal where
  /-- An instruction that has no meaning in the model yet, by its mnemonic. Safe. -/
  | notModelled (mnemonic : String)
  deriving DecidableEq, Repr

/-- `outcome` (R35, R306): the run goes on, or has ended with the condition that was raised. -/
inductive RunOutcome where
  | running
  | raised (f : Fault)
  deriving DecidableEq, Repr

/-- The two widths of `lr` and `sc`: `.w` is 4 bytes and `.d` is 8 bytes (R217). -/
inductive ReservedSize where
  | word
  | double
  deriving DecidableEq, Repr

/-- The number of bytes of a reservation (R217). -/
def ReservedSize.bytes : ReservedSize → Nat
  | .word => 4
  | .double => 8

/-- A load reservation `(addr, n)` (R32). -/
structure Reservation (w : Nat) where
  addr : BitVec w
  size : ReservedSize
  deriving DecidableEq, Repr

/-- Memory (R33): the bytes that differ from what an unlisted address reads as, by rising address. -/
structure Memory where
  cells : List Host.Cell
  deriving DecidableEq, Repr

/-- What hands control to the environment: `ecall` or `ebreak` (R310). -/
inductive EnvKind where
  | call
  | breakpoint
  deriving DecidableEq, Repr

/-- What `EnvHandler` is given of the state: all of `x`, `pc`, `M` and `reservation` (R310). -/
structure EnvView (w : Nat) where
  regs : Vector (BitVec w) 31
  pc : BitVec w
  mem : Memory
  reservation : Option (Reservation w)
  deriving DecidableEq, Repr

/-- What `EnvHandler` answers (R310): stop the run, or resume the hart with these registers x1 to x31, this `pc`, these bytes
of memory written, and the reservation kept or dropped. -/
inductive EnvAnswer (w : Nat) where
  | stop
  | resume (regs : Vector (BitVec w) 31) (pc : BitVec w) (bytes : List Host.Cell) (keepReservation : Bool)
  deriving DecidableEq, Repr

/-- A row of the table that stands for the function `EnvHandler` (R310, assumption 7): its answer to one kind of transfer from
one state. -/
structure EnvRow (w : Nat) where
  kind : EnvKind
  seen : EnvView w
  answer : EnvAnswer w
  deriving DecidableEq, Repr

/-- The hart with its memory and the rest of a run, at a register width of `w` bits. -/
structure Hart (w : Nat) where
  /-- The map, `MISALIGNED_DATA` and `SC_SPURIOUS_FAIL`: parameters of the run (R36); no step changes them. -/
  platform : Platform
  /-- `EnvHandler`, a parameter of the run (R36, R310): a function of the kind of transfer and the state, held as its table;
  where no row is listed it answers `stop`. No step changes it. -/
  handler : List (EnvRow w)
  /-- x1 to x31, at indices 0 to 30 (R20). x0 is not stored: it reads as zero (R21). -/
  regs : Vector (BitVec w) 31
  /-- The address of the instruction being executed (R25). -/
  pc : BitVec w
  /-- The load reservation (R32). -/
  reservation : Option (Reservation w)
  /-- The bytes of memory (R33). -/
  mem : Memory
  /-- The byte addresses that stores of this run have written, strictly rising (R35, R71). -/
  written : List Nat
  /-- Whether the run goes on (R35). -/
  outcome : RunOutcome
  /-- The model's own counter of the free choices taken so far (assumption 8). -/
  draws : Nat
  deriving DecidableEq, Repr

/-- The state of the machine: the width of the run (R6) and the hart of that width. -/
structure State where
  xlen : XLen
  hart : Hart xlen.width
  deriving DecidableEq, Repr

/-- What the environment fixes before a run (R343): the parameters, the launch image, `RESET_PC`, the registers x1 to x31
(each some definite value, R342), its handler, and where the model's counter of free choices starts. -/
structure Launch (w : Nat) where
  platform : Platform
  handler : List (EnvRow w)
  image : List Host.Cell
  resetPc : BitVec w
  regs : Vector (BitVec w) 31
  draws : Nat
  deriving DecidableEq, Repr

/-- The start of a run (R37, R342): no reservation, nothing written, running. Where the spec leaves a value to the launch
the model names one in `Config` (assumptions 1 to 5), each register x1 to x31 holds 0 (assumption 2), the launch image is
empty, the handler is the default, `stop` (R310), and the counter of free choices is 0. -/
def State.reset : State where
  xlen := Config.resetXlen
  hart :=
    { platform := Config.resetPlatform
      handler := []
      regs := Vector.replicate 31 0
      pc := BitVec.ofNat _ Config.resetPc
      reservation := none
      mem := { cells := [] }
      written := []
      outcome := .running
      draws := 0 }

end Sys2Proof.Machine
end

