-- ==== Sys2Proof/Machine/Ops.lean ====
section
/-! DEFINITION. The named operations over the state, which every meaning is written in: registers, `pc`, raising a condition and
the environment's return from `ecall`/`ebreak`, memory, the access checks, fetch, and the reservation. -/

namespace Sys2Proof.Machine

variable {w : Nat}

/-! ## Registers and pc -/

/-- `x[r]`: register 0 reads as zero (R21). -/
def Hart.reg (h : Hart w) (r : RegNum) : BitVec w :=
  if r = 0 then 0 else h.regs[r.toNat - 1]'(by have := r.isLt; omega)

/-- `x[r] <- v`: no effect when r is 0 (R21). -/
def Hart.setReg (h : Hart w) (r : RegNum) (v : BitVec w) : Hart w :=
  if r = 0 then h else { h with regs := h.regs.set (r.toNat - 1) v (by have := r.isLt; omega) }

/-- `pc <- t` (R13). -/
def Hart.setPc (h : Hart w) (t : BitVec w) : Hart w := { h with pc := t }

/-- The address of the next instruction in memory, modulo `2^XLEN` (R27, R28). -/
def Hart.nextPc (h : Hart w) : BitVec w := h.pc + 4

/-- The end of every instruction that does not assign `pc` (R27). -/
def Hart.advance (h : Hart w) : Hart w := h.setPc h.nextPc

/-- `x[rd] <- v`, then on to the next instruction: the end of every instruction that only writes a register (R130). -/
def Hart.writeNext (h : Hart w) (rd : RegNum) (v : BitVec w) : Hart w := (h.setReg rd v).advance

/-! ## Raising a condition -/

/-- `raise f`: `outcome` becomes the condition and nothing else changes (R300, R306). The hart takes no further step: `step`
answers the host's fault from then on. There is no trap entry (R306). -/
def Hart.raise (h : Hart w) (f : Fault) : Hart w := { h with outcome := .raised f }

/-! ## Memory (R33, R50 to R59) -/

/-- Look an address up in a list of cells; an unlisted address reads as `Config.unsetByte`. -/
def cellsRead : List Host.Cell → Nat → Byte
  | [], _ => Config.unsetByte
  | c :: cs, a => if c.1 = a then c.2 else cellsRead cs a

/-- Put a cell before the cells that follow it, unless its byte is what an unlisted address reads as. -/
def cellsCons (a : Nat) (b : Byte) (cs : List Host.Cell) : List Host.Cell :=
  if b = Config.unsetByte then cs else (a, b) :: cs

/-- Write one byte into a list of cells kept by rising address. -/
def cellsWrite : List Host.Cell → Nat → Byte → List Host.Cell
  | [], a, b => cellsCons a b []
  | c :: cs, a, b =>
    if a < c.1 then cellsCons a b (c :: cs)
    else if a = c.1 then cellsCons a b cs
    else c :: cellsWrite cs a b

/-- The byte at an address. -/
def Memory.read (m : Memory) (a : Nat) : Byte := cellsRead m.cells a

/-- The memory with one byte written. -/
def Memory.write (m : Memory) (a : Nat) (b : Byte) : Memory := { cells := cellsWrite m.cells a b }

/-- The memory with a list of bytes written, in order. -/
def Memory.writeAll (m : Memory) : List Host.Cell → Memory
  | [] => m
  | c :: cs => (m.write c.1 c.2).writeAll cs

/-- The canonical form: addresses strictly rising, no entry equal to what an unlisted address reads as. -/
abbrev Memory.wf (m : Memory) : Prop :=
  m.cells.Pairwise (fun c d => c.1 < d.1) ∧ ∀ c ∈ m.cells, c.2 ≠ Config.unsetByte

/-- Add an address to a strictly rising list of addresses. -/
def addrInsert : List Nat → Nat → List Nat
  | [], a => [a]
  | b :: bs, a => if a < b then a :: b :: bs else if a = b then b :: bs else b :: addrInsert bs a

/-- Add several addresses to a strictly rising list of addresses. -/
def addrInsertAll (l : List Nat) : List Nat → List Nat
  | [] => l
  | a :: as => addrInsertAll (addrInsert l a) as

/-- The `n` byte addresses of an access at `a`, in ascending order, modulo `2^XLEN` (R55). -/
def span (a : BitVec w) (n : Nat) : List Nat := (List.range n).map fun k => (a + BitVec.ofNat w k).toNat

/-- The unsigned value of bytes, the first one least significant (R50). -/
def leNat : List Byte → Nat
  | [] => 0
  | b :: bs => b.toNat + 256 * leNat bs

/-- The cells of an `8n`-bit value stored at `a`: byte `k` holds bits `8k+7` to `8k` (R50). -/
def cellsOf (a : BitVec w) (n : Nat) (v : BitVec (8 * n)) : List Host.Cell :=
  (List.range n).map fun k => ((a + BitVec.ofNat w k).toNat, v.extractLsb' (8 * k) 8)

/-- The `8n`-bit value of the bytes at `a .. a+n-1`, little-endian, with no check (R50, R55). -/
def Hart.readValue (h : Hart w) (a : BitVec w) (n : Nat) : BitVec (8 * n) :=
  BitVec.ofNat (8 * n) (leNat ((span a n).map h.mem.read))

/-- The bytes of `v` written at `a .. a+n-1` and added to `written`, with no check (R50, R56). -/
def Hart.writeValue (h : Hart w) (a : BitVec w) (n : Nat) (v : BitVec (8 * n)) : Hart w :=
  { h with mem := h.mem.writeAll (cellsOf a n v), written := addrInsertAll h.written (span a n) }

/-! ## The memory map and the checks of an access (R53, R55, R56, R60, R62) -/

/-- Whether a region holds an address. -/
def Region.covers (r : Region) (a : Nat) : Bool := decide (r.base ≤ a) && decide (a < r.base + r.size)

/-- `Backed(a)`: whether a byte of memory exists at `a` (R62). -/
def Platform.backed (p : Platform) (a : Nat) : Bool := p.map.any fun r => r.covers a

/-- `Perm(a)`: the permissions of the first region that holds `a` (R62). -/
def Platform.perm (p : Platform) (a : Nat) : Perm :=
  match p.map.find? fun r => r.covers a with
  | some r => r.perm
  | none => { read := false, write := false, exec := false }

/-- The cells of a list whose bytes exist, in an address space of `2^w` bytes (R33, R62). -/
def Platform.existingCells (p : Platform) (w : Nat) (bytes : List Host.Cell) : List Host.Cell :=
  bytes.filter fun c => decide (c.1 < 2 ^ w) && p.backed c.1

/-- Whether a permission set holds what a kind of access needs: a load R, a store W, a fetch X (R62). -/
def Perm.grants (p : Perm) : Access → Bool
  | .read => p.read
  | .write => p.write
  | .fetch => p.exec

/-- Whether one byte may be accessed: it is backed and its permissions grant the access (R62). -/
def Platform.allows (p : Platform) (k : Access) (a : Nat) : Bool := p.backed a && (p.perm a).grants k

/-- Whether every byte of an access may be accessed (R55, R56). -/
def Hart.allowsAll (h : Hart w) (k : Access) (a : BitVec w) (n : Nat) : Bool := (span a n).all (h.platform.allows k)

/-- Whether an address is a multiple of the access size (R53). -/
def aligned (a : BitVec w) (n : Nat) : Bool := decide (a.toNat % n = 0)

/-- Whether the alignment check lets an access through: natural alignment, or an ordinary access under
`MISALIGNED_DATA = split`. `strict` is for `lr` and `sc`, which always need natural alignment (R53, R217). -/
def Hart.alignmentOk (h : Hart w) (strict : Bool) (a : BitVec w) (n : Nat) : Bool :=
  aligned a n || (!strict && decide (h.platform.misaligned = .split))

/-- What a load of `n` bytes at `a` raises, if anything: alignment first, then `Backed` and R of every byte (R55, R60). -/
def Hart.loadFault (h : Hart w) (strict : Bool) (a : BitVec w) (n : Nat) : Option Fault :=
  if h.alignmentOk strict a n = false then some (.loadAddressMisaligned a.toNat)
  else if h.allowsAll .read a n = false then some (.loadAccessFault a.toNat)
  else none

/-- What a store of `n` bytes at `a` raises, if anything: alignment first, then `Backed` and W of every byte (R56, R60). -/
def Hart.storeFault (h : Hart w) (strict : Bool) (a : BitVec w) (n : Nat) : Option Fault :=
  if h.alignmentOk strict a n = false then some (.storeAddressMisaligned a.toNat)
  else if h.allowsAll .write a n = false then some (.storeAccessFault a.toNat)
  else none

/-! ## Loads, stores, fetch -/

/-- The effective address of a load, a store or `jalr`, modulo `2^XLEN` (R61, R160). -/
def Hart.effAddr (h : Hart w) (rs1 : RegNum) (imm : BitVec 12) : BitVec w := h.reg rs1 + imm12 imm

/-- The common sequence of a load (R161): check, read, widen with `ext`, write `x[rd]`, go on. -/
def Hart.load (h : Hart w) (rd : RegNum) (a : BitVec w) (n : Nat) (ext : BitVec (8 * n) → BitVec w) : Hart w :=
  match h.loadFault false a n with
  | some f => h.raise f
  | none => h.writeNext rd (ext (h.readValue a n))

/-- The common sequence of a store (R161): check, write the low `8n` bits of a register, go on. -/
def Hart.store (h : Hart w) (a : BitVec w) (n : Nat) (v : BitVec w) : Hart w :=
  match h.storeFault false a n with
  | some f => h.raise f
  | none => (h.writeValue a n (v.setWidth (8 * n))).advance

/-- Fetch at `pc` (R70): the four checks in their order, then the little-endian word. -/
def Hart.fetch (h : Hart w) : Except Fault InstWord :=
  if aligned h.pc 4 = false then .error (.instructionAddressMisaligned h.pc.toNat)
  else if h.allowsAll .fetch h.pc 4 = false then .error (.instructionAccessFault h.pc.toNat)
  else if (span h.pc 4).any (fun a => decide (a ∈ h.written)) then .error (.fetchAfterStore h.pc.toNat)
  else .ok (h.readValue h.pc 4)

/-! ## Control transfers -/

/-- `pc <- t`, or the misaligned-target condition, which leaves `pc` at the instruction (R181, R303). -/
def Hart.jumpTo (h : Hart w) (t : BitVec w) : Hart w :=
  if aligned t 4 then h.setPc t else h.raise (.instructionAddressMisaligned t.toNat)

/-- A branch (R180): to `pc + imm_B` when it is taken, else on to the next instruction. -/
def Hart.branch (h : Hart w) (taken : Bool) (offset : BitVec 13) : Hart w :=
  if taken then h.jumpTo (h.pc + immB offset) else h.advance

/-- A jump that links (R188, R189): the target is checked first; then `x[rd] <- pc + 4` and `pc <- t`. -/
def Hart.jumpLink (h : Hart w) (rd : RegNum) (t : BitVec w) : Hart w :=
  if aligned t 4 then (h.setReg rd h.nextPc).setPc t else h.raise (.instructionAddressMisaligned t.toNat)

/-! ## The environment: ecall and ebreak (R310) -/

/-- All that the environment is given of the state (R310). -/
def Hart.view (h : Hart w) : EnvView w := { regs := h.regs, pc := h.pc, mem := h.mem, reservation := h.reservation }

/-- The function a table of rows stands for: the first row for the kind and the state answers; with none, `stop` (R310). -/
def handlerAnswer : List (EnvRow w) → EnvKind → EnvView w → EnvAnswer w
  | [], _, _ => .stop
  | r :: rs, k, v => if r.kind = k ∧ r.seen = v then r.answer else handlerAnswer rs k v

/-- `EnvHandler(kind, state)` (R310). -/
def Hart.answer (h : Hart w) (k : EnvKind) : EnvAnswer w := handlerAnswer h.handler k h.view

/-- The condition that a transfer raises, with `pc` as payload (R310). -/
def EnvKind.condition (pc : Nat) : EnvKind → Fault
  | .call => .environmentCall pc
  | .breakpoint => .breakpoint pc

/-- The hart resumed with an answer of the environment (R310): the registers (x0 stays 0) and `pc` are the answer's; the
listed bytes of memory that exist are written (assumption 15), and those that differ from before join `written`; the
reservation is kept or dropped. -/
def Hart.resume (h : Hart w) (regs : Vector (BitVec w) 31) (pc : BitVec w) (bytes : List Host.Cell)
    (keepReservation : Bool) : Hart w :=
  let cells := h.platform.existingCells w bytes
  let mem := h.mem.writeAll cells
  { h with
    regs := regs
    pc := pc
    mem := mem
    written := addrInsertAll h.written ((cells.map Prod.fst).filter fun a => decide (mem.read a ≠ h.mem.read a))
    reservation := if keepReservation then h.reservation else none }

/-- Hand control to the environment (R310): it resumes the hart, or the run ends with the condition. -/
def Hart.transfer (h : Hart w) (k : EnvKind) : Hart w :=
  match h.answer k with
  | .resume regs pc bytes keep => h.resume regs pc bytes keep
  | .stop => h.raise (k.condition h.pc.toNat)

/-! ## Load-reserved and store-conditional (R215 to R221) -/

/-- Set or clear the reservation (R32). -/
def Hart.setReservation (h : Hart w) (r : Option (Reservation w)) : Hart w := { h with reservation := r }

/-- `lr` (R218, R219): a checked read, the reservation set, the value widened with `ext` into `x[rd]`. -/
def Hart.loadReserved (h : Hart w) (rd : RegNum) (a : BitVec w) (sz : ReservedSize)
    (ext : BitVec (8 * sz.bytes) → BitVec w) : Hart w :=
  match h.loadFault true a sz.bytes with
  | some f => h.raise f
  | none => (h.setReservation (some { addr := a, size := sz })).writeNext rd (ext (h.readValue a sz.bytes))

/-- Whether an `sc` of `sz` at `a` succeeds (R220). No reservation: it fails. A matching one: it succeeds, unless
`SC_SPURIOUS_FAIL` is set and the free choice fails it. Another address or width: the free choice decides. -/
def Hart.scSucceeds (h : Hart w) (a : BitVec w) (sz : ReservedSize) : Bool :=
  match h.reservation with
  | none => false
  | some r =>
    if r = { addr := a, size := sz } then !(h.platform.scMayFail && Config.scSpuriousFail h.draws)
    else Config.scOtherSucceeds h.draws

/-- Whether that `sc` takes a free choice (R220, assumption 8). -/
def Hart.scDraws (h : Hart w) (a : BitVec w) (sz : ReservedSize) : Bool :=
  match h.reservation with
  | none => false
  | some r => decide (r ≠ { addr := a, size := sz }) || h.platform.scMayFail

/-- Count a free choice that has been taken (assumption 8). -/
def Hart.countDraw (h : Hart w) (taken : Bool) : Hart w := if taken then { h with draws := h.draws + 1 } else h

/-- `sc` (R220, R221): the checks; then store and write 0, or write 1; the reservation is cleared either way. -/
def Hart.storeConditional (h : Hart w) (rd : RegNum) (a : BitVec w) (sz : ReservedSize) (v : BitVec w) : Hart w :=
  match h.storeFault true a sz.bytes with
  | some f => h.raise f
  | none =>
    let done := (h.countDraw (h.scDraws a sz)).setReservation none
    if h.scSucceeds a sz then (done.writeValue a sz.bytes (v.setWidth (8 * sz.bytes))).writeNext rd 0
    else done.writeNext rd 1

/-! ## From a hart to the state -/

/-- The step of an instruction that exists at both widths. -/
def State.onHart (s : State) (f : Hart s.xlen.width → Hart s.xlen.width) : Host.Outcome State Fault Refusal :=
  .next { xlen := s.xlen, hart := f s.hart }

/-- The step of an instruction of `XLEN = 64` only: with `XLEN = 32` its word is illegal (R111, R235). -/
def State.onHart64 (s : State) (i : Instr) (f : Hart 64 → Hart 64) : Host.Outcome State Fault Refusal :=
  match s with
  | ⟨.rv64, h⟩ => .next ⟨.rv64, f h⟩
  | ⟨.rv32, h⟩ => .next ⟨.rv32, h.raise (.illegalInstruction (encode i))⟩

/-- The end of a shift-immediate of the 6-bit rows (R103, R242): the result to `x[rd]` and on, when the amount is below
`XLEN`. With `XLEN = 32` an amount of 32 or more has `inst[25] = 1`, and its word is illegal (R111, R147). -/
def Hart.shiftNext (h : Hart w) (i : Instr) (rd : RegNum) (amount : Nat) (v : BitVec w) : Hart w :=
  if amount < w then h.writeNext rd v else h.raise (.illegalInstruction (encode i))

/-! ## Launch (R343) -/

/-- The hart at the start of a run (R37, R342, R343). The image lies within `Backed`: a cell that does not is no part of it
(assumption 30). -/
def Launch.start (l : Launch w) : Hart w where
  platform := l.platform
  handler := l.handler
  regs := l.regs
  pc := l.resetPc
  reservation := none
  mem := (Memory.mk []).writeAll (l.platform.existingCells w l.image)
  written := []
  outcome := .running
  draws := l.draws

end Sys2Proof.Machine
end

