-- ==== Sys2Proof/Machine/Arithmetic.lean ====
section
/-! DEFINITION. RV32I arithmetic (R130 to R149): one result to `x[rd]`, nothing raised, on to the next instruction. -/

namespace Sys2Proof.Machine

/-- `add rd, rs1, rs2` (R131): the sum modulo `2^XLEN`. -/
def execAdd (rd rs1 rs2 : RegNum) (s : State) : Host.Outcome State Fault Refusal :=
  s.onHart fun h => h.writeNext rd (h.reg rs1 + h.reg rs2)

/-- `sub rd, rs1, rs2` (R132): the difference modulo `2^XLEN`. -/
def execSub (rd rs1 rs2 : RegNum) (s : State) : Host.Outcome State Fault Refusal :=
  s.onHart fun h => h.writeNext rd (h.reg rs1 - h.reg rs2)

/-- `and rd, rs1, rs2` (R133): bitwise AND. -/
def execAnd (rd rs1 rs2 : RegNum) (s : State) : Host.Outcome State Fault Refusal :=
  s.onHart fun h => h.writeNext rd (h.reg rs1 &&& h.reg rs2)

/-- `or rd, rs1, rs2` (R134): bitwise OR. -/
def execOr (rd rs1 rs2 : RegNum) (s : State) : Host.Outcome State Fault Refusal :=
  s.onHart fun h => h.writeNext rd (h.reg rs1 ||| h.reg rs2)

/-- `xor rd, rs1, rs2` (R135): bitwise XOR. -/
def execXor (rd rs1 rs2 : RegNum) (s : State) : Host.Outcome State Fault Refusal :=
  s.onHart fun h => h.writeNext rd (h.reg rs1 ^^^ h.reg rs2)

/-- `sll rd, rs1, rs2` (R136): shift left by the low 5 or 6 bits of `x[rs2]`. -/
def execSll (rd rs1 rs2 : RegNum) (s : State) : Host.Outcome State Fault Refusal :=
  s.onHart fun h => h.writeNext rd (shiftLeft (h.reg rs1) (h.reg rs2))

/-- `srl rd, rs1, rs2` (R137): shift right, zeros entering. -/
def execSrl (rd rs1 rs2 : RegNum) (s : State) : Host.Outcome State Fault Refusal :=
  s.onHart fun h => h.writeNext rd (shiftRightLogical (h.reg rs1) (h.reg rs2))

/-- `sra rd, rs1, rs2` (R138): shift right, copies of the top bit entering. -/
def execSra (rd rs1 rs2 : RegNum) (s : State) : Host.Outcome State Fault Refusal :=
  s.onHart fun h => h.writeNext rd (shiftRightArith (h.reg rs1) (h.reg rs2))

/-- `slt rd, rs1, rs2` (R139): 1 when `x[rs1]` is less, signed, else 0. -/
def execSlt (rd rs1 rs2 : RegNum) (s : State) : Host.Outcome State Fault Refusal :=
  s.onHart fun h => h.writeNext rd (bitValue (ltSigned (h.reg rs1) (h.reg rs2)))

/-- `sltu rd, rs1, rs2` (R140): 1 when `x[rs1]` is less, unsigned, else 0. -/
def execSltu (rd rs1 rs2 : RegNum) (s : State) : Host.Outcome State Fault Refusal :=
  s.onHart fun h => h.writeNext rd (bitValue (ltUnsigned (h.reg rs1) (h.reg rs2)))

/-- `addi rd, rs1, imm` (R141): the sum with the sign-extended immediate. -/
def execAddi (rd rs1 : RegNum) (imm : BitVec 12) (s : State) : Host.Outcome State Fault Refusal :=
  s.onHart fun h => h.writeNext rd (h.reg rs1 + imm12 imm)

/-- `andi rd, rs1, imm` (R142): AND with the sign-extended immediate. -/
def execAndi (rd rs1 : RegNum) (imm : BitVec 12) (s : State) : Host.Outcome State Fault Refusal :=
  s.onHart fun h => h.writeNext rd (h.reg rs1 &&& imm12 imm)

/-- `ori rd, rs1, imm` (R143): OR with the sign-extended immediate. -/
def execOri (rd rs1 : RegNum) (imm : BitVec 12) (s : State) : Host.Outcome State Fault Refusal :=
  s.onHart fun h => h.writeNext rd (h.reg rs1 ||| imm12 imm)

/-- `xori rd, rs1, imm` (R144): XOR with the sign-extended immediate. -/
def execXori (rd rs1 : RegNum) (imm : BitVec 12) (s : State) : Host.Outcome State Fault Refusal :=
  s.onHart fun h => h.writeNext rd (h.reg rs1 ^^^ imm12 imm)

/-- `slti rd, rs1, imm` (R145): 1 when `x[rs1]` is less than the immediate, signed, else 0. -/
def execSlti (rd rs1 : RegNum) (imm : BitVec 12) (s : State) : Host.Outcome State Fault Refusal :=
  s.onHart fun h => h.writeNext rd (bitValue (ltSigned (h.reg rs1) (imm12 imm)))

/-- `sltiu rd, rs1, imm` (R146): the immediate is sign-extended, then compared unsigned. -/
def execSltiu (rd rs1 : RegNum) (imm : BitVec 12) (s : State) : Host.Outcome State Fault Refusal :=
  s.onHart fun h => h.writeNext rd (bitValue (ltUnsigned (h.reg rs1) (imm12 imm)))

/-- `slli rd, rs1, imm` (R147): shift left by the 5-bit shift amount (assumption 12). -/
def execSlli (rd rs1 : RegNum) (shamt : BitVec 5) (s : State) : Host.Outcome State Fault Refusal :=
  s.onHart fun h => h.writeNext rd (h.reg rs1 <<< shamt.toNat)

/-- `srli rd, rs1, imm` (R148): shift right by the 5-bit shift amount, zeros entering. -/
def execSrli (rd rs1 : RegNum) (shamt : BitVec 5) (s : State) : Host.Outcome State Fault Refusal :=
  s.onHart fun h => h.writeNext rd (h.reg rs1 >>> shamt.toNat)

/-- `srai rd, rs1, imm` (R149): shift right by the 5-bit shift amount, copies of the top bit entering. -/
def execSrai (rd rs1 : RegNum) (shamt : BitVec 5) (s : State) : Host.Outcome State Fault Refusal :=
  s.onHart fun h => h.writeNext rd ((h.reg rs1).sshiftRight shamt.toNat)

end Sys2Proof.Machine
end

