-- ==== Sys2Proof/Machine/Atomic.lean ====
section
/-! DEFINITION. Load-reserved and store-conditional (R215 to R221). The address is `x[rs1]` with no offset; `aq` and `rl` change
nothing on one hart (R68, R216). -/

namespace Sys2Proof.Machine

/-- `lr.w rd, (rs1)` (R218): sign-extended like `lw`. -/
def execLrw (rd rs1 : RegNum) (_aq _rl : Bool) (s : State) : Host.Outcome State Fault Refusal :=
  s.onHart fun h => h.loadReserved rd (h.reg rs1) .word fun v => v.signExtend _

/-- `lr.d rd, (rs1)` (R219). -/
def execLrd (rd rs1 : RegNum) (aq rl : Bool) (s : State) : Host.Outcome State Fault Refusal :=
  s.onHart64 (.lrd rd rs1 aq rl) fun h => h.loadReserved rd (h.reg rs1) .double fun v => v.setWidth 64

/-- `sc.w rd, rs2, (rs1)` (R220): stores the low four bytes of `x[rs2]` or nothing. -/
def execScw (rd rs1 rs2 : RegNum) (_aq _rl : Bool) (s : State) : Host.Outcome State Fault Refusal :=
  s.onHart fun h => h.storeConditional rd (h.reg rs1) .word (h.reg rs2)

/-- `sc.d rd, rs2, (rs1)` (R221): stores `x[rs2]` or nothing. -/
def execScd (rd rs1 rs2 : RegNum) (aq rl : Bool) (s : State) : Host.Outcome State Fault Refusal :=
  s.onHart64 (.scd rd rs1 rs2 aq rl) fun h => h.storeConditional rd (h.reg rs1) .double (h.reg rs2)

end Sys2Proof.Machine
end

