-- ==== Sys2Proof/Machine/Control.lean ====
section
/-! DEFINITION. RV32I branches and jumps (R180 to R189). A target that is not a multiple of 4 raises on the branch or jump itself
(R181). -/

namespace Sys2Proof.Machine

/-- `beq rs1, rs2, label` (R182). -/
def execBeq (rs1 rs2 : RegNum) (offset : BitVec 13) (s : State) : Host.Outcome State Fault Refusal :=
  s.onHart fun h => h.branch (eqBits (h.reg rs1) (h.reg rs2)) offset

/-- `bne rs1, rs2, label` (R183). -/
def execBne (rs1 rs2 : RegNum) (offset : BitVec 13) (s : State) : Host.Outcome State Fault Refusal :=
  s.onHart fun h => h.branch (!eqBits (h.reg rs1) (h.reg rs2)) offset

/-- `blt rs1, rs2, label` (R184). -/
def execBlt (rs1 rs2 : RegNum) (offset : BitVec 13) (s : State) : Host.Outcome State Fault Refusal :=
  s.onHart fun h => h.branch (ltSigned (h.reg rs1) (h.reg rs2)) offset

/-- `bltu rs1, rs2, label` (R185). -/
def execBltu (rs1 rs2 : RegNum) (offset : BitVec 13) (s : State) : Host.Outcome State Fault Refusal :=
  s.onHart fun h => h.branch (ltUnsigned (h.reg rs1) (h.reg rs2)) offset

/-- `bge rs1, rs2, label` (R186). -/
def execBge (rs1 rs2 : RegNum) (offset : BitVec 13) (s : State) : Host.Outcome State Fault Refusal :=
  s.onHart fun h => h.branch (!ltSigned (h.reg rs1) (h.reg rs2)) offset

/-- `bgeu rs1, rs2, label` (R187). -/
def execBgeu (rs1 rs2 : RegNum) (offset : BitVec 13) (s : State) : Host.Outcome State Fault Refusal :=
  s.onHart fun h => h.branch (!ltUnsigned (h.reg rs1) (h.reg rs2)) offset

/-- `jal rd, label` (R188): to `pc + imm_J`; `x[rd]` gets `pc + 4`. -/
def execJal (rd : RegNum) (offset : BitVec 21) (s : State) : Host.Outcome State Fault Refusal :=
  s.onHart fun h => h.jumpLink rd (h.pc + immJ offset)

/-- `jalr rd, imm(rs1)` (R189): to `x[rs1] + imm_I` with bit 0 cleared, from the old `x[rs1]`; `x[rd]` gets `pc + 4`. -/
def execJalr (rd rs1 : RegNum) (imm : BitVec 12) (s : State) : Host.Outcome State Fault Refusal :=
  s.onHart fun h => h.jumpLink rd (h.effAddr rs1 imm &&& ~~~1)

end Sys2Proof.Machine
end

