-- ==== Sys2Proof/Machine/LoadStore.lean ====
section
/-! DEFINITION. RV32I loads and stores (R160 to R169). The effective address is `x[rs1] + imm`; the checks are those of `MemRead` and
`MemWrite` (R55, R56). -/

namespace Sys2Proof.Machine

/-- `lb rd, imm(rs1)` (R162): one byte, sign-extended. -/
def execLb (rd rs1 : RegNum) (imm : BitVec 12) (s : State) : Host.Outcome State Fault Refusal :=
  s.onHart fun h => h.load rd (h.effAddr rs1 imm) 1 fun v => v.signExtend _

/-- `lbu rd, imm(rs1)` (R163): one byte, zero-extended. -/
def execLbu (rd rs1 : RegNum) (imm : BitVec 12) (s : State) : Host.Outcome State Fault Refusal :=
  s.onHart fun h => h.load rd (h.effAddr rs1 imm) 1 fun v => v.setWidth _

/-- `lh rd, imm(rs1)` (R164): two bytes, sign-extended. -/
def execLh (rd rs1 : RegNum) (imm : BitVec 12) (s : State) : Host.Outcome State Fault Refusal :=
  s.onHart fun h => h.load rd (h.effAddr rs1 imm) 2 fun v => v.signExtend _

/-- `lhu rd, imm(rs1)` (R165): two bytes, zero-extended. -/
def execLhu (rd rs1 : RegNum) (imm : BitVec 12) (s : State) : Host.Outcome State Fault Refusal :=
  s.onHart fun h => h.load rd (h.effAddr rs1 imm) 2 fun v => v.setWidth _

/-- `lw rd, imm(rs1)` (R166): four bytes, sign-extended (the whole register when `XLEN = 32`). -/
def execLw (rd rs1 : RegNum) (imm : BitVec 12) (s : State) : Host.Outcome State Fault Refusal :=
  s.onHart fun h => h.load rd (h.effAddr rs1 imm) 4 fun v => v.signExtend _

/-- `sb rs2, imm(rs1)` (R167): the low byte of `x[rs2]`. -/
def execSb (rs1 rs2 : RegNum) (imm : BitVec 12) (s : State) : Host.Outcome State Fault Refusal :=
  s.onHart fun h => h.store (h.effAddr rs1 imm) 1 (h.reg rs2)

/-- `sh rs2, imm(rs1)` (R168): the low two bytes of `x[rs2]`. -/
def execSh (rs1 rs2 : RegNum) (imm : BitVec 12) (s : State) : Host.Outcome State Fault Refusal :=
  s.onHart fun h => h.store (h.effAddr rs1 imm) 2 (h.reg rs2)

/-- `sw rs2, imm(rs1)` (R169): the low four bytes of `x[rs2]`. -/
def execSw (rs1 rs2 : RegNum) (imm : BitVec 12) (s : State) : Host.Outcome State Fault Refusal :=
  s.onHart fun h => h.store (h.effAddr rs1 imm) 4 (h.reg rs2)

end Sys2Proof.Machine
end

