-- ==== Sys2Proof/Machine/MulDiv.lean ====
section
/-! DEFINITION. Multiplication and division (R260 to R274). None of them raises; the corner cases are the values of R261. -/

namespace Sys2Proof.Machine

/-- `mul rd, rs1, rs2` (R262): the low half of the product. -/
def execMul (rd rs1 rs2 : RegNum) (s : State) : Host.Outcome State Fault Refusal :=
  s.onHart fun h => h.writeNext rd (h.reg rs1 * h.reg rs2)

/-- `mulh rd, rs1, rs2` (R263): the high half, signed by signed. -/
def execMulh (rd rs1 rs2 : RegNum) (s : State) : Host.Outcome State Fault Refusal :=
  s.onHart fun h => h.writeNext rd (mulHigh (h.reg rs1) (h.reg rs2))

/-- `mulhu rd, rs1, rs2` (R264): the high half, unsigned by unsigned. -/
def execMulhu (rd rs1 rs2 : RegNum) (s : State) : Host.Outcome State Fault Refusal :=
  s.onHart fun h => h.writeNext rd (mulHighUnsigned (h.reg rs1) (h.reg rs2))

/-- `mulhsu rd, rs1, rs2` (R265): the high half, signed `x[rs1]` by unsigned `x[rs2]`. -/
def execMulhsu (rd rs1 rs2 : RegNum) (s : State) : Host.Outcome State Fault Refusal :=
  s.onHart fun h => h.writeNext rd (mulHighSignedUnsigned (h.reg rs1) (h.reg rs2))

/-- `div rd, rs1, rs2` (R266): signed quotient, rounded toward zero. -/
def execDiv (rd rs1 rs2 : RegNum) (s : State) : Host.Outcome State Fault Refusal :=
  s.onHart fun h => h.writeNext rd (quotSigned (h.reg rs1) (h.reg rs2))

/-- `divu rd, rs1, rs2` (R267): unsigned quotient. -/
def execDivu (rd rs1 rs2 : RegNum) (s : State) : Host.Outcome State Fault Refusal :=
  s.onHart fun h => h.writeNext rd (quotUnsigned (h.reg rs1) (h.reg rs2))

/-- `rem rd, rs1, rs2` (R268): signed remainder, with the sign of the dividend. -/
def execRem (rd rs1 rs2 : RegNum) (s : State) : Host.Outcome State Fault Refusal :=
  s.onHart fun h => h.writeNext rd (remSigned (h.reg rs1) (h.reg rs2))

/-- `remu rd, rs1, rs2` (R269): unsigned remainder. -/
def execRemu (rd rs1 rs2 : RegNum) (s : State) : Host.Outcome State Fault Refusal :=
  s.onHart fun h => h.writeNext rd (remUnsigned (h.reg rs1) (h.reg rs2))

/-- `mulw rd, rs1, rs2` (R270): the low 32 bits of the product. -/
def execMulw (rd rs1 rs2 : RegNum) (s : State) : Host.Outcome State Fault Refusal :=
  s.onHart64 (.mulw rd rs1 rs2) fun h =>
    h.writeNext rd (wordResult (· * ·) (h.reg rs1) (h.reg rs2))

/-- `divw rd, rs1, rs2` (R271): signed quotient of the low words. -/
def execDivw (rd rs1 rs2 : RegNum) (s : State) : Host.Outcome State Fault Refusal :=
  s.onHart64 (.divw rd rs1 rs2) fun h =>
    h.writeNext rd (wordResult quotSigned (h.reg rs1) (h.reg rs2))

/-- `divuw rd, rs1, rs2` (R272): unsigned quotient of the low words. -/
def execDivuw (rd rs1 rs2 : RegNum) (s : State) : Host.Outcome State Fault Refusal :=
  s.onHart64 (.divuw rd rs1 rs2) fun h =>
    h.writeNext rd (wordResult quotUnsigned (h.reg rs1) (h.reg rs2))

/-- `remw rd, rs1, rs2` (R273): signed remainder of the low words. -/
def execRemw (rd rs1 rs2 : RegNum) (s : State) : Host.Outcome State Fault Refusal :=
  s.onHart64 (.remw rd rs1 rs2) fun h =>
    h.writeNext rd (wordResult remSigned (h.reg rs1) (h.reg rs2))

/-- `remuw rd, rs1, rs2` (R274): unsigned remainder of the low words. -/
def execRemuw (rd rs1 rs2 : RegNum) (s : State) : Host.Outcome State Fault Refusal :=
  s.onHart64 (.remuw rd rs1 rs2) fun h =>
    h.writeNext rd (wordResult remUnsigned (h.reg rs1) (h.reg rs2))

end Sys2Proof.Machine
end

