-- ==== Sys2Proof/Machine/Other.lean ====
section
/-! DEFINITION. RV32I upper immediates and environment transfer (R200 to R205). -/

namespace Sys2Proof.Machine

/-- `auipc rd, immu` (R201): `pc + imm_U`. -/
def execAuipc (rd : RegNum) (immu : BitVec 20) (s : State) : Host.Outcome State Fault Refusal :=
  s.onHart fun h => h.writeNext rd (h.pc + immU immu)

/-- `lui rd, immu` (R202): `imm_U`. -/
def execLui (rd : RegNum) (immu : BitVec 20) (s : State) : Host.Outcome State Fault Refusal :=
  s.onHart fun h => h.writeNext rd (immU immu)

/-- `ebreak` (R203): control goes to the environment with `Breakpoint(pc)`; `pc` does not move. -/
def execEbreak (s : State) : Host.Outcome State Fault Refusal :=
  s.onHart fun h => h.transfer .breakpoint

/-- `ecall` (R204): control goes to the environment with `EnvironmentCall(pc)`; `pc` does not move. -/
def execEcall (s : State) : Host.Outcome State Fault Refusal :=
  s.onHart fun h => h.transfer .call

end Sys2Proof.Machine
end

