-- ==== Sys2Proof/Machine/Rv64.lean ====
section
/-! DEFINITION. The RV64I additions (R235 to R251). The `*w` instructions compute at 32 bits and sign-extend (R236); with `XLEN = 32` the
words of this file are illegal (R111), but for the shift-immediates whose amount fits 5 bits (assumption 12). -/

namespace Sys2Proof.Machine

/-- `addw rd, rs1, rs2` (R237): the 32-bit sum. -/
def execAddw (rd rs1 rs2 : RegNum) (s : State) : Host.Outcome State Fault Refusal :=
  s.onHart64 (.addw rd rs1 rs2) fun h =>
    h.writeNext rd (wordResult (· + ·) (h.reg rs1) (h.reg rs2))

/-- `subw rd, rs1, rs2` (R238): the 32-bit difference. -/
def execSubw (rd rs1 rs2 : RegNum) (s : State) : Host.Outcome State Fault Refusal :=
  s.onHart64 (.subw rd rs1 rs2) fun h =>
    h.writeNext rd (wordResult (· - ·) (h.reg rs1) (h.reg rs2))

/-- `sllw rd, rs1, rs2` (R239): shift left by the low 5 bits of `x[rs2]`. -/
def execSllw (rd rs1 rs2 : RegNum) (s : State) : Host.Outcome State Fault Refusal :=
  s.onHart64 (.sllw rd rs1 rs2) fun h =>
    h.writeNext rd (wordResult shiftLeft (h.reg rs1) (h.reg rs2))

/-- `srlw rd, rs1, rs2` (R240): shift right, zeros entering at bit 31. -/
def execSrlw (rd rs1 rs2 : RegNum) (s : State) : Host.Outcome State Fault Refusal :=
  s.onHart64 (.srlw rd rs1 rs2) fun h =>
    h.writeNext rd (wordResult shiftRightLogical (h.reg rs1) (h.reg rs2))

/-- `sraw rd, rs1, rs2` (R241): shift right, copies of bit 31 entering. -/
def execSraw (rd rs1 rs2 : RegNum) (s : State) : Host.Outcome State Fault Refusal :=
  s.onHart64 (.sraw rd rs1 rs2) fun h =>
    h.writeNext rd (wordResult shiftRightArith (h.reg rs1) (h.reg rs2))

/-- `slli rd, rs1, imm` with `XLEN = 64` (R242): shift left by the 6-bit shift amount. -/
def execSlli64 (rd rs1 : RegNum) (shamt : BitVec 6) (s : State) : Host.Outcome State Fault Refusal :=
  s.onHart fun h => h.shiftNext (.slli64 rd rs1 shamt) rd shamt.toNat (h.reg rs1 <<< shamt.toNat)

/-- `srli rd, rs1, imm` with `XLEN = 64` (R243): shift right by the 6-bit shift amount, zeros entering. -/
def execSrli64 (rd rs1 : RegNum) (shamt : BitVec 6) (s : State) : Host.Outcome State Fault Refusal :=
  s.onHart fun h => h.shiftNext (.srli64 rd rs1 shamt) rd shamt.toNat (h.reg rs1 >>> shamt.toNat)

/-- `srai rd, rs1, imm` with `XLEN = 64` (R244): shift right by the 6-bit shift amount, copies of the top bit entering. -/
def execSrai64 (rd rs1 : RegNum) (shamt : BitVec 6) (s : State) : Host.Outcome State Fault Refusal :=
  s.onHart fun h => h.shiftNext (.srai64 rd rs1 shamt) rd shamt.toNat ((h.reg rs1).sshiftRight shamt.toNat)

/-- `addiw rd, rs1, imm` (R245): the low 32 bits of the sum, sign-extended. -/
def execAddiw (rd rs1 : RegNum) (imm : BitVec 12) (s : State) : Host.Outcome State Fault Refusal :=
  s.onHart64 (.addiw rd rs1 imm) fun h => h.writeNext rd (sextWord (lowWord (h.reg rs1 + imm12 imm)))

/-- `slliw rd, rs1, imm` (R246): shift the low word left. -/
def execSlliw (rd rs1 : RegNum) (shamt : BitVec 5) (s : State) : Host.Outcome State Fault Refusal :=
  s.onHart64 (.slliw rd rs1 shamt) fun h => h.writeNext rd (sextWord (lowWord (h.reg rs1) <<< shamt.toNat))

/-- `srliw rd, rs1, imm` (R247): shift the low word right, zeros entering at bit 31. -/
def execSrliw (rd rs1 : RegNum) (shamt : BitVec 5) (s : State) : Host.Outcome State Fault Refusal :=
  s.onHart64 (.srliw rd rs1 shamt) fun h => h.writeNext rd (sextWord (lowWord (h.reg rs1) >>> shamt.toNat))

/-- `sraiw rd, rs1, imm` (R248): shift the low word right, copies of bit 31 entering. -/
def execSraiw (rd rs1 : RegNum) (shamt : BitVec 5) (s : State) : Host.Outcome State Fault Refusal :=
  s.onHart64 (.sraiw rd rs1 shamt) fun h => h.writeNext rd (sextWord ((lowWord (h.reg rs1)).sshiftRight shamt.toNat))

/-- `lwu rd, imm(rs1)` (R249): four bytes, zero-extended. -/
def execLwu (rd rs1 : RegNum) (imm : BitVec 12) (s : State) : Host.Outcome State Fault Refusal :=
  s.onHart64 (.lwu rd rs1 imm) fun h => h.load rd (h.effAddr rs1 imm) 4 fun v => v.setWidth 64

/-- `ld rd, imm(rs1)` (R250): eight bytes. -/
def execLd (rd rs1 : RegNum) (imm : BitVec 12) (s : State) : Host.Outcome State Fault Refusal :=
  s.onHart64 (.ld rd rs1 imm) fun h => h.load rd (h.effAddr rs1 imm) 8 fun v => v.setWidth 64

/-- `sd rs2, imm(rs1)` (R251): all eight bytes of `x[rs2]`. -/
def execSd (rs1 rs2 : RegNum) (imm : BitVec 12) (s : State) : Host.Outcome State Fault Refusal :=
  s.onHart64 (.sd rs1 rs2 imm) fun h => h.store (h.effAddr rs1 imm) 8 (h.reg rs2)

end Sys2Proof.Machine
end

