-- ==== Sys2Proof/Machine/Step.lean ====
section
/-! DEFINITION. One step of the hart (R9), and the placing of an instruction where the next step fetches it. -/

namespace Sys2Proof.Machine

/-- One step (R9): fetch, decode, then the meaning of the instruction. A raise at fetch or decode is recorded in `outcome`
like any other (R306). Once the run has ended the hart takes no further step: the answer is the recorded condition. -/
def step (s : State) : Host.Outcome State Fault Refusal :=
  match s.hart.outcome with
  | .raised f => .fault f
  | .running =>
    match s.hart.fetch with
    | .error f => s.onHart fun h => h.raise f
    | .ok v =>
      match decode s.xlen v with
      | .error _ => s.onHart fun h => h.raise (.illegalInstruction v)
      | .ok i => exec i s

/-- The hart with a word placed at `pc` as the launch image would hold it (R343): its four bytes in memory, none of them in
`written`, and the map widened by those four bytes with R, W and X if they could not be fetched. -/
def Hart.placeWord {w : Nat} (h : Hart w) (v : InstWord) : Hart w :=
  { h with
    mem := h.mem.writeAll ((span h.pc 4).zip (bytesOfWord v))
    written := h.written.filter fun a => decide (a ∉ span h.pc 4)
    platform :=
      if h.allowsAll .fetch h.pc 4 then h.platform
      else
        { h.platform with
          map := { base := h.pc.toNat, size := 4, perm := { read := true, write := true, exec := true } } :: h.platform.map } }

/-- The state with the instruction of the low `nbits` bits of `w` placed where `step` fetches its next instruction. -/
def State.withFetchWord (s : State) (nbits w : Nat) : State :=
  { xlen := s.xlen, hart := s.hart.placeWord (BitVec.ofNat 32 (w % 2 ^ nbits)) }

end Sys2Proof.Machine
end

