-- ==== Sys2Proof/Safety.lean ====
section
/-! DEFINITION. What the statements speak of: the operands and accesses of an instruction, how a step completes or raises, what
it leaves alone, the invariant of the machine, and the fairness assumption on retry loops. -/

namespace Sys2Proof

/-! ## The operands of an instruction (R23) -/

/-- The register an instruction writes: its `rd` field, where its template has one. -/
def Instr.destination : Instr → Option RegNum
  | .add rd _ _ | .sub rd _ _ | .and rd _ _ | .or rd _ _ | .xor rd _ _ | .sll rd _ _ | .srl rd _ _ | .sra rd _ _ => some rd
  | .slt rd _ _ | .sltu rd _ _ | .addi rd _ _ | .andi rd _ _ | .ori rd _ _ | .xori rd _ _ | .slti rd _ _ => some rd
  | .sltiu rd _ _ | .slli rd _ _ | .srli rd _ _ | .srai rd _ _ | .lb rd _ _ | .lbu rd _ _ | .lh rd _ _ => some rd
  | .lhu rd _ _ | .lw rd _ _ | .jal rd _ | .jalr rd _ _ | .auipc rd _ | .lui rd _ | .lrw rd _ _ _ => some rd
  | .lrd rd _ _ _ | .scw rd _ _ _ _ | .scd rd _ _ _ _ | .addw rd _ _ | .subw rd _ _ | .sllw rd _ _ => some rd
  | .srlw rd _ _ | .sraw rd _ _ | .slli64 rd _ _ | .srli64 rd _ _ | .srai64 rd _ _ | .addiw rd _ _ => some rd
  | .slliw rd _ _ | .srliw rd _ _ | .sraiw rd _ _ | .lwu rd _ _ | .ld rd _ _ | .mul rd _ _ | .mulh rd _ _ => some rd
  | .mulhu rd _ _ | .mulhsu rd _ _ | .div rd _ _ | .divu rd _ _ | .rem rd _ _ | .remu rd _ _ | .mulw rd _ _ => some rd
  | .divw rd _ _ | .divuw rd _ _ | .remw rd _ _ | .remuw rd _ _ => some rd
  | .sb _ _ _ | .sh _ _ _ | .sw _ _ _ | .sd _ _ _ => none
  | .beq _ _ _ | .bne _ _ _ | .blt _ _ _ | .bltu _ _ _ | .bge _ _ _ | .bgeu _ _ _ => none
  | .ebreak | .ecall => none

/-- The registers an instruction reads: its `rs1` and `rs2` fields, where its template has them (not the fixed `rs2` field
of `lr`, R218). -/
def Instr.sources : Instr → List RegNum
  | .add _ a b | .sub _ a b | .and _ a b | .or _ a b | .xor _ a b | .sll _ a b | .srl _ a b | .sra _ a b => [a, b]
  | .slt _ a b | .sltu _ a b | .addw _ a b | .subw _ a b | .sllw _ a b | .srlw _ a b | .sraw _ a b => [a, b]
  | .mul _ a b | .mulh _ a b | .mulhu _ a b | .mulhsu _ a b | .div _ a b | .divu _ a b | .rem _ a b => [a, b]
  | .remu _ a b | .mulw _ a b | .divw _ a b | .divuw _ a b | .remw _ a b | .remuw _ a b => [a, b]
  | .sb a b _ | .sh a b _ | .sw a b _ | .sd a b _ => [a, b]
  | .beq a b _ | .bne a b _ | .blt a b _ | .bltu a b _ | .bge a b _ | .bgeu a b _ => [a, b]
  | .scw _ a b _ _ | .scd _ a b _ _ => [a, b]
  | .addi _ a _ | .andi _ a _ | .ori _ a _ | .xori _ a _ | .slti _ a _ | .sltiu _ a _ | .slli _ a _ | .srli _ a _ => [a]
  | .srai _ a _ | .lb _ a _ | .lbu _ a _ | .lh _ a _ | .lhu _ a _ | .lw _ a _ | .jalr _ a _ | .slli64 _ a _ => [a]
  | .srli64 _ a _ | .srai64 _ a _ | .addiw _ a _ | .slliw _ a _ | .srliw _ a _ | .sraiw _ a _ | .lwu _ a _ => [a]
  | .ld _ a _ | .lrw _ a _ _ | .lrd _ a _ _ => [a]
  | .jal _ _ | .auipc _ _ | .lui _ _ | .ebreak | .ecall => []

namespace Machine

variable {w : Nat}

/-- The instruction that hands control to the environment (R203, R204, R310). -/
def EnvKind.instr : EnvKind → Instr
  | .call => .ecall
  | .breakpoint => .ebreak

/-- A byte exists at the address `a` of an address space of `2^w` bytes (R33, R62). -/
def Platform.HasByte (p : Platform) (w a : Nat) : Prop := a < 2 ^ w ∧ p.backed a = true

/-- The address and size of the memory read an instruction makes (R57): loads and `lr`. -/
def loadAccess (h : Hart w) : Instr → Option (BitVec w × Nat)
  | .lb _ a imm | .lbu _ a imm => some (h.effAddr a imm, 1)
  | .lh _ a imm | .lhu _ a imm => some (h.effAddr a imm, 2)
  | .lw _ a imm | .lwu _ a imm => some (h.effAddr a imm, 4)
  | .ld _ a imm => some (h.effAddr a imm, 8)
  | .lrw _ a _ _ => some (h.reg a, 4)
  | .lrd _ a _ _ => some (h.reg a, 8)
  | _ => none

/-- The address and size of the memory write an instruction makes, or may make (R57): stores and `sc`. -/
def storeAccess (h : Hart w) : Instr → Option (BitVec w × Nat)
  | .sb a _ imm => some (h.effAddr a imm, 1)
  | .sh a _ imm => some (h.effAddr a imm, 2)
  | .sw a _ imm => some (h.effAddr a imm, 4)
  | .sd a _ imm => some (h.effAddr a imm, 8)
  | .scw _ a _ _ _ => some (h.reg a, 4)
  | .scd _ a _ _ _ => some (h.reg a, 8)
  | _ => none

/-- Whether an instruction is a load-reserved or store-conditional (R217). -/
def isReserving : Instr → Bool
  | .lrw _ _ _ _ | .lrd _ _ _ _ | .scw _ _ _ _ _ | .scd _ _ _ _ _ => true
  | _ => false

/-- Where a branch goes when it is taken, and where a jump goes: `none` for a branch that is not taken and for every other
instruction (R180 to R189). Conditions are on the signed and unsigned values of the registers. -/
def transferTarget (h : Hart w) : Instr → Option (BitVec w)
  | .beq a b o => if h.reg a = h.reg b then some (h.pc + BitVec.ofInt w o.toInt) else none
  | .bne a b o => if h.reg a ≠ h.reg b then some (h.pc + BitVec.ofInt w o.toInt) else none
  | .blt a b o => if (h.reg a).toInt < (h.reg b).toInt then some (h.pc + BitVec.ofInt w o.toInt) else none
  | .bltu a b o => if (h.reg a).toNat < (h.reg b).toNat then some (h.pc + BitVec.ofInt w o.toInt) else none
  | .bge a b o => if (h.reg b).toInt ≤ (h.reg a).toInt then some (h.pc + BitVec.ofInt w o.toInt) else none
  | .bgeu a b o => if (h.reg b).toNat ≤ (h.reg a).toNat then some (h.pc + BitVec.ofInt w o.toInt) else none
  | .jal _ o => some (h.pc + BitVec.ofInt w o.toInt)
  | .jalr _ a imm => some (BitVec.ofNat w ((h.effAddr a imm).toNat / 2 * 2))
  | _ => none

/-! ## Bytes of an access (R50, R55, R62) -/

/-- The address of byte `k` of an access at `a`, modulo `2^XLEN`. -/
def byteAddr (a : BitVec w) (k : Nat) : Nat := (a.toNat + k) % 2 ^ w

/-- The unsigned value of the `n` bytes at `a`, byte `k` weighing `2^(8k)`. -/
def bytesNat (h : Hart w) (a : BitVec w) : Nat → Nat
  | 0 => 0
  | n + 1 => bytesNat h a n + (h.mem.read (byteAddr a n)).toNat * 2 ^ (8 * n)

/-- The two's complement value of those bytes. -/
def bytesInt (h : Hart w) (a : BitVec w) (n : Nat) : Int :=
  if bytesNat h a n < 2 ^ (8 * n - 1) then bytesNat h a n else (bytesNat h a n : Int) - 2 ^ (8 * n)

/-- Every byte of an access is backed and has the permission the access needs (R62). -/
def Permitted (h : Hart w) (k : Access) (a : BitVec w) (n : Nat) : Prop :=
  ∀ j, j < n → h.platform.backed (byteAddr a j) = true ∧ (h.platform.perm (byteAddr a j)).grants k = true

/-- An ordinary access passes the alignment check: a multiple of its size, or `MISALIGNED_DATA = split` (R53). -/
def AlignedOrSplit (h : Hart w) (a : BitVec w) (n : Nat) : Prop := a.toNat % n = 0 ∨ h.platform.misaligned = .split

/-! ## What changes and what does not -/

/-- Every register is as before. -/
def SameRegs (h h' : Hart w) : Prop := ∀ r, h'.reg r = h.reg r

/-- Register `rd` holds `v`, or is x0 and stays zero; every other register is as before. -/
def RegBecomes (h h' : Hart w) (rd : RegNum) (v : BitVec w) : Prop :=
  ∀ r, h'.reg r = if r = rd ∧ r ≠ 0 then v else h.reg r

/-- Every byte of memory is as before, and so is the set of bytes stores have written. -/
def SameMemory (h h' : Hart w) : Prop := (∀ a, h'.mem.read a = h.mem.read a) ∧ ∀ a, a ∈ h'.written ↔ a ∈ h.written

/-- The low `8n` bits of `v` are in the `n` bytes at `a`, the low byte at `a`, and these bytes are in `written`; every
other byte and every other member of `written` is as before. -/
def BytesStored (h h' : Hart w) (a : BitVec w) (n : Nat) (v : BitVec w) : Prop :=
  (∀ k, k < n → h'.mem.read (byteAddr a k) = BitVec.ofNat 8 (v.toNat / 2 ^ (8 * k))) ∧
  (∀ b, (∀ k, k < n → b ≠ byteAddr a k) → h'.mem.read b = h.mem.read b) ∧
  ∀ b, b ∈ h'.written ↔ b ∈ h.written ∨ ∃ k, k < n ∧ b = byteAddr a k

/-- The parameters and the outcome are as before. -/
def SameRun (h h' : Hart w) : Prop :=
  h'.platform = h.platform ∧ h'.handler = h.handler ∧ h'.outcome = h.outcome

/-! ## How an instruction ends -/

/-- `i` raises `f`: the next state differs in `outcome` alone (R306). -/
def Raises (x : XLen) (h : Hart x.width) (i : Instr) (f : Fault) : Prop :=
  exec i ⟨x, h⟩ = .next ⟨x, { h with outcome := .raised f }⟩

/-- `i` completes: it writes `v` to `x[rd]`, goes on to the next instruction and changes nothing else. -/
def WritesReg (x : XLen) (h : Hart x.width) (i : Instr) (rd : RegNum) (v : BitVec x.width) : Prop :=
  ∃ h', exec i ⟨x, h⟩ = .next ⟨x, h'⟩ ∧ RegBecomes h h' rd v ∧ h'.pc = h.pc + 4 ∧ h'.reservation = h.reservation ∧
    SameMemory h h' ∧ SameRun h h' ∧ h'.draws = h.draws

/-- `i` completes: it goes to `t` and changes nothing else. -/
def GoesTo (x : XLen) (h : Hart x.width) (i : Instr) (t : BitVec x.width) : Prop :=
  ∃ h', exec i ⟨x, h⟩ = .next ⟨x, h'⟩ ∧ SameRegs h h' ∧ h'.pc = t ∧ h'.reservation = h.reservation ∧
    SameMemory h h' ∧ SameRun h h' ∧ h'.draws = h.draws

/-- `i` completes: it writes `v` to `x[rd]`, goes to `t` and changes nothing else. -/
def LinksAndGoesTo (x : XLen) (h : Hart x.width) (i : Instr) (rd : RegNum) (v t : BitVec x.width) : Prop :=
  ∃ h', exec i ⟨x, h⟩ = .next ⟨x, h'⟩ ∧ RegBecomes h h' rd v ∧ h'.pc = t ∧ h'.reservation = h.reservation ∧
    SameMemory h h' ∧ SameRun h h' ∧ h'.draws = h.draws

/-- `i` completes: it stores the low `8n` bits of `v` at `a`, goes on to the next instruction and changes nothing else. -/
def StoresBytes (x : XLen) (h : Hart x.width) (i : Instr) (a : BitVec x.width) (n : Nat) (v : BitVec x.width) : Prop :=
  ∃ h', exec i ⟨x, h⟩ = .next ⟨x, h'⟩ ∧ SameRegs h h' ∧ h'.pc = h.pc + 4 ∧ h'.reservation = h.reservation ∧
    BytesStored h h' a n v ∧ SameRun h h' ∧ h'.draws = h.draws

/-- `i` completes: it writes `v` to `x[rd]`, reserves the bytes at `a`, goes on and changes nothing else. -/
def Reserves (x : XLen) (h : Hart x.width) (i : Instr) (rd : RegNum) (a : BitVec x.width) (sz : ReservedSize)
    (v : BitVec x.width) : Prop :=
  ∃ h', exec i ⟨x, h⟩ = .next ⟨x, h'⟩ ∧ RegBecomes h h' rd v ∧ h'.pc = h.pc + 4 ∧
    h'.reservation = some { addr := a, size := sz } ∧ SameMemory h h' ∧ SameRun h h' ∧ h'.draws = h.draws

/-- A store-conditional succeeds (R220): the bytes are stored, `x[rd]` is 0, the reservation is gone. -/
def ScStores (x : XLen) (h : Hart x.width) (i : Instr) (rd : RegNum) (a : BitVec x.width) (n : Nat)
    (v : BitVec x.width) : Prop :=
  ∃ h', exec i ⟨x, h⟩ = .next ⟨x, h'⟩ ∧ RegBecomes h h' rd 0 ∧ h'.pc = h.pc + 4 ∧ h'.reservation = none ∧
    BytesStored h h' a n v ∧ SameRun h h'

/-- A store-conditional fails (R220): memory is as before, `x[rd]` is 1, the reservation is gone. -/
def ScFails (x : XLen) (h : Hart x.width) (i : Instr) (rd : RegNum) : Prop :=
  ∃ h', exec i ⟨x, h⟩ = .next ⟨x, h'⟩ ∧ RegBecomes h h' rd 1 ∧ h'.pc = h.pc + 4 ∧ h'.reservation = none ∧
    SameMemory h h' ∧ SameRun h h'

/-- The rule of a load (R161): what it does when every check passes, and what it raises when one fails. -/
def LoadBehaves (x : XLen) (h : Hart x.width) (i : Instr) (rd : RegNum) (a : BitVec x.width) (n : Nat)
    (v : BitVec x.width) : Prop :=
  (AlignedOrSplit h a n ∧ Permitted h .read a n → WritesReg x h i rd v) ∧
  (¬ AlignedOrSplit h a n → Raises x h i (.loadAddressMisaligned a.toNat)) ∧
  (AlignedOrSplit h a n ∧ ¬ Permitted h .read a n → Raises x h i (.loadAccessFault a.toNat))

/-- The rule of a store (R161): what it does when every check passes, and what it raises when one fails. -/
def StoreBehaves (x : XLen) (h : Hart x.width) (i : Instr) (a : BitVec x.width) (n : Nat) (v : BitVec x.width) : Prop :=
  (AlignedOrSplit h a n ∧ Permitted h .write a n → StoresBytes x h i a n v) ∧
  (¬ AlignedOrSplit h a n → Raises x h i (.storeAddressMisaligned a.toNat)) ∧
  (AlignedOrSplit h a n ∧ ¬ Permitted h .write a n → Raises x h i (.storeAccessFault a.toNat))

/-- The rule of a branch (R180, R181): to the target when the condition holds and the target is a multiple of 4. -/
def BranchBehaves (x : XLen) (h : Hart x.width) (i : Instr) (cond : Prop) (offset : BitVec 13) : Prop :=
  (cond ∧ (h.pc + BitVec.ofInt x.width offset.toInt).toNat % 4 = 0 →
    GoesTo x h i (h.pc + BitVec.ofInt x.width offset.toInt)) ∧
  (cond ∧ (h.pc + BitVec.ofInt x.width offset.toInt).toNat % 4 ≠ 0 →
    Raises x h i (.instructionAddressMisaligned (h.pc + BitVec.ofInt x.width offset.toInt).toNat)) ∧
  (¬ cond → GoesTo x h i (h.pc + 4))

/-- The rule of a jump (R188, R189): link and go when the target is a multiple of 4, else raise and link nothing. -/
def JumpBehaves (x : XLen) (h : Hart x.width) (i : Instr) (rd : RegNum) (t : BitVec x.width) : Prop :=
  (t.toNat % 4 = 0 → LinksAndGoesTo x h i rd (h.pc + 4) t) ∧
  (t.toNat % 4 ≠ 0 → Raises x h i (.instructionAddressMisaligned t.toNat))

/-- The rule of `lr` (R217, R218, R219): natural alignment always, then R on every byte. -/
def LrBehaves (x : XLen) (h : Hart x.width) (i : Instr) (rd : RegNum) (a : BitVec x.width) (sz : ReservedSize)
    (v : BitVec x.width) : Prop :=
  (a.toNat % sz.bytes = 0 ∧ Permitted h .read a sz.bytes → Reserves x h i rd a sz v) ∧
  (a.toNat % sz.bytes ≠ 0 → Raises x h i (.loadAddressMisaligned a.toNat)) ∧
  (a.toNat % sz.bytes = 0 ∧ ¬ Permitted h .read a sz.bytes → Raises x h i (.loadAccessFault a.toNat))

/-- The rule of `sc` (R217, R220, R221): the checks come first, whatever the reservation holds; then no reservation fails, a
matching one succeeds but for a spurious failure where the platform admits it, and another one may do either. -/
def ScBehaves (x : XLen) (h : Hart x.width) (i : Instr) (rd : RegNum) (a : BitVec x.width) (sz : ReservedSize)
    (v : BitVec x.width) : Prop :=
  (a.toNat % sz.bytes ≠ 0 → Raises x h i (.storeAddressMisaligned a.toNat)) ∧
  (a.toNat % sz.bytes = 0 ∧ ¬ Permitted h .write a sz.bytes → Raises x h i (.storeAccessFault a.toNat)) ∧
  (a.toNat % sz.bytes = 0 ∧ Permitted h .write a sz.bytes →
    (h.reservation = none → ScFails x h i rd) ∧
    (h.reservation = some { addr := a, size := sz } ∧ h.platform.scMayFail = false → ScStores x h i rd a sz.bytes v) ∧
    (ScStores x h i rd a sz.bytes v ∨ ScFails x h i rd))

/-! ## Decoding and running -/

/-- Every word that agrees with `pattern` under `mask` decodes, at width `x`, to `build` of it (R110). -/
def DecodesAs (x : XLen) (pattern mask : InstWord) (build : InstWord → Instr) : Prop :=
  ∀ v, v &&& mask = pattern → decode x v = .ok (build v)

/-- Every word that agrees with `pattern` under `mask` is illegal at width `x` (R112). -/
def IllegalAs (x : XLen) (pattern mask : InstWord) : Prop := ∀ v, v &&& mask = pattern → decode x v = .error (.illegal v)

/-- The next step executes `i`: the run goes on, the fetch passes its checks, and the word there decodes to `i` (R9). -/
def Executes (x : XLen) (h : Hart x.width) (i : Instr) : Prop :=
  h.outcome = .running ∧ ∃ v, h.fetch = .ok v ∧ decode x v = .ok i

/-- When each of the ten conditions may be raised, and with which payload: the table of R300. -/
def RaisedWhen (x : XLen) (h : Hart x.width) : Fault → Prop
  | .instructionAddressMisaligned t =>
      t % 4 ≠ 0 ∧ (t = h.pc.toNat ∨ ∃ i a, Executes x h i ∧ transferTarget h i = some a ∧ t = a.toNat)
  | .instructionAccessFault p => p = h.pc.toNat ∧ h.pc.toNat % 4 = 0 ∧ ¬ Permitted h .fetch h.pc 4
  | .fetchAfterStore p =>
      p = h.pc.toNat ∧ h.pc.toNat % 4 = 0 ∧ Permitted h .fetch h.pc 4 ∧ ∃ k, k < 4 ∧ byteAddr h.pc k ∈ h.written
  | .illegalInstruction v => h.fetch = .ok v ∧ ∀ r ∈ opcodeTable, r.selects x v = false
  | .loadAddressMisaligned p =>
      ∃ i a n, Executes x h i ∧ loadAccess h i = some (a, n) ∧ p = a.toNat ∧ a.toNat % n ≠ 0 ∧
        (h.platform.misaligned = .split → isReserving i = true)
  | .loadAccessFault p => ∃ i a n, Executes x h i ∧ loadAccess h i = some (a, n) ∧ p = a.toNat ∧ ¬ Permitted h .read a n
  | .storeAddressMisaligned p =>
      ∃ i a n, Executes x h i ∧ storeAccess h i = some (a, n) ∧ p = a.toNat ∧ a.toNat % n ≠ 0 ∧
        (h.platform.misaligned = .split → isReserving i = true)
  | .storeAccessFault p => ∃ i a n, Executes x h i ∧ storeAccess h i = some (a, n) ∧ p = a.toNat ∧ ¬ Permitted h .write a n
  | .environmentCall p => p = h.pc.toNat ∧ Executes x h .ecall
  | .breakpoint p => p = h.pc.toNat ∧ Executes x h .ebreak

/-! ## The invariant -/

/-- What holds of a hart in every run: memory is in canonical form and holds nothing outside the map; `written` is a rising list
of bytes that exist; `pc` is a multiple of 4 (R26), also where the handler resumes the hart; a reservation is
naturally aligned, lies in readable bytes, and is 8 bytes wide only when `XLEN = 64` (R32, R217). -/
structure Hart.Inv (h : Hart w) : Prop where
  memCanonical : h.mem.wf
  memExists : ∀ c ∈ h.mem.cells, c.1 < 2 ^ w ∧ h.platform.backed c.1 = true
  writtenRising : h.written.Pairwise (· < ·)
  writtenExists : ∀ a ∈ h.written, a < 2 ^ w ∧ h.platform.backed a = true
  pcAligned : h.pc.toNat % 4 = 0
  handlerAligned : ∀ row ∈ h.handler, ∀ regs pc bytes keep, row.answer = .resume regs pc bytes keep → pc.toNat % 4 = 0
  reservationAligned : ∀ r, h.reservation = some r → r.addr.toNat % r.size.bytes = 0
  reservationReadable : ∀ r, h.reservation = some r → Permitted h .read r.addr r.size.bytes
  reservationFits : ∀ r, h.reservation = some r → r.size = .double → w = 64

/-- The invariant of the machine. -/
def State.Inv (s : State) : Prop := s.hart.Inv

/-! ## Runs and the fairness assumption (R222) -/

/-- The first `n` steps from `s` can be taken, and each of them starts from a running state. -/
def StillRunning (s : State) (n : Nat) : Prop :=
  ∀ k, k < n → ∃ t : State, Host.Core.run Sys2Proof.core k s = .next t ∧ t.hart.outcome = .running

/-- An infinite run: every state steps to the next. -/
def InfiniteRun (run : Nat → State) : Prop := ∀ n, step (run n) = .next (run (n + 1))

/-- A backward jump or a taken backward branch (R222): the way from `pc` to the target, a signed number modulo `2^XLEN`, is
negative. For `jal` and the branches that is the sign of the offset, also where `pc` wraps (R28); an instruction that goes on
to `pc + 4` is neither. DESIGN CHOICE (assumption 31): the rule does not say what is backward across the end of the address
space, nor for `jalr`, which has no offset from `pc`; the shorter way round counts here, and a jump to itself is not backward. -/
def goesBackward (h : Hart w) (i : Instr) : Bool := (transferTarget h i).any fun t => decide ((t - h.pc).toInt < 0)

/-- Whether an instruction may be executed between the `lr` and the `sc` of a constrained loop (R222): a base-set instruction
that is no load, store or system instruction, and no backward jump or taken backward branch. -/
def allowedInLoop (i : Instr) (h : Hart w) : Bool :=
  !goesBackward h i && (loadAccess h i).isNone && (storeAccess h i).isNone && !isReserving i &&
    !decide (i = .ecall) && !decide (i = .ebreak) &&
    match i with
    | .mul _ _ _ | .mulh _ _ _ | .mulhu _ _ _ | .mulhsu _ _ _ | .div _ _ _ | .divu _ _ _ | .rem _ _ _ | .remu _ _ _ => false
    | .mulw _ _ _ | .divw _ _ _ | .divuw _ _ _ | .remw _ _ _ | .remuw _ _ _ => false
    | _ => true

/-- The `lr` and the `sc` of a width. -/
def lrOf (sz : ReservedSize) (rd rs1 : RegNum) (aq rl : Bool) : Instr :=
  match sz with
  | .word => .lrw rd rs1 aq rl
  | .double => .lrd rd rs1 aq rl

@[inherit_doc lrOf]
def scOf (sz : ReservedSize) (rd rs1 rs2 : RegNum) (aq rl : Bool) : Instr :=
  match sz with
  | .word => .scw rd rs1 rs2 aq rl
  | .double => .scd rd rs1 rs2 aq rl

/-- The `sc` of step `m` has the width and the address of the `lr` of step `n`, and its code is in the register that the
`bne` of step `m + 1` compares with x0, in either order, which goes back to `p` when the `sc` has failed (R222). The register
is not x0, whose `bne` would never go back. DEDUCED (assumption 29): in the rule's `lr; ...; sc; bne` the `bne` is the step
right after the `sc`, and it compares the code with x0. -/
def RetryPair (run : Nat → State) (p n m : Nat) : Prop :=
  ∃ sz rd a aq rl code b src aq' rl' o,
    Executes (run n).xlen (run n).hart (lrOf sz rd a aq rl) ∧
    Executes (run m).xlen (run m).hart (scOf sz code b src aq' rl') ∧
    ((run m).hart.reg b).toNat = ((run n).hart.reg a).toNat ∧
    code ≠ 0 ∧
    (Executes (run (m + 1)).xlen (run (m + 1)).hart (.bne code 0 o) ∨
      Executes (run (m + 1)).xlen (run (m + 1)).hart (.bne 0 code o)) ∧
    (((run (m + 1)).hart.reg code).toNat ≠ 0 → (run (m + 2)).hart.pc.toNat = p)

/-- One pass of a constrained retry loop that starts at `p` (R222): at `n` an `lr` at `p`; at `m`, at most 16 instructions with
both ends counted, its `sc`; between the two only allowed instructions, none of which goes backward (`goesBackward`; where
`pc` wraps: DESIGN CHOICE, assumption 31). DESIGN CHOICE (assumption 27): the rule does not say whether its 16 instructions
and its loads and stores are those that stand in memory or those that are executed; the executed ones of the pass count
here, so a pass that jumps forward over other words is constrained too. -/
def ConstrainedPass (run : Nat → State) (p n m : Nat) : Prop :=
  n < m ∧ m ≤ n + 15 ∧ (run n).hart.pc.toNat = p ∧ RetryPair run p n m ∧
  ∀ k, n < k → k < m → ∃ i, Executes (run k).xlen (run k).hart i ∧ allowedInLoop i (run k).hart = true

/-- FAIRNESS (R222), assumed by no step and by no definition: a claim about an infinite run may take it as a hypothesis. Where
passes of one constrained loop come again and again, not every `sc` of them is made to fail. DESIGN CHOICE (assumption 28): the
rule does not say whether a loop that is left and entered again is executed for ever; here it is, as long as its passes at `p`
come without end, and successes then come without end too. -/
def Fair (run : Nat → State) : Prop :=
  InfiniteRun run → ∀ p N, (∀ k, N ≤ k → ∃ n m, k ≤ n ∧ ConstrainedPass run p n m) →
    ∃ n m r, N ≤ n ∧ ConstrainedPass run p n m ∧ (run m).hart.reservation = some r ∧
      (run m).hart.scSucceeds r.addr r.size = true

end Machine

end Sys2Proof
end

