-- ==== Sys2Proof/Certificates/Slice0/Obligations.lean ====
section
/-! DEFINITION. The statements for the provers. A statement that cites a rule of the spec says the whole rule; the others rest on
the sections they cite. Results are given by exact arithmetic on the signed and unsigned values of the sources, not by
the operations that the meanings are written in. -/

section Statements

open Sys2Proof Sys2Proof.Machine

/-! ## Launch, steps and runs -/

/-- The start of a run (R37, R342, R343): the parameters, registers and `pc` are the launch's, nothing is reserved or written, the
run goes on, and memory holds the launch image where bytes exist. That a byte outside the image reads as `Config.unsetByte`
is the model's choice (assumption 4); an image that lists the byte gives it any value. That a cell of the image where no
byte exists is no part of it is the model's way to keep R343's "all within `Backed`" (assumption 30). -/
def Obligations.LaunchStart : Prop :=
  ∀ (x : XLen) (l : Launch x.width), (l.image.map Prod.fst).Nodup →
    l.start.platform = l.platform ∧ l.start.handler = l.handler ∧ l.start.regs = l.regs ∧ l.start.reg 0 = 0 ∧ l.start.pc = l.resetPc ∧
    l.start.reservation = none ∧ l.start.written = [] ∧ l.start.outcome = .running ∧ l.start.mem.wf ∧
    (∀ c ∈ l.image, l.platform.HasByte x.width c.1 → l.start.mem.read c.1 = c.2) ∧
    ∀ a, (∀ c ∈ l.image, a ≠ c.1) ∨ ¬ l.platform.HasByte x.width a → l.start.mem.read a = Config.unsetByte

/-- What `State.reset` holds (R37): no reservation, nothing written, running, x0 zero, `pc` a multiple of 4. It is the start of a
launch with an empty image; its width, `pc` and registers are the model's choices (assumptions 1, 2, 3). -/
def Obligations.ResetState : Prop :=
  State.reset.hart.reservation = none ∧ State.reset.hart.written = [] ∧ State.reset.hart.outcome = .running ∧
  State.reset.hart.reg 0 = 0 ∧ State.reset.hart.pc.toNat % 4 = 0 ∧ (∀ r, State.reset.hart.reg r = 0) ∧
  ∃ l : Launch XLen.rv64.width, l.image = [] ∧ State.reset = ⟨.rv64, l.start⟩

/-- The invariant holds at reset. -/
def Obligations.ResetMeetsInvariant : Prop := State.reset.Inv

/-- Every step keeps the invariant: canonical memory inside the map, a `pc` that is a multiple of 4 (R26), a reservation that
is aligned, readable and of a width the hart has (R32, R217). -/
def Obligations.StepKeepsInvariant : Prop := ∀ s s' : State, s.Inv → step s = .next s' → s'.Inv

/-- No step changes `XLEN`, the memory map, `EnvHandler` or the other parameters (R36). -/
def Obligations.StepKeepsParameters : Prop :=
  ∀ (x : XLen) (h : Hart x.width) (s' : State), step ⟨x, h⟩ = .next s' →
    ∃ h' : Hart x.width, s' = ⟨x, h'⟩ ∧ h'.platform = h.platform ∧ h'.handler = h.handler

/-- Faults are terminal (R306): a step that raises changes `outcome` alone and the hart takes no further step; and unless the step
executes `ecall` or `ebreak`, no handler can make it end in another way. That the hart "takes no further step" is the host's
`fault` is the model's choice (assumption 6), and so is the table that stands for the handler (assumption 7). -/
def Obligations.FaultsAreTerminal : Prop :=
  ∀ (x : XLen) (h h' : Hart x.width), h.outcome = .running → step ⟨x, h⟩ = .next ⟨x, h'⟩ →
    (∀ f, h'.outcome = .raised f → h' = { h with outcome := .raised f } ∧ step ⟨x, h'⟩ = .fault f) ∧
    (¬ Executes x h .ecall ∧ ¬ Executes x h .ebreak →
      ∀ t, step ⟨x, { h with handler := t }⟩ = .next ⟨x, { h' with handler := t }⟩)

/-- The outcomes of a step (R300): it completes, or it raises one of the ten conditions, where the table of R300 says it
may, and then writes nothing but `outcome`. -/
def Obligations.EveryStepCompletesOrRaises : Prop :=
  ∀ (x : XLen) (h : Hart x.width), h.outcome = .running →
    ∃ h', step ⟨x, h⟩ = .next ⟨x, h'⟩ ∧
      (h'.outcome = .running ∨ ∃ f, h' = { h with outcome := .raised f } ∧ RaisedWhen x h f)

/-- A step runs the decoded instruction (R9): when the checks of the fetch pass and the four bytes at `pc` decode to `i`, the
step is `exec i` on the same state, and nothing is added around it. -/
def Obligations.StepRunsDecodedInstruction : Prop :=
  ∀ (x : XLen) (h : Hart x.width) (i : Instr), h.outcome = .running → h.pc.toNat % 4 = 0 →
    Permitted h .fetch h.pc 4 → (∀ k, k < 4 → byteAddr h.pc k ∉ h.written) →
    decode x (wordOfBytes (h.mem.read (byteAddr h.pc 0)) (h.mem.read (byteAddr h.pc 1)) (h.mem.read (byteAddr h.pc 2))
      (h.mem.read (byteAddr h.pc 3))) = .ok i →
    step ⟨x, h⟩ = exec i ⟨x, h⟩

/-- The fetch (R70): its three checks in their order, each raising with `pc` as payload, then the little-endian word. -/
def Obligations.FetchChecks : Prop :=
  ∀ (x : XLen) (h : Hart x.width), h.outcome = .running →
    (h.pc.toNat % 4 ≠ 0 →
      step ⟨x, h⟩ = .next ⟨x, { h with outcome := .raised (.instructionAddressMisaligned h.pc.toNat) }⟩) ∧
    (h.pc.toNat % 4 = 0 ∧ ¬ Permitted h .fetch h.pc 4 →
      step ⟨x, h⟩ = .next ⟨x, { h with outcome := .raised (.instructionAccessFault h.pc.toNat) }⟩) ∧
    (h.pc.toNat % 4 = 0 ∧ Permitted h .fetch h.pc 4 ∧ (∃ k, k < 4 ∧ byteAddr h.pc k ∈ h.written) →
      step ⟨x, h⟩ = .next ⟨x, { h with outcome := .raised (.fetchAfterStore h.pc.toNat) }⟩) ∧
    (h.pc.toNat % 4 = 0 ∧ Permitted h .fetch h.pc 4 ∧ (∀ k, k < 4 → byteAddr h.pc k ∉ h.written) →
      h.fetch = .ok (wordOfBytes (h.mem.read (byteAddr h.pc 0)) (h.mem.read (byteAddr h.pc 1))
        (h.mem.read (byteAddr h.pc 2)) (h.mem.read (byteAddr h.pc 3))))

/-- A run ends at the first step that raises and only then (R311): from a running state every number of steps gives a next state
that is still running after all but the last of them, or there was a first step that raised, which recorded a condition,
and that condition is what the run answers. That it answers it as the host's `fault` is the model's choice (assumption 6). -/
def Obligations.RunEndsOnlyByRaise : Prop :=
  ∀ (n : Nat) (s : State), s.hart.outcome = .running →
    (∃ s' : State, Host.Core.run Sys2Proof.core n s = .next s' ∧ StillRunning s n) ∨
    ∃ (k : Nat) (f : Fault) (s' : State), k < n ∧ Host.Core.run Sys2Proof.core k s = .next s' ∧
      s'.hart.outcome = .raised f ∧ StillRunning s k ∧ Host.Core.run Sys2Proof.core n s = .fault f

/-- A word placed for the next fetch is the one the step runs (the model's `withFetchWord`, assumption 17). -/
def Obligations.PlacedWordIsExecuted : Prop :=
  ∀ (s : State) (i : Instr), s.hart.outcome = .running → s.hart.pc.toNat % 4 = 0 → s.hart.mem.wf →
    i.wellFormed s.xlen = true →
    step (s.withFetchWord 32 (encode i).toNat) = exec i (s.withFetchWord 32 (encode i).toNat)

/-! ## Decoding and encoding -/

/-- Decoding by the table (R110): a word that matches a row of the width decodes to that row's instruction, a word that matches
none is illegal, no word matches two rows, and the masks are those the rule lists. -/
def Obligations.DecodeFollowsTable : Prop :=
  (∀ (x : XLen) (v : InstWord),
    (∀ r ∈ opcodeTable, r.selects x v = true → decode x v = .ok (r.build v)) ∧
    ((∀ r ∈ opcodeTable, r.selects x v = false) → decode x v = .error (.illegal v)) ∧
    ∀ (j k : Nat) (r q : TableRow), opcodeTable[j]? = some r → opcodeTable[k]? = some q → r.selects x v = true → q.selects x v = true → j = k) ∧
  ∀ r ∈ opcodeTable, r.mask =
    if r.mnemonic ∈ ["lui", "auipc", "jal"] then 0x0000007F#32
    else if r.mnemonic ∈ ["ecall", "ebreak"] then 0xFFFFFFFF#32
    else if r.mnemonic ∈ ["lr.w", "lr.d"] then 0xF9F0707F#32
    else if r.mnemonic ∈ ["sc.w", "sc.d"] then 0xF800707F#32
    else if r.mnemonic ∈ ["slli", "srli", "srai"] ∧ r.xlens = [.rv64] then 0xFC00707F#32
    else if r.mnemonic ∈ ["addi", "andi", "ori", "xori", "slti", "sltiu", "addiw", "lb", "lbu", "lh", "lhu", "lw", "lwu",
      "ld", "sb", "sh", "sw", "sd", "beq", "bne", "blt", "bltu", "bge", "bgeu", "jalr"] then 0x0000707F#32
    else 0xFE00707F#32

/-- A word that no row matches is illegal: it decodes to `illegal`, executing it raises `IllegalInstruction` with the word and
changes nothing (R112). Among these words are those the rule names, and every other word of opcode `1110011` (R205). -/
def Obligations.UnlistedWordsAreIllegal : Prop :=
  ∀ (x : XLen) (v : InstWord),
    ((∀ r ∈ opcodeTable, r.selects x v = false) →
      decode x v = .error (.illegal v) ∧
      ∀ h : Hart x.width, h.outcome = .running → h.fetch = .ok v →
        step ⟨x, h⟩ = .next ⟨x, { h with outcome := .raised (.illegalInstruction v) }⟩) ∧
    (opcodeOf v ∉ [0x03#7, 0x13#7, 0x17#7, 0x1B#7, 0x23#7, 0x2F#7, 0x33#7, 0x37#7, 0x3B#7, 0x63#7, 0x67#7, 0x6F#7, 0x73#7] ∨
      (opcodeOf v = 0x2F#7 ∧ funct5Of v ≠ 0x02#5 ∧ funct5Of v ≠ 0x03#5) ∨
      (opcodeOf v = 0x33#7 ∧ funct7Of v = 0x20#7 ∧ funct3Of v ≠ 0#3 ∧ funct3Of v ≠ 5#3) ∨
      (opcodeOf v = 0x73#7 ∧ v ≠ 0x00000073#32 ∧ v ≠ 0x00100073#32) →
      ∀ r ∈ opcodeTable, r.selects x v = false)

/-- Which rows a width has (R111): with `XLEN = 32` the RV64 rows do not exist and their words are illegal, and so is a word of
`slli`, `srli`, `srai` with `inst[25] = 1`; with `XLEN = 64` all exist, these three with the 6-bit amount. -/
def Obligations.RowsOfEachWidth : Prop :=
  (∀ r ∈ opcodeTable, r.xlens = [.rv64] ↔
    r.mnemonic ∈ ["lr.d", "sc.d", "addw", "subw", "sllw", "srlw", "sraw", "addiw", "slliw", "srliw", "sraiw", "lwu", "ld",
      "sd", "mulw", "divw", "divuw", "remw", "remuw"] ∨
    (r.mnemonic ∈ ["slli", "srli", "srai"] ∧ r.mask = 0xFC00707F#32)) ∧
  ∀ (v : InstWord) (r : TableRow), r ∈ opcodeTable → v &&& r.mask = r.pattern →
    (r.xlens = [.rv64] → (r.mask = 0xFC00707F#32 → v.getLsbD 25 = true) → decode .rv32 v = .error (.illegal v)) ∧
    (r.xlens ≠ [.rv64] → decode .rv32 v = .ok (r.build v)) ∧
    (r.xlens ≠ [.rv32] → decode .rv64 v = .ok (r.build v)) ∧
    (r.xlens = [.rv32] → ∃ q ∈ opcodeTable, q.mnemonic = r.mnemonic ∧ q.mask = 0xFC00707F#32 ∧
      decode .rv64 v = .ok (q.build v))

/-- Decode after encode: every well-formed instruction, with every operand, is read back from its word. -/
def Obligations.DecodeOfEncode : Prop :=
  ∀ (x : XLen) (i : Instr), i.wellFormed x = true → decode x (encode i) = .ok i

/-- Encode after decode: what a word decodes to is well-formed, and is encoded by that word and no other. -/
def Obligations.EncodeOfDecode : Prop :=
  ∀ (x : XLen) (v : InstWord) (i : Instr), decode x v = .ok i → i.wellFormed x = true ∧ encode i = v

/-- Words written out from the spec's examples decode to the instructions they stand for (one for each family and template). -/
def Obligations.WrittenWordsDecode : Prop :=
  (∀ x, decode x 0x002081B3#32 = .ok (.add 3 1 2)) ∧ (∀ x, decode x 0xFFF00093#32 = .ok (.addi 1 0 0xFFF)) ∧
  (∀ x, decode x 0x0040A103#32 = .ok (.lw 2 1 4)) ∧ (∀ x, decode x 0xFE20AE23#32 = .ok (.sw 1 2 0xFFC)) ∧
  (∀ x, decode x 0xFE208CE3#32 = .ok (.beq 1 2 0x1FF8)) ∧ (∀ x, decode x 0x0000006F#32 = .ok (.jal 0 0)) ∧
  (∀ x, decode x 0x123452B7#32 = .ok (.lui 5 0x12345)) ∧ (∀ x, decode x 0x00100073#32 = .ok .ebreak) ∧
  (∀ x, decode x 0x188323AF#32 = .ok (.scw 7 6 8 false false)) ∧ decode .rv64 0x002081BB#32 = .ok (.addw 3 1 2) ∧
  decode .rv64 0x03F09193#32 = .ok (.slli64 3 1 63) ∧ decode .rv64 0x0220F1BB#32 = .ok (.remuw 3 1 2)

/-- The model's choice (assumptions 11, 12) for an instruction whose row the width lacks: with `XLEN = 32` it raises
`IllegalInstruction` with its word, but for a 6-bit shift by less than 32, whose word RV32 has, and which shifts; and with
`XLEN = 64` a 5-bit shift, whose word RV64 has, shifts. -/
def Obligations.AbsentRowsRaise : Prop :=
  (∀ (h : Hart XLen.rv64.width) (rd rs1 : RegNum) (shamt : BitVec 5),
    WritesReg .rv64 h (.slli rd rs1 shamt) rd (BitVec.ofNat 64 ((h.reg rs1).toNat * 2 ^ shamt.toNat)) ∧
    WritesReg .rv64 h (.srli rd rs1 shamt) rd (BitVec.ofNat 64 ((h.reg rs1).toNat / 2 ^ shamt.toNat)) ∧
    WritesReg .rv64 h (.srai rd rs1 shamt) rd (BitVec.ofInt 64 ((h.reg rs1).toInt / 2 ^ shamt.toNat))) ∧
  ∀ h : Hart XLen.rv32.width,
    (∀ i : Instr, i.existsAt .rv32 = false →
      (∀ rd rs1 shamt, i = .slli64 rd rs1 shamt ∨ i = .srli64 rd rs1 shamt ∨ i = .srai64 rd rs1 shamt → 32 ≤ shamt.toNat) →
      Raises .rv32 h i (.illegalInstruction (encode i))) ∧
    ∀ (rd rs1 : RegNum) (shamt : BitVec 6), shamt.toNat < 32 →
      WritesReg .rv32 h (.slli64 rd rs1 shamt) rd (BitVec.ofNat 32 ((h.reg rs1).toNat * 2 ^ shamt.toNat)) ∧
      WritesReg .rv32 h (.srli64 rd rs1 shamt) rd (BitVec.ofNat 32 ((h.reg rs1).toNat / 2 ^ shamt.toNat)) ∧
      WritesReg .rv32 h (.srai64 rd rs1 shamt) rd (BitVec.ofInt 32 ((h.reg rs1).toInt / 2 ^ shamt.toNat))

/-- The immediates (R99 to R102) as signed numbers: the places of the word's bits, bit 31 with the negative weight, and the same
number at either width. The I-type one (R98) stands beside them. -/
def Obligations.ImmediateValues : Prop :=
  ∀ (x : XLen) (v : InstWord),
    (imm12 (immIOf v) : BitVec x.width).toInt = (v.extractLsb' 20 11).toNat - (if v.getLsbD 31 then 2 ^ 11 else 0) ∧
    (imm12 (immSOf v) : BitVec x.width).toInt =
      (v.extractLsb' 25 6).toNat * 32 + (v.extractLsb' 7 5).toNat - (if v.getLsbD 31 then 2 ^ 11 else 0) ∧
    (immB (immBOf v) : BitVec x.width).toInt =
      (v.extractLsb' 7 1).toNat * 2 ^ 11 + (v.extractLsb' 25 6).toNat * 32 + (v.extractLsb' 8 4).toNat * 2 -
        (if v.getLsbD 31 then 2 ^ 12 else 0) ∧
    (immJ (immJOf v) : BitVec x.width).toInt =
      (v.extractLsb' 12 8).toNat * 2 ^ 12 + (v.extractLsb' 20 1).toNat * 2 ^ 11 + (v.extractLsb' 21 10).toNat * 2 -
        (if v.getLsbD 31 then 2 ^ 20 else 0) ∧
    (immU (immUOf v) : BitVec x.width).toInt = (v.extractLsb' 12 19).toNat * 2 ^ 12 - (if v.getLsbD 31 then 2 ^ 31 else 0)

/-! ## What any instruction may touch -/

/-- An instruction writes no register but its `rd`, and never x0 (R21, R23). `ecall` and `ebreak` are left to the environment. -/
def Obligations.OnlyDestinationIsWritten : Prop :=
  ∀ (x : XLen) (i : Instr) (h h' : Hart x.width), exec i ⟨x, h⟩ = .next ⟨x, h'⟩ → i ≠ .ecall → i ≠ .ebreak →
    ∀ r, i.destination ≠ some r ∨ r = 0 → h'.reg r = h.reg r

/-- An instruction reads no register but its `rs1` and `rs2` (R23): two harts that differ only in other registers give the same
next `pc`, memory, reservation and outcome, and the same `x[rd]`. `ecall` and `ebreak` read no register either, but the handler
is given the whole state (R310), so for them the handler is the default, `stop`. -/
def Obligations.OnlySourcesAreRead : Prop :=
  ∀ (x : XLen) (i : Instr) (h h' : Hart x.width) (other : Vector (BitVec x.width) 31),
    h.outcome = .running → (∀ r ∈ i.sources, ({ h with regs := other } : Hart x.width).reg r = h.reg r) →
    (i = .ecall ∨ i = .ebreak → h.handler = []) → exec i ⟨x, h⟩ = .next ⟨x, h'⟩ →
    ∃ g', exec i ⟨x, { h with regs := other }⟩ = .next ⟨x, g'⟩ ∧ g'.pc = h'.pc ∧ g'.mem = h'.mem ∧
      g'.written = h'.written ∧ g'.reservation = h'.reservation ∧ g'.outcome = h'.outcome ∧ g'.handler = h'.handler ∧
      g'.draws = h'.draws ∧ g'.platform = h'.platform ∧
      (h'.outcome = .running → ∀ rd, i.destination = some rd → g'.reg rd = h'.reg rd)

/-- Where `pc` goes (R27): a taken branch, `jal` and `jalr` to their target, every other instruction that completes to `pc + 4`;
`ecall` and `ebreak` leave it at their own address when they hand over. -/
def Obligations.PcAfterInstruction : Prop :=
  ∀ (x : XLen) (i : Instr) (h h' : Hart x.width), h.outcome = .running → exec i ⟨x, h⟩ = .next ⟨x, h'⟩ →
    (i ≠ .ecall ∧ i ≠ .ebreak ∧ h'.outcome = .running → h'.pc = (transferTarget h i).getD (h.pc + 4)) ∧
    ∀ k, i = EnvKind.instr k → h.answer k = .stop → h'.pc = h.pc

/-- The frame of memory: an instruction that is no store, `sc`, `ecall` or `ebreak` changes no byte; a store or `sc` changes
no byte outside the access that `storeAccess` gives (R55, R56, R59). -/
def Obligations.MemoryFrame : Prop :=
  ∀ (x : XLen) (i : Instr) (h h' : Hart x.width), h.mem.wf → exec i ⟨x, h⟩ = .next ⟨x, h'⟩ → i ≠ .ecall → i ≠ .ebreak →
    (storeAccess h i = none → SameMemory h h') ∧
    ∀ a n, storeAccess h i = some (a, n) → ∀ b, (∀ k, k < n → b ≠ byteAddr a k) →
      h'.mem.read b = h.mem.read b ∧ (b ∈ h'.written ↔ b ∈ h.written)

/-- Every byte that any step changes is in `written` afterwards, and `written` never loses a byte (R35, R56, R310). -/
def Obligations.ChangedBytesAreWritten : Prop :=
  ∀ (x : XLen) (h h' : Hart x.width), h.mem.wf → step ⟨x, h⟩ = .next ⟨x, h'⟩ →
    (∀ a, a ∈ h.written → a ∈ h'.written) ∧ ∀ a, h'.mem.read a ≠ h.mem.read a → a ∈ h'.written

/-- No run ever executes a byte that was stored (R71, R351): whatever a run fetches, memory held there at its start. -/
def Obligations.FetchedWordsAreLaunchWords : Prop :=
  ∀ (x : XLen) (n : Nat) (h h' : Hart x.width) (v : InstWord), h.mem.wf → h.written = [] →
    Host.Core.run Sys2Proof.core n (⟨x, h⟩ : State) = .next (⟨x, h'⟩ : State) → h'.fetch = .ok v →
    v = wordOfBytes (h.mem.read (byteAddr h'.pc 0)) (h.mem.read (byteAddr h'.pc 1)) (h.mem.read (byteAddr h'.pc 2))
      (h.mem.read (byteAddr h'.pc 3))

/-- The life of the reservation (R215): none at the start; set by a completing `lr`, whatever it held; cleared by a completing
`sc`; kept or cleared where the environment resumes the hart; and changed by nothing else, and never by a raise. -/
def Obligations.ReservationLife : Prop :=
  (∀ (x : XLen) (l : Launch x.width), l.start.reservation = none) ∧
  ∀ (x : XLen) (i : Instr) (h h' : Hart x.width), h.outcome = .running → exec i ⟨x, h⟩ = .next ⟨x, h'⟩ →
    (h'.outcome ≠ .running → h'.reservation = h.reservation) ∧
    (h'.outcome = .running →
      match i with
      | .lrw _ a _ _ => h'.reservation = some { addr := h.reg a, size := .word }
      | .lrd _ a _ _ => h'.reservation = some { addr := h.reg a, size := .double }
      | .scw _ _ _ _ _ | .scd _ _ _ _ _ => h'.reservation = none
      | .ecall | .ebreak => h'.reservation = h.reservation ∨ h'.reservation = none
      | _ => h'.reservation = h.reservation)

/-! ## Memory -/

/-- Byte order and mixed widths (R50, R52): in a value read or written, the byte at `a + k` is bits `8k+7` to `8k`; and a read
inside a written value, of any width, gives the bits that stand there. -/
def Obligations.ByteOrder : Prop :=
  ∀ (x : XLen) (h : Hart x.width) (a : BitVec x.width) (n : Nat) (v : BitVec (8 * n)), h.mem.wf → n ≤ 8 →
    (∀ k, k < n → (h.readValue a n).extractLsb' (8 * k) 8 = h.mem.read (byteAddr a k)) ∧
    (∀ k, k < n → (h.writeValue a n v).mem.read (byteAddr a k) = v.extractLsb' (8 * k) 8) ∧
    ∀ j m, j + m ≤ n →
      (h.writeValue a n v).readValue (a + BitVec.ofNat x.width j) m = v.extractLsb' (8 * j) (8 * m)

/-- The canonical form is one (the model's choice, assumption 10): memories that read alike everywhere are equal data. -/
def Obligations.CanonicalMemoryIsUnique : Prop :=
  ∀ m m' : Memory, m.wf → m'.wf → (∀ a, m.read a = m'.read a) → m = m'

/-- The effective address (R61, R160): `x[rs1]` plus the signed immediate, modulo `2^XLEN`. -/
def Obligations.EffectiveAddress : Prop :=
  ∀ (x : XLen) (h : Hart x.width) (rs1 : RegNum) (imm : BitVec 12),
    ((h.effAddr rs1 imm).toNat : Int) = ((h.reg rs1).toNat + imm.toInt) % 2 ^ x.width

/-! ## RV32I arithmetic -/

/-- `add`, `sub`, `addi` (R131, R132, R141): sums and differences modulo `2^XLEN`. -/
def Obligations.AdditionResults : Prop :=
  ∀ x : XLen,
    DecodesAs x 0x00000033 0xFE00707F (fun v => .add (rdOf v) (rs1Of v) (rs2Of v)) ∧
    DecodesAs x 0x40000033 0xFE00707F (fun v => .sub (rdOf v) (rs1Of v) (rs2Of v)) ∧
    DecodesAs x 0x00000013 0x0000707F (fun v => .addi (rdOf v) (rs1Of v) (immIOf v)) ∧
    ∀ (h : Hart x.width) (rd rs1 rs2 : RegNum) (imm : BitVec 12),
      WritesReg x h (.add rd rs1 rs2) rd (BitVec.ofNat _ ((h.reg rs1).toNat + (h.reg rs2).toNat)) ∧
      WritesReg x h (.sub rd rs1 rs2) rd (BitVec.ofInt _ ((h.reg rs1).toNat - (h.reg rs2).toNat)) ∧
      WritesReg x h (.addi rd rs1 imm) rd (BitVec.ofInt _ ((h.reg rs1).toNat + imm.toInt))

/-- `and`, `or`, `xor` and their immediate forms (R133 to R135, R142 to R144), the immediate sign-extended first. -/
def Obligations.BitwiseResults : Prop :=
  ∀ x : XLen,
    DecodesAs x 0x00007033 0xFE00707F (fun v => .and (rdOf v) (rs1Of v) (rs2Of v)) ∧
    DecodesAs x 0x00006033 0xFE00707F (fun v => .or (rdOf v) (rs1Of v) (rs2Of v)) ∧
    DecodesAs x 0x00004033 0xFE00707F (fun v => .xor (rdOf v) (rs1Of v) (rs2Of v)) ∧
    DecodesAs x 0x00007013 0x0000707F (fun v => .andi (rdOf v) (rs1Of v) (immIOf v)) ∧
    DecodesAs x 0x00006013 0x0000707F (fun v => .ori (rdOf v) (rs1Of v) (immIOf v)) ∧
    DecodesAs x 0x00004013 0x0000707F (fun v => .xori (rdOf v) (rs1Of v) (immIOf v)) ∧
    ∀ (h : Hart x.width) (rd rs1 rs2 : RegNum) (imm : BitVec 12),
      WritesReg x h (.and rd rs1 rs2) rd (BitVec.ofNat _ ((h.reg rs1).toNat &&& (h.reg rs2).toNat)) ∧
      WritesReg x h (.or rd rs1 rs2) rd (BitVec.ofNat _ ((h.reg rs1).toNat ||| (h.reg rs2).toNat)) ∧
      WritesReg x h (.xor rd rs1 rs2) rd (BitVec.ofNat _ ((h.reg rs1).toNat ^^^ (h.reg rs2).toNat)) ∧
      WritesReg x h (.andi rd rs1 imm) rd
        (BitVec.ofNat _ ((h.reg rs1).toNat &&& (BitVec.ofInt x.width imm.toInt).toNat)) ∧
      WritesReg x h (.ori rd rs1 imm) rd
        (BitVec.ofNat _ ((h.reg rs1).toNat ||| (BitVec.ofInt x.width imm.toInt).toNat)) ∧
      WritesReg x h (.xori rd rs1 imm) rd
        (BitVec.ofNat _ ((h.reg rs1).toNat ^^^ (BitVec.ofInt x.width imm.toInt).toNat))

/-- `sll`, `srl`, `sra` (R136 to R138): the amount is `x[rs2]` modulo `XLEN`; left is a product, right a quotient rounded down,
of the unsigned value for `srl` and of the signed value for `sra`. -/
def Obligations.RegisterShiftResults : Prop :=
  ∀ x : XLen,
    DecodesAs x 0x00001033 0xFE00707F (fun v => .sll (rdOf v) (rs1Of v) (rs2Of v)) ∧
    DecodesAs x 0x00005033 0xFE00707F (fun v => .srl (rdOf v) (rs1Of v) (rs2Of v)) ∧
    DecodesAs x 0x40005033 0xFE00707F (fun v => .sra (rdOf v) (rs1Of v) (rs2Of v)) ∧
    ∀ (h : Hart x.width) (rd rs1 rs2 : RegNum),
      WritesReg x h (.sll rd rs1 rs2) rd (BitVec.ofNat _ ((h.reg rs1).toNat * 2 ^ ((h.reg rs2).toNat % x.width))) ∧
      WritesReg x h (.srl rd rs1 rs2) rd (BitVec.ofNat _ ((h.reg rs1).toNat / 2 ^ ((h.reg rs2).toNat % x.width))) ∧
      WritesReg x h (.sra rd rs1 rs2) rd (BitVec.ofInt _ ((h.reg rs1).toInt / 2 ^ ((h.reg rs2).toNat % x.width)))

/-- `slt`, `sltu`, `slti`, `sltiu` (R139, R140, R145, R146): 1 or 0 by the signed or the unsigned order; `sltiu` sign-extends its
immediate before it compares unsigned. -/
def Obligations.CompareResults : Prop :=
  ∀ x : XLen,
    DecodesAs x 0x00002033 0xFE00707F (fun v => .slt (rdOf v) (rs1Of v) (rs2Of v)) ∧
    DecodesAs x 0x00003033 0xFE00707F (fun v => .sltu (rdOf v) (rs1Of v) (rs2Of v)) ∧
    DecodesAs x 0x00002013 0x0000707F (fun v => .slti (rdOf v) (rs1Of v) (immIOf v)) ∧
    DecodesAs x 0x00003013 0x0000707F (fun v => .sltiu (rdOf v) (rs1Of v) (immIOf v)) ∧
    ∀ (h : Hart x.width) (rd rs1 rs2 : RegNum) (imm : BitVec 12),
      WritesReg x h (.slt rd rs1 rs2) rd (if (h.reg rs1).toInt < (h.reg rs2).toInt then 1 else 0) ∧
      WritesReg x h (.sltu rd rs1 rs2) rd (if (h.reg rs1).toNat < (h.reg rs2).toNat then 1 else 0) ∧
      WritesReg x h (.slti rd rs1 imm) rd (if (h.reg rs1).toInt < imm.toInt then 1 else 0) ∧
      WritesReg x h (.sltiu rd rs1 imm) rd
        (if (h.reg rs1).toNat < (BitVec.ofInt x.width imm.toInt).toNat then 1 else 0)

/-- `slli`, `srli`, `srai` at both widths (R147 to R149, R242 to R244): the 5-bit rows decode when `XLEN = 32` and the 6-bit rows
when `XLEN = 64`; with `XLEN = 32` a word with `inst[25] = 1` is illegal. -/
def Obligations.ShiftImmediateResults : Prop :=
  DecodesAs .rv32 0x00001013 0xFE00707F (fun v => .slli (rdOf v) (rs1Of v) (shamt5Of v)) ∧
  DecodesAs .rv32 0x00005013 0xFE00707F (fun v => .srli (rdOf v) (rs1Of v) (shamt5Of v)) ∧
  DecodesAs .rv32 0x40005013 0xFE00707F (fun v => .srai (rdOf v) (rs1Of v) (shamt5Of v)) ∧
  DecodesAs .rv64 0x00001013 0xFC00707F (fun v => .slli64 (rdOf v) (rs1Of v) (shamt6Of v)) ∧
  DecodesAs .rv64 0x00005013 0xFC00707F (fun v => .srli64 (rdOf v) (rs1Of v) (shamt6Of v)) ∧
  DecodesAs .rv64 0x40005013 0xFC00707F (fun v => .srai64 (rdOf v) (rs1Of v) (shamt6Of v)) ∧
  (∀ v : InstWord, v.getLsbD 25 = true →
    v &&& 0xFC00707F = 0x00001013 ∨ v &&& 0xFC00707F = 0x00005013 ∨ v &&& 0xFC00707F = 0x40005013 →
    decode .rv32 v = .error (.illegal v)) ∧
  (∀ (h : Hart XLen.rv32.width) (rd rs1 : RegNum) (shamt : BitVec 5),
    WritesReg .rv32 h (.slli rd rs1 shamt) rd (BitVec.ofNat 32 ((h.reg rs1).toNat * 2 ^ shamt.toNat)) ∧
    WritesReg .rv32 h (.srli rd rs1 shamt) rd (BitVec.ofNat 32 ((h.reg rs1).toNat / 2 ^ shamt.toNat)) ∧
    WritesReg .rv32 h (.srai rd rs1 shamt) rd (BitVec.ofInt 32 ((h.reg rs1).toInt / 2 ^ shamt.toNat))) ∧
  ∀ (h : Hart XLen.rv64.width) (rd rs1 : RegNum) (shamt : BitVec 6),
    WritesReg .rv64 h (.slli64 rd rs1 shamt) rd (BitVec.ofNat 64 ((h.reg rs1).toNat * 2 ^ shamt.toNat)) ∧
    WritesReg .rv64 h (.srli64 rd rs1 shamt) rd (BitVec.ofNat 64 ((h.reg rs1).toNat / 2 ^ shamt.toNat)) ∧
    WritesReg .rv64 h (.srai64 rd rs1 shamt) rd (BitVec.ofInt 64 ((h.reg rs1).toInt / 2 ^ shamt.toNat))

/-! ## Loads and stores -/

/-- `lb`, `lbu`, `lh`, `lhu`, `lw` (R162 to R166): the little-endian number of the bytes, signed or unsigned, to `x[rd]`; and the two
conditions each can raise, misalignment first. -/
def Obligations.LoadResults : Prop :=
  ∀ x : XLen,
    DecodesAs x 0x00000003 0x0000707F (fun v => .lb (rdOf v) (rs1Of v) (immIOf v)) ∧
    DecodesAs x 0x00004003 0x0000707F (fun v => .lbu (rdOf v) (rs1Of v) (immIOf v)) ∧
    DecodesAs x 0x00001003 0x0000707F (fun v => .lh (rdOf v) (rs1Of v) (immIOf v)) ∧
    DecodesAs x 0x00005003 0x0000707F (fun v => .lhu (rdOf v) (rs1Of v) (immIOf v)) ∧
    DecodesAs x 0x00002003 0x0000707F (fun v => .lw (rdOf v) (rs1Of v) (immIOf v)) ∧
    ∀ (h : Hart x.width) (rd rs1 : RegNum) (imm : BitVec 12),
      LoadBehaves x h (.lb rd rs1 imm) rd (h.effAddr rs1 imm) 1 (BitVec.ofInt _ (bytesInt h (h.effAddr rs1 imm) 1)) ∧
      LoadBehaves x h (.lbu rd rs1 imm) rd (h.effAddr rs1 imm) 1 (BitVec.ofNat _ (bytesNat h (h.effAddr rs1 imm) 1)) ∧
      LoadBehaves x h (.lh rd rs1 imm) rd (h.effAddr rs1 imm) 2 (BitVec.ofInt _ (bytesInt h (h.effAddr rs1 imm) 2)) ∧
      LoadBehaves x h (.lhu rd rs1 imm) rd (h.effAddr rs1 imm) 2 (BitVec.ofNat _ (bytesNat h (h.effAddr rs1 imm) 2)) ∧
      LoadBehaves x h (.lw rd rs1 imm) rd (h.effAddr rs1 imm) 4 (BitVec.ofInt _ (bytesInt h (h.effAddr rs1 imm) 4))

/-- `lwu` and `ld` (R249, R250). -/
def Obligations.Rv64LoadResults : Prop :=
  DecodesAs .rv64 0x00006003 0x0000707F (fun v => .lwu (rdOf v) (rs1Of v) (immIOf v)) ∧
  DecodesAs .rv64 0x00003003 0x0000707F (fun v => .ld (rdOf v) (rs1Of v) (immIOf v)) ∧
  ∀ (h : Hart XLen.rv64.width) (rd rs1 : RegNum) (imm : BitVec 12),
    LoadBehaves .rv64 h (.lwu rd rs1 imm) rd (h.effAddr rs1 imm) 4
      (BitVec.ofNat 64 (bytesNat h (h.effAddr rs1 imm) 4)) ∧
    LoadBehaves .rv64 h (.ld rd rs1 imm) rd (h.effAddr rs1 imm) 8
      (BitVec.ofNat 64 (bytesNat h (h.effAddr rs1 imm) 8))

/-- `sb`, `sh`, `sw` (R167 to R169): the low bytes of `x[rs2]` at the effective address, every other byte and every register as
before; and the two conditions each can raise, misalignment first. -/
def Obligations.StoreResults : Prop :=
  ∀ x : XLen,
    DecodesAs x 0x00000023 0x0000707F (fun v => .sb (rs1Of v) (rs2Of v) (immSOf v)) ∧
    DecodesAs x 0x00001023 0x0000707F (fun v => .sh (rs1Of v) (rs2Of v) (immSOf v)) ∧
    DecodesAs x 0x00002023 0x0000707F (fun v => .sw (rs1Of v) (rs2Of v) (immSOf v)) ∧
    ∀ (h : Hart x.width) (rs1 rs2 : RegNum) (imm : BitVec 12), h.mem.wf →
      StoreBehaves x h (.sb rs1 rs2 imm) (h.effAddr rs1 imm) 1 (h.reg rs2) ∧
      StoreBehaves x h (.sh rs1 rs2 imm) (h.effAddr rs1 imm) 2 (h.reg rs2) ∧
      StoreBehaves x h (.sw rs1 rs2 imm) (h.effAddr rs1 imm) 4 (h.reg rs2)

/-- `sd` (R251). -/
def Obligations.DoubleStoreResult : Prop :=
  DecodesAs .rv64 0x00003023 0x0000707F (fun v => .sd (rs1Of v) (rs2Of v) (immSOf v)) ∧
  ∀ (h : Hart XLen.rv64.width) (rs1 rs2 : RegNum) (imm : BitVec 12), h.mem.wf →
    StoreBehaves .rv64 h (.sd rs1 rs2 imm) (h.effAddr rs1 imm) 8 (h.reg rs2)

/-! ## Control -/

/-- The six branches (R182 to R187): each with its condition on the signed or unsigned values of its registers. -/
def Obligations.BranchResults : Prop :=
  ∀ x : XLen,
    DecodesAs x 0x00000063 0x0000707F (fun v => .beq (rs1Of v) (rs2Of v) (immBOf v)) ∧
    DecodesAs x 0x00001063 0x0000707F (fun v => .bne (rs1Of v) (rs2Of v) (immBOf v)) ∧
    DecodesAs x 0x00004063 0x0000707F (fun v => .blt (rs1Of v) (rs2Of v) (immBOf v)) ∧
    DecodesAs x 0x00006063 0x0000707F (fun v => .bltu (rs1Of v) (rs2Of v) (immBOf v)) ∧
    DecodesAs x 0x00005063 0x0000707F (fun v => .bge (rs1Of v) (rs2Of v) (immBOf v)) ∧
    DecodesAs x 0x00007063 0x0000707F (fun v => .bgeu (rs1Of v) (rs2Of v) (immBOf v)) ∧
    ∀ (h : Hart x.width) (rs1 rs2 : RegNum) (offset : BitVec 13),
      BranchBehaves x h (.beq rs1 rs2 offset) (h.reg rs1 = h.reg rs2) offset ∧
      BranchBehaves x h (.bne rs1 rs2 offset) (h.reg rs1 ≠ h.reg rs2) offset ∧
      BranchBehaves x h (.blt rs1 rs2 offset) ((h.reg rs1).toInt < (h.reg rs2).toInt) offset ∧
      BranchBehaves x h (.bltu rs1 rs2 offset) ((h.reg rs1).toNat < (h.reg rs2).toNat) offset ∧
      BranchBehaves x h (.bge rs1 rs2 offset) ((h.reg rs2).toInt ≤ (h.reg rs1).toInt) offset ∧
      BranchBehaves x h (.bgeu rs1 rs2 offset) ((h.reg rs2).toNat ≤ (h.reg rs1).toNat) offset

/-- `jal` and `jalr` (R188, R189): the target of `jalr` is the sum with bit 0 cleared, from the old `x[rs1]`. -/
def Obligations.JumpResults : Prop :=
  ∀ x : XLen,
    DecodesAs x 0x0000006F 0x0000007F (fun v => .jal (rdOf v) (immJOf v)) ∧
    DecodesAs x 0x00000067 0x0000707F (fun v => .jalr (rdOf v) (rs1Of v) (immIOf v)) ∧
    ∀ (h : Hart x.width) (rd rs1 : RegNum) (offset : BitVec 21) (imm : BitVec 12),
      JumpBehaves x h (.jal rd offset) rd (BitVec.ofInt _ (h.pc.toNat + offset.toInt)) ∧
      JumpBehaves x h (.jalr rd rs1 imm) rd (BitVec.ofNat _ ((h.effAddr rs1 imm).toNat / 2 * 2))

/-- `auipc` and `lui` (R201, R202): `imm_U` is `immu * 4096` read as a signed 32-bit number. -/
def Obligations.UpperImmediateResults : Prop :=
  ∀ x : XLen,
    DecodesAs x 0x00000017 0x0000007F (fun v => .auipc (rdOf v) (immUOf v)) ∧
    DecodesAs x 0x00000037 0x0000007F (fun v => .lui (rdOf v) (immUOf v)) ∧
    ∀ (h : Hart x.width) (rd : RegNum) (immu : BitVec 20),
      WritesReg x h (.auipc rd immu) rd (BitVec.ofInt _ (h.pc.toNat + immu.toInt * 4096)) ∧
      WritesReg x h (.lui rd immu) rd (BitVec.ofInt _ (immu.toInt * 4096))

/-- `ecall` and `ebreak` (R203, R204, R310): their single words; where the handler answers `stop`, as it does by default, the run
ends with `EnvironmentCall(pc)` or `Breakpoint(pc)`; where it resumes the hart, registers and `pc` are its own, x0 is zero,
the existing bytes it lists are as it says and every other byte is as before, every byte that changed and no other joins
`written`, and the reservation is kept or dropped. The table that stands for the handler, `stop` where it has no row, is the
model's choice (assumption 7); that listed bytes that do not exist are ignored and that no other byte joins `written` is the
model's reading of R310 (assumption 15). -/
def Obligations.EnvironmentTransfer : Prop :=
  ∀ x : XLen,
    DecodesAs x 0x00000073 0xFFFFFFFF (fun _ => .ecall) ∧ DecodesAs x 0x00100073 0xFFFFFFFF (fun _ => .ebreak) ∧
    ∀ (h : Hart x.width),
      (h.handler = [] → ∀ k, h.answer k = .stop) ∧
      (h.answer .call = .stop → Raises x h .ecall (.environmentCall h.pc.toNat)) ∧
      (h.answer .breakpoint = .stop → Raises x h .ebreak (.breakpoint h.pc.toNat)) ∧
      ∀ k regs pc bytes keep, h.mem.wf → h.answer k = .resume regs pc bytes keep →
        ∃ h', exec (EnvKind.instr k) ⟨x, h⟩ = .next ⟨x, h'⟩ ∧
          h'.regs = regs ∧ h'.reg 0 = 0 ∧ h'.pc = pc ∧
          h'.reservation = (if keep then h.reservation else none) ∧
          (∀ a, (∀ c ∈ bytes, a ≠ c.1) ∨ ¬ h.platform.HasByte x.width a → h'.mem.read a = h.mem.read a) ∧
          ((bytes.map Prod.fst).Nodup → ∀ c ∈ bytes, h.platform.HasByte x.width c.1 → h'.mem.read c.1 = c.2) ∧
          (∀ a, a ∈ h'.written ↔ a ∈ h.written ∨ h'.mem.read a ≠ h.mem.read a) ∧
          SameRun h h' ∧ h'.draws = h.draws

/-! ## Load-reserved and store-conditional -/

/-- `lr.w` and `lr.d` (R218, R219); a word of theirs with a nonzero `rs2` field is illegal, and so is `lr.d` with `XLEN = 32`. -/
def Obligations.LoadReservedResults : Prop :=
  (∀ x : XLen,
    DecodesAs x 0x1000202F 0xF9F0707F (fun v => .lrw (rdOf v) (rs1Of v) (aqOf v) (rlOf v)) ∧
    ∀ (h : Hart x.width) (rd rs1 : RegNum) (aq rl : Bool),
      LrBehaves x h (.lrw rd rs1 aq rl) rd (h.reg rs1) .word (BitVec.ofInt _ (bytesInt h (h.reg rs1) 4))) ∧
  (∀ (x : XLen) (v : InstWord), v &&& 0xF800707F = 0x1000202F ∨ v &&& 0xF800707F = 0x1000302F → rs2Of v ≠ 0 →
    decode x v = .error (.illegal v)) ∧
  IllegalAs .rv32 0x1000302F 0xF9F0707F ∧
  DecodesAs .rv64 0x1000302F 0xF9F0707F (fun v => .lrd (rdOf v) (rs1Of v) (aqOf v) (rlOf v)) ∧
  ∀ (h : Hart XLen.rv64.width) (rd rs1 : RegNum) (aq rl : Bool),
    LrBehaves .rv64 h (.lrd rd rs1 aq rl) rd (h.reg rs1) .double (BitVec.ofNat 64 (bytesNat h (h.reg rs1) 8))

/-- `sc.w` and `sc.d` (R220, R221), for every value of the free choices; `sc.d` is illegal with `XLEN = 32`. -/
def Obligations.StoreConditionalResults : Prop :=
  (∀ x : XLen,
    DecodesAs x 0x1800202F 0xF800707F (fun v => .scw (rdOf v) (rs1Of v) (rs2Of v) (aqOf v) (rlOf v)) ∧
    ∀ (h : Hart x.width) (rd rs1 rs2 : RegNum) (aq rl : Bool), h.mem.wf →
      ScBehaves x h (.scw rd rs1 rs2 aq rl) rd (h.reg rs1) .word (h.reg rs2)) ∧
  IllegalAs .rv32 0x1800302F 0xF800707F ∧
  DecodesAs .rv64 0x1800302F 0xF800707F (fun v => .scd (rdOf v) (rs1Of v) (rs2Of v) (aqOf v) (rlOf v)) ∧
  ∀ (h : Hart XLen.rv64.width) (rd rs1 rs2 : RegNum) (aq rl : Bool), h.mem.wf →
    ScBehaves .rv64 h (.scd rd rs1 rs2 aq rl) rd (h.reg rs1) .double (h.reg rs2)

/-- `aq` and `rl` are bits 26 and 25, all four combinations are legal on all four instructions, and none changes what the
instruction does (R216). -/
def Obligations.OrderingBitsChangeNothing : Prop :=
  (∀ (x : XLen) (rd rs1 rs2 : RegNum) (aq rl : Bool),
    decode x (encode (.lrw rd rs1 aq rl)) = .ok (.lrw rd rs1 aq rl) ∧
    decode x (encode (.scw rd rs1 rs2 aq rl)) = .ok (.scw rd rs1 rs2 aq rl) ∧
    decode .rv64 (encode (.lrd rd rs1 aq rl)) = .ok (.lrd rd rs1 aq rl) ∧
    decode .rv64 (encode (.scd rd rs1 rs2 aq rl)) = .ok (.scd rd rs1 rs2 aq rl) ∧
    ∀ i ∈ [Instr.lrw rd rs1 aq rl, .lrd rd rs1 aq rl, .scw rd rs1 rs2 aq rl, .scd rd rs1 rs2 aq rl],
      (encode i).getLsbD 26 = aq ∧ (encode i).getLsbD 25 = rl) ∧
  ∀ (s : State) (rd rs1 rs2 : RegNum) (aq rl aq' rl' : Bool),
    exec (.lrw rd rs1 aq rl) s = exec (.lrw rd rs1 aq' rl') s ∧
    exec (.scw rd rs1 rs2 aq rl) s = exec (.scw rd rs1 rs2 aq' rl') s ∧
    (s.xlen = .rv64 → exec (.lrd rd rs1 aq rl) s = exec (.lrd rd rs1 aq' rl') s ∧
      exec (.scd rd rs1 rs2 aq rl) s = exec (.scd rd rs1 rs2 aq' rl') s)

/-- A second `sc` after one `lr` fails (R220, corner case f), whatever the first one did and wherever both point. -/
def Obligations.SecondStoreConditionalFails : Prop :=
  ∀ (x : XLen) (h h' : Hart x.width) (rd a b rd' a' b' : RegNum) (aq rl aq' rl' : Bool),
    h.outcome = .running → exec (.scw rd a b aq rl) ⟨x, h⟩ = .next ⟨x, h'⟩ → h'.outcome = .running →
    (h'.reg a').toNat % 4 = 0 → Permitted h' .write (h'.reg a') 4 →
    ScFails x h' (.scw rd' a' b' aq' rl') rd'

/-- Without spurious failures an `sc` to the address and width of the `lr` before it stores (R220, corner case b), and so it does
when a store of this hart to the same bytes stands between the two (R215). -/
def Obligations.StoreConditionalAfterLoadReserved : Prop :=
  ∀ (x : XLen) (h h1 h2 : Hart x.width) (rd a : RegNum) (aq rl : Bool) (base src : RegNum) (imm : BitVec 12)
    (rd' a' b' : RegNum) (aq' rl' : Bool),
    h.outcome = .running → h.mem.wf → h.platform.scMayFail = false →
    exec (.lrw rd a aq rl) ⟨x, h⟩ = .next ⟨x, h1⟩ → h1.outcome = .running →
    exec (.sw base src imm) ⟨x, h1⟩ = .next ⟨x, h2⟩ → h2.outcome = .running →
    h2.reg a' = h.reg a → Permitted h .write (h.reg a) 4 →
    ScStores x h2 (.scw rd' a' b' aq' rl') rd' (h.reg a) 4 (h2.reg b')

/-! ## RV64I word instructions -/

/-- `addw`, `subw`, `sllw`, `srlw`, `sraw` (R237 to R241): 32-bit results of the low words, sign-extended, also for `srlw`. -/
def Obligations.WordRegisterResults : Prop :=
  DecodesAs .rv64 0x0000003B 0xFE00707F (fun v => .addw (rdOf v) (rs1Of v) (rs2Of v)) ∧
  DecodesAs .rv64 0x4000003B 0xFE00707F (fun v => .subw (rdOf v) (rs1Of v) (rs2Of v)) ∧
  DecodesAs .rv64 0x0000103B 0xFE00707F (fun v => .sllw (rdOf v) (rs1Of v) (rs2Of v)) ∧
  DecodesAs .rv64 0x0000503B 0xFE00707F (fun v => .srlw (rdOf v) (rs1Of v) (rs2Of v)) ∧
  DecodesAs .rv64 0x4000503B 0xFE00707F (fun v => .sraw (rdOf v) (rs1Of v) (rs2Of v)) ∧
  ∀ (h : Hart XLen.rv64.width) (rd rs1 rs2 : RegNum),
    WritesReg .rv64 h (.addw rd rs1 rs2) rd
      (BitVec.ofInt 64 (BitVec.ofNat 32 ((h.reg rs1).toNat + (h.reg rs2).toNat)).toInt) ∧
    WritesReg .rv64 h (.subw rd rs1 rs2) rd
      (BitVec.ofInt 64 (BitVec.ofInt 32 ((h.reg rs1).toNat - (h.reg rs2).toNat)).toInt) ∧
    WritesReg .rv64 h (.sllw rd rs1 rs2) rd
      (BitVec.ofInt 64 (BitVec.ofNat 32 ((h.reg rs1).toNat * 2 ^ ((h.reg rs2).toNat % 32))).toInt) ∧
    WritesReg .rv64 h (.srlw rd rs1 rs2) rd
      (BitVec.ofInt 64 (BitVec.ofNat 32 ((h.reg rs1).toNat % 2 ^ 32 / 2 ^ ((h.reg rs2).toNat % 32))).toInt) ∧
    WritesReg .rv64 h (.sraw rd rs1 rs2) rd
      (BitVec.ofInt 64 ((BitVec.ofNat 32 (h.reg rs1).toNat).toInt / 2 ^ ((h.reg rs2).toNat % 32)))

/-- `addiw`, `slliw`, `srliw`, `sraiw` (R245 to R248); a word of the three shifts with `inst[25] = 1` is illegal. -/
def Obligations.WordImmediateResults : Prop :=
  DecodesAs .rv64 0x0000001B 0x0000707F (fun v => .addiw (rdOf v) (rs1Of v) (immIOf v)) ∧
  DecodesAs .rv64 0x0000101B 0xFE00707F (fun v => .slliw (rdOf v) (rs1Of v) (shamt5Of v)) ∧
  DecodesAs .rv64 0x0000501B 0xFE00707F (fun v => .srliw (rdOf v) (rs1Of v) (shamt5Of v)) ∧
  DecodesAs .rv64 0x4000501B 0xFE00707F (fun v => .sraiw (rdOf v) (rs1Of v) (shamt5Of v)) ∧
  (∀ v : InstWord, v.getLsbD 25 = true →
    v &&& 0x0000707F = 0x0000101B ∨ v &&& 0x0000707F = 0x0000501B → decode .rv64 v = .error (.illegal v)) ∧
  ∀ (h : Hart XLen.rv64.width) (rd rs1 : RegNum) (imm : BitVec 12) (shamt : BitVec 5),
    WritesReg .rv64 h (.addiw rd rs1 imm) rd
      (BitVec.ofInt 64 (BitVec.ofInt 32 ((h.reg rs1).toNat + imm.toInt)).toInt) ∧
    WritesReg .rv64 h (.slliw rd rs1 shamt) rd
      (BitVec.ofInt 64 (BitVec.ofNat 32 ((h.reg rs1).toNat * 2 ^ shamt.toNat)).toInt) ∧
    WritesReg .rv64 h (.srliw rd rs1 shamt) rd
      (BitVec.ofInt 64 (BitVec.ofNat 32 ((h.reg rs1).toNat % 2 ^ 32 / 2 ^ shamt.toNat)).toInt) ∧
    WritesReg .rv64 h (.sraiw rd rs1 shamt) rd
      (BitVec.ofInt 64 ((BitVec.ofNat 32 (h.reg rs1).toNat).toInt / 2 ^ shamt.toNat))

/-! ## Multiplication and division -/

/-- `mul`, `mulh`, `mulhu`, `mulhsu` (R262 to R265): the low half of the product, and its high half as a floor of the exact
product by `2^XLEN`, with the sources signed or unsigned as the rule says. -/
def Obligations.MultiplyResults : Prop :=
  ∀ x : XLen,
    DecodesAs x 0x02000033 0xFE00707F (fun v => .mul (rdOf v) (rs1Of v) (rs2Of v)) ∧
    DecodesAs x 0x02001033 0xFE00707F (fun v => .mulh (rdOf v) (rs1Of v) (rs2Of v)) ∧
    DecodesAs x 0x02003033 0xFE00707F (fun v => .mulhu (rdOf v) (rs1Of v) (rs2Of v)) ∧
    DecodesAs x 0x02002033 0xFE00707F (fun v => .mulhsu (rdOf v) (rs1Of v) (rs2Of v)) ∧
    ∀ (h : Hart x.width) (rd rs1 rs2 : RegNum),
      WritesReg x h (.mul rd rs1 rs2) rd (BitVec.ofInt _ ((h.reg rs1).toInt * (h.reg rs2).toInt)) ∧
      WritesReg x h (.mulh rd rs1 rs2) rd (BitVec.ofInt _ ((h.reg rs1).toInt * (h.reg rs2).toInt / 2 ^ x.width)) ∧
      WritesReg x h (.mulhu rd rs1 rs2) rd (BitVec.ofNat _ ((h.reg rs1).toNat * (h.reg rs2).toNat / 2 ^ x.width)) ∧
      WritesReg x h (.mulhsu rd rs1 rs2) rd (BitVec.ofInt _ ((h.reg rs1).toInt * (h.reg rs2).toNat / 2 ^ x.width))

/-- `div`, `divu`, `rem`, `remu` (R266 to R269): no operand raises; a zero divisor and the signed overflow have their values. -/
def Obligations.DivideResults : Prop :=
  ∀ x : XLen,
    DecodesAs x 0x02004033 0xFE00707F (fun v => .div (rdOf v) (rs1Of v) (rs2Of v)) ∧
    DecodesAs x 0x02005033 0xFE00707F (fun v => .divu (rdOf v) (rs1Of v) (rs2Of v)) ∧
    DecodesAs x 0x02006033 0xFE00707F (fun v => .rem (rdOf v) (rs1Of v) (rs2Of v)) ∧
    DecodesAs x 0x02007033 0xFE00707F (fun v => .remu (rdOf v) (rs1Of v) (rs2Of v)) ∧
    ∀ (h : Hart x.width) (rd rs1 rs2 : RegNum),
      WritesReg x h (.div rd rs1 rs2) rd
        (if (h.reg rs2).toNat = 0 then BitVec.ofNat _ (2 ^ x.width - 1)
          else if (h.reg rs1).toInt = -2 ^ (x.width - 1) ∧ (h.reg rs2).toInt = -1 then h.reg rs1
          else BitVec.ofInt _ ((h.reg rs1).toInt.tdiv (h.reg rs2).toInt)) ∧
      WritesReg x h (.divu rd rs1 rs2) rd
        (if (h.reg rs2).toNat = 0 then BitVec.ofNat _ (2 ^ x.width - 1)
          else BitVec.ofNat _ ((h.reg rs1).toNat / (h.reg rs2).toNat)) ∧
      WritesReg x h (.rem rd rs1 rs2) rd
        (if (h.reg rs2).toNat = 0 then h.reg rs1
          else if (h.reg rs1).toInt = -2 ^ (x.width - 1) ∧ (h.reg rs2).toInt = -1 then 0
          else BitVec.ofInt _ ((h.reg rs1).toInt - (h.reg rs2).toInt * (h.reg rs1).toInt.tdiv (h.reg rs2).toInt)) ∧
      WritesReg x h (.remu rd rs1 rs2) rd
        (if (h.reg rs2).toNat = 0 then h.reg rs1 else BitVec.ofNat _ ((h.reg rs1).toNat % (h.reg rs2).toNat))

/-- `mulw`, `divw`, `divuw`, `remw`, `remuw` (R270 to R274): the low words of the sources, a 32-bit result by the table of R261,
sign-extended. -/
def Obligations.WordMultiplyDivideResults : Prop :=
  DecodesAs .rv64 0x0200003B 0xFE00707F (fun v => .mulw (rdOf v) (rs1Of v) (rs2Of v)) ∧
  DecodesAs .rv64 0x0200403B 0xFE00707F (fun v => .divw (rdOf v) (rs1Of v) (rs2Of v)) ∧
  DecodesAs .rv64 0x0200503B 0xFE00707F (fun v => .divuw (rdOf v) (rs1Of v) (rs2Of v)) ∧
  DecodesAs .rv64 0x0200603B 0xFE00707F (fun v => .remw (rdOf v) (rs1Of v) (rs2Of v)) ∧
  DecodesAs .rv64 0x0200703B 0xFE00707F (fun v => .remuw (rdOf v) (rs1Of v) (rs2Of v)) ∧
  ∀ (h : Hart XLen.rv64.width) (rd rs1 rs2 : RegNum) (a b : BitVec 32),
    a = BitVec.ofNat 32 (h.reg rs1).toNat → b = BitVec.ofNat 32 (h.reg rs2).toNat →
    WritesReg .rv64 h (.mulw rd rs1 rs2) rd (BitVec.ofInt 64 (BitVec.ofInt 32 (a.toInt * b.toInt)).toInt) ∧
    WritesReg .rv64 h (.divw rd rs1 rs2) rd
      (BitVec.ofInt 64 (if b.toNat = 0 then -1 else if a.toInt = -2 ^ 31 ∧ b.toInt = -1 then -2 ^ 31
        else a.toInt.tdiv b.toInt)) ∧
    WritesReg .rv64 h (.divuw rd rs1 rs2) rd
      (BitVec.ofInt 64 (if b.toNat = 0 then -1 else (BitVec.ofNat 32 (a.toNat / b.toNat)).toInt)) ∧
    WritesReg .rv64 h (.remw rd rs1 rs2) rd
      (BitVec.ofInt 64 (if b.toNat = 0 then a.toInt else if a.toInt = -2 ^ 31 ∧ b.toInt = -1 then 0
        else a.toInt - b.toInt * a.toInt.tdiv b.toInt)) ∧
    WritesReg .rv64 h (.remuw rd rs1 rs2) rd
      (BitVec.ofInt 64 (if b.toNat = 0 then a.toInt else (BitVec.ofNat 32 (a.toNat % b.toNat)).toInt))

/-- The table of division (R261) for `W = 32` and `W = 64`; quotient and remainder give the dividend back; and the `*w` forms take
the low words of the sources with `W = 32` and sign-extend. -/
def Obligations.DivisionTable : Prop :=
  (∀ (x : XLen) (a b : BitVec x.width),
    (b.toNat = 0 → quotSigned a b = BitVec.ofInt _ (-1) ∧ remSigned a b = a ∧
      (quotUnsigned a b).toNat = 2 ^ x.width - 1 ∧ remUnsigned a b = a) ∧
    (a.toInt = -2 ^ (x.width - 1) ∧ b.toInt = -1 → quotSigned a b = a ∧ remSigned a b = 0) ∧
    (b.toNat ≠ 0 ∧ ¬ (a.toInt = -2 ^ (x.width - 1) ∧ b.toInt = -1) →
      (quotSigned a b).toInt = a.toInt.tdiv b.toInt ∧
      (remSigned a b).toInt = a.toInt - b.toInt * a.toInt.tdiv b.toInt ∧
      (remSigned a b).toInt.natAbs < b.toInt.natAbs ∧
      (0 ≤ a.toInt → 0 ≤ (remSigned a b).toInt) ∧ (a.toInt ≤ 0 → (remSigned a b).toInt ≤ 0)) ∧
    (b.toNat ≠ 0 → (quotUnsigned a b).toNat = a.toNat / b.toNat ∧ (remUnsigned a b).toNat = a.toNat % b.toNat) ∧
    a = b * quotSigned a b + remSigned a b ∧ a = b * quotUnsigned a b + remUnsigned a b) ∧
  ∀ (h : Hart XLen.rv64.width) (rd rs1 rs2 : RegNum) (a b : BitVec XLen.rv32.width),
    a = BitVec.ofNat _ (h.reg rs1).toNat → b = BitVec.ofNat _ (h.reg rs2).toNat →
    WritesReg .rv64 h (.divw rd rs1 rs2) rd (BitVec.ofInt _ (quotSigned a b).toInt) ∧
    WritesReg .rv64 h (.remw rd rs1 rs2) rd (BitVec.ofInt _ (remSigned a b).toInt) ∧
    WritesReg .rv64 h (.divuw rd rs1 rs2) rd (BitVec.ofInt _ (quotUnsigned a b).toInt) ∧
    WritesReg .rv64 h (.remuw rd rs1 rs2) rd (BitVec.ofInt _ (remUnsigned a b).toInt)

/-! ## Launch and the environment, beside the statements above -/

/-- A run starts inside the invariant (R37, R341, R343): for every launch whose `RESET_PC` is a multiple of 4 and whose handler
resumes only at multiples of 4. Its memory lists only bytes that exist, whatever the image lists (assumption 30). -/
def Obligations.LaunchMeetsInvariant : Prop :=
  ∀ (x : XLen) (l : Launch x.width), l.resetPc.toNat % 4 = 0 →
    (∀ row ∈ l.handler, ∀ regs pc bytes keep, row.answer = .resume regs pc bytes keep → pc.toNat % 4 = 0) →
    l.start.Inv

/-- Every function of the kind and the state is a handler (R310, R36): the model's tables leave none out (assumption 7), so a
handler may resume at every `ecall` and `ebreak` of a run without end. The states are those a run can show: memory in
canonical form, inside the address space. -/
def Obligations.EveryHandlerIsATable : Prop :=
  ∀ (x : XLen) (f : EnvKind → EnvView x.width → EnvAnswer x.width), ∃ table : List (EnvRow x.width),
    ∀ k v, v.mem.wf → (∀ c ∈ v.mem.cells, c.1 < 2 ^ x.width) → handlerAnswer table k v = f k v

/-- A handler can resume a run without end (R310, R311): an `ecall` or `ebreak` whose handler resumes the very state it is given is
executed for ever. -/
def Obligations.ResumedRunNeverEnds : Prop :=
  ∀ (x : XLen) (h : Hart x.width) (k : EnvKind), Executes x h (EnvKind.instr k) →
    h.answer k = .resume h.regs h.pc [] true →
    ∀ n, Host.Core.run Sys2Proof.core n (⟨x, h⟩ : State) = .next (⟨x, h⟩ : State)

end Statements
end

