-- ==== Sys2Proof/Laws/Memory.lean ====
section
/-! SUPPORT. The laws of memory and of `written`: read after write, the canonical form, and membership. -/

namespace Sys2Proof.Machine

/-! ## Cells -/

/-- The canonical form, on the list of cells. -/
abbrev CellsWf (cs : List Host.Cell) : Prop :=
  cs.Pairwise (fun c d => c.1 < d.1) ∧ ∀ c ∈ cs, c.2 ≠ Config.unsetByte

theorem cellsWf_tail {c : Host.Cell} {cs : List Host.Cell} (hw : CellsWf (c :: cs)) : CellsWf cs :=
  ⟨hw.1.of_cons, fun d hd => hw.2 d (List.mem_cons_of_mem _ hd)⟩

/-- Below every listed address a list of cells reads as an unlisted address does. -/
theorem cellsRead_of_lt {cs : List Host.Cell} {a : Nat} (h : ∀ c ∈ cs, a < c.1) : cellsRead cs a = Config.unsetByte := by
  induction cs with
  | nil => rfl
  | cons c cs ih =>
    have := h c List.mem_cons_self
    rw [cellsRead, if_neg (by omega), ih fun d hd => h d (List.mem_cons_of_mem _ hd)]

theorem cellsRead_cons {a b : Nat} {v : Byte} {cs : List Host.Cell} (h : ∀ c ∈ cs, a < c.1) :
    cellsRead (cellsCons a v cs) b = if b = a then v else cellsRead cs b := by
  unfold cellsCons
  by_cases e : v = Config.unsetByte
  · rw [if_pos e]
    by_cases q : b = a
    · rw [if_pos q, q, cellsRead_of_lt h, e]
    · rw [if_neg q]
  · rw [if_neg e, cellsRead]
    by_cases q : b = a
    · rw [if_pos q.symm, if_pos q]
    · rw [if_neg (Ne.symm q), if_neg q]

/-- Read after write, on lists of cells by rising address. -/
theorem cellsRead_write {cs : List Host.Cell} (hp : cs.Pairwise fun c d => c.1 < d.1) (a b : Nat) (v : Byte) :
    cellsRead (cellsWrite cs a v) b = if b = a then v else cellsRead cs b := by
  induction cs with
  | nil => exact cellsRead_cons (by simp)
  | cons c cs ih =>
    rw [cellsWrite]
    have hc := (List.pairwise_cons.mp hp).1
    by_cases l : a < c.1
    · rw [if_pos l]
      refine cellsRead_cons fun d hd => ?_
      rcases List.mem_cons.mp hd with rfl | hd
      · exact l
      · exact l.trans (hc d hd)
    rw [if_neg l]
    by_cases e : a = c.1
    · rw [if_pos e, cellsRead_cons (e ▸ hc)]
      by_cases q : b = a
      · rw [if_pos q, if_pos q]
      · rw [if_neg q, if_neg q, cellsRead, if_neg (by omega)]
    · rw [if_neg e, cellsRead, cellsRead, ih hp.of_cons]
      by_cases q : b = a
      · rw [if_pos q, if_neg (by omega), if_pos q]
      · simp [q]

theorem cellsCons_mem {a : Nat} {v : Byte} {cs : List Host.Cell} {c : Host.Cell} (hc : c ∈ cellsCons a v cs) :
    c = (a, v) ∨ c ∈ cs := by
  unfold cellsCons at hc
  split at hc
  · exact .inr hc
  · simpa using hc

/-- A write lists no address but the one it writes and those listed before. -/
theorem cellsWrite_mem {cs : List Host.Cell} {a : Nat} {v : Byte} {c : Host.Cell} (hc : c ∈ cellsWrite cs a v) :
    c = (a, v) ∨ c ∈ cs := by
  induction cs with
  | nil => simpa using cellsCons_mem hc
  | cons d cs ih =>
    rw [cellsWrite] at hc
    split at hc
    · exact cellsCons_mem hc
    · split at hc
      · exact (cellsCons_mem hc).imp_right (List.mem_cons_of_mem _)
      · rcases List.mem_cons.mp hc with rfl | hc
        · exact .inr List.mem_cons_self
        · exact (ih hc).imp_right (List.mem_cons_of_mem _)

theorem cellsCons_wf {a : Nat} {v : Byte} {cs : List Host.Cell} (hw : CellsWf cs) (h : ∀ c ∈ cs, a < c.1) :
    CellsWf (cellsCons a v cs) := by
  unfold cellsCons
  split
  · exact hw
  · next e =>
    refine ⟨List.pairwise_cons.mpr ⟨h, hw.1⟩, fun c hc => ?_⟩
    rcases List.mem_cons.mp hc with rfl | hc
    · exact e
    · exact hw.2 c hc

theorem cellsWrite_wf {cs : List Host.Cell} (hw : CellsWf cs) (a : Nat) (v : Byte) : CellsWf (cellsWrite cs a v) := by
  induction cs with
  | nil => exact cellsCons_wf hw (by simp)
  | cons c cs ih =>
    have hc := (List.pairwise_cons.mp hw.1).1
    have ht := cellsWf_tail hw
    rw [cellsWrite]
    by_cases l : a < c.1
    · rw [if_pos l]
      refine cellsCons_wf hw fun d hd => ?_
      rcases List.mem_cons.mp hd with rfl | hd
      · exact l
      · exact l.trans (hc d hd)
    rw [if_neg l]
    by_cases e : a = c.1
    · rw [if_pos e]
      exact cellsCons_wf ht (e ▸ hc)
    · rw [if_neg e]
      refine ⟨List.pairwise_cons.mpr ⟨fun d hd => ?_, (ih ht).1⟩, fun d hd => ?_⟩
      · rcases cellsWrite_mem hd with rfl | hd
        · simp only; omega
        · exact hc d hd
      · rcases List.mem_cons.mp hd with rfl | hd
        · exact hw.2 _ List.mem_cons_self
        · exact (ih ht).2 d hd

/-! ## Memory -/

/-- The memory of `State.reset` is in canonical form. -/
theorem reset_memory_wf : State.reset.hart.mem.wf := ⟨List.Pairwise.nil, fun _ hc => nomatch hc⟩

theorem Memory.empty_wf : (Memory.mk []).wf := ⟨List.Pairwise.nil, fun _ hc => nomatch hc⟩

/-- A read after a write: the byte written, and every other byte as before. -/
theorem Memory.read_write {m : Memory} (hm : m.wf) (a b : Nat) (v : Byte) :
    (m.write a v).read b = if b = a then v else m.read b :=
  cellsRead_write hm.1 a b v

theorem Memory.write_wf {m : Memory} (hm : m.wf) (a : Nat) (v : Byte) : (m.write a v).wf := cellsWrite_wf hm a v

/-- Every write keeps the canonical form. -/
theorem Memory.writeAll_wf {m : Memory} (hm : m.wf) (cs : List Host.Cell) : (m.writeAll cs).wf := by
  induction cs generalizing m with
  | nil => exact hm
  | cons c cs ih => exact ih (m.write_wf hm c.1 c.2)

/-- A byte that a list of cells does not name is as before. -/
theorem Memory.read_writeAll_other {m : Memory} (hm : m.wf) {cs : List Host.Cell} {b : Nat} (h : ∀ c ∈ cs, b ≠ c.1) :
    (m.writeAll cs).read b = m.read b := by
  induction cs generalizing m with
  | nil => rfl
  | cons c cs ih =>
    rw [Memory.writeAll, ih (m.write_wf hm c.1 c.2) fun d hd => h d (List.mem_cons_of_mem _ hd),
      Memory.read_write hm, if_neg (h c List.mem_cons_self)]

/-- A cell of a list that names each address once is what its address reads as afterwards. -/
theorem Memory.read_writeAll_same {m : Memory} (hm : m.wf) {cs : List Host.Cell} (hn : (cs.map Prod.fst).Nodup)
    {c : Host.Cell} (hc : c ∈ cs) : (m.writeAll cs).read c.1 = c.2 := by
  induction cs generalizing m with
  | nil => cases hc
  | cons d cs ih =>
    obtain ⟨hd, hn⟩ := List.nodup_cons.mp hn
    rcases List.mem_cons.mp hc with rfl | hc
    · rw [Memory.writeAll, Memory.read_writeAll_other (m.write_wf hm _ _), Memory.read_write hm, if_pos rfl]
      exact fun e he q => hd (q ▸ List.mem_map_of_mem he)
    · exact ih (m.write_wf hm _ _) hn hc

/-- Writing lists no address but those written and those listed before. -/
theorem Memory.writeAll_mem {m : Memory} {cs : List Host.Cell} {c : Host.Cell} (hc : c ∈ (m.writeAll cs).cells) :
    c ∈ cs ∨ c ∈ m.cells := by
  induction cs generalizing m with
  | nil => exact .inr hc
  | cons d cs ih =>
    rcases ih hc with hc | hc
    · exact .inl (List.mem_cons_of_mem _ hc)
    · rcases cellsWrite_mem hc with rfl | hc
      · exact .inl List.mem_cons_self
      · exact .inr hc

/-! ## The set of written addresses -/

@[simp] theorem mem_addrInsert {l : List Nat} {a b : Nat} : b ∈ addrInsert l a ↔ b = a ∨ b ∈ l := by
  induction l with
  | nil => simp [addrInsert]
  | cons c l ih =>
    rw [addrInsert]
    split
    · simp
    · split
      · next e => simp [e]
      · simp only [List.mem_cons, ih]; tauto

@[simp] theorem mem_addrInsertAll {l as : List Nat} {b : Nat} : b ∈ addrInsertAll l as ↔ b ∈ l ∨ b ∈ as := by
  induction as generalizing l with
  | nil => simp [addrInsertAll]
  | cons a as ih => rw [addrInsertAll, ih, mem_addrInsert, List.mem_cons]; tauto

theorem addrInsert_rising {l : List Nat} (hl : l.Pairwise (· < ·)) (a : Nat) : (addrInsert l a).Pairwise (· < ·) := by
  induction l with
  | nil => simp [addrInsert]
  | cons c l ih =>
    have hc := (List.pairwise_cons.mp hl).1
    rw [addrInsert]
    split
    · next lt =>
      refine List.pairwise_cons.mpr ⟨fun d hd => ?_, hl⟩
      rcases List.mem_cons.mp hd with rfl | hd
      · exact lt
      · exact lt.trans (hc d hd)
    · split
      · exact hl
      · refine List.pairwise_cons.mpr ⟨fun d hd => ?_, ih hl.of_cons⟩
        rcases mem_addrInsert.mp hd with rfl | hd
        · omega
        · exact hc d hd

theorem addrInsertAll_rising {l : List Nat} (hl : l.Pairwise (· < ·)) (as : List Nat) :
    (addrInsertAll l as).Pairwise (· < ·) := by
  induction as generalizing l with
  | nil => exact hl
  | cons a as ih => exact ih (addrInsert_rising hl a)

end Sys2Proof.Machine
end

