-- ==== Sys2Proof/Laws/State.lean ====
section
/-! SUPPORT. One lemma per field of the hart for every update, so that no proof unfolds an update; and the laws of the
registers (R20, R21). -/

namespace Sys2Proof.Machine

variable {w : Nat} (h : Hart w)

/-! ## Fields -/

@[simp] theorem Hart.setPc_platform (t : BitVec w) : (h.setPc t).platform = h.platform := rfl
@[simp] theorem Hart.setPc_regs (t : BitVec w) : (h.setPc t).regs = h.regs := rfl
@[simp] theorem Hart.setPc_pc (t : BitVec w) : (h.setPc t).pc = t := rfl
@[simp] theorem Hart.setPc_reservation (t : BitVec w) : (h.setPc t).reservation = h.reservation := rfl
@[simp] theorem Hart.setPc_mem (t : BitVec w) : (h.setPc t).mem = h.mem := rfl
@[simp] theorem Hart.setPc_written (t : BitVec w) : (h.setPc t).written = h.written := rfl
@[simp] theorem Hart.setPc_outcome (t : BitVec w) : (h.setPc t).outcome = h.outcome := rfl
@[simp] theorem Hart.setPc_handler (t : BitVec w) : (h.setPc t).handler = h.handler := rfl
@[simp] theorem Hart.setPc_draws (t : BitVec w) : (h.setPc t).draws = h.draws := rfl

@[simp] theorem Hart.raise_platform (f : Fault) : (h.raise f).platform = h.platform := rfl
@[simp] theorem Hart.raise_regs (f : Fault) : (h.raise f).regs = h.regs := rfl
@[simp] theorem Hart.raise_pc (f : Fault) : (h.raise f).pc = h.pc := rfl
@[simp] theorem Hart.raise_reservation (f : Fault) : (h.raise f).reservation = h.reservation := rfl
@[simp] theorem Hart.raise_mem (f : Fault) : (h.raise f).mem = h.mem := rfl
@[simp] theorem Hart.raise_written (f : Fault) : (h.raise f).written = h.written := rfl
@[simp] theorem Hart.raise_outcome (f : Fault) : (h.raise f).outcome = .raised f := rfl
@[simp] theorem Hart.raise_handler (f : Fault) : (h.raise f).handler = h.handler := rfl
@[simp] theorem Hart.raise_draws (f : Fault) : (h.raise f).draws = h.draws := rfl

@[simp] theorem Hart.setReservation_platform (r : Option (Reservation w)) : (h.setReservation r).platform = h.platform := rfl
@[simp] theorem Hart.setReservation_regs (r : Option (Reservation w)) : (h.setReservation r).regs = h.regs := rfl
@[simp] theorem Hart.setReservation_pc (r : Option (Reservation w)) : (h.setReservation r).pc = h.pc := rfl
@[simp] theorem Hart.setReservation_reservation (r : Option (Reservation w)) : (h.setReservation r).reservation = r := rfl
@[simp] theorem Hart.setReservation_mem (r : Option (Reservation w)) : (h.setReservation r).mem = h.mem := rfl
@[simp] theorem Hart.setReservation_written (r : Option (Reservation w)) : (h.setReservation r).written = h.written := rfl
@[simp] theorem Hart.setReservation_outcome (r : Option (Reservation w)) : (h.setReservation r).outcome = h.outcome := rfl
@[simp] theorem Hart.setReservation_handler (r : Option (Reservation w)) : (h.setReservation r).handler = h.handler := rfl
@[simp] theorem Hart.setReservation_draws (r : Option (Reservation w)) : (h.setReservation r).draws = h.draws := rfl

@[simp] theorem Hart.writeValue_platform (a : BitVec w) (n : Nat) (v : BitVec (8 * n)) : (h.writeValue a n v).platform = h.platform := rfl
@[simp] theorem Hart.writeValue_regs (a : BitVec w) (n : Nat) (v : BitVec (8 * n)) : (h.writeValue a n v).regs = h.regs := rfl
@[simp] theorem Hart.writeValue_pc (a : BitVec w) (n : Nat) (v : BitVec (8 * n)) : (h.writeValue a n v).pc = h.pc := rfl
@[simp] theorem Hart.writeValue_reservation (a : BitVec w) (n : Nat) (v : BitVec (8 * n)) : (h.writeValue a n v).reservation = h.reservation := rfl
@[simp] theorem Hart.writeValue_mem (a : BitVec w) (n : Nat) (v : BitVec (8 * n)) : (h.writeValue a n v).mem = h.mem.writeAll (cellsOf a n v) := rfl
@[simp] theorem Hart.writeValue_written (a : BitVec w) (n : Nat) (v : BitVec (8 * n)) : (h.writeValue a n v).written = addrInsertAll h.written (span a n) := rfl
@[simp] theorem Hart.writeValue_outcome (a : BitVec w) (n : Nat) (v : BitVec (8 * n)) : (h.writeValue a n v).outcome = h.outcome := rfl
@[simp] theorem Hart.writeValue_handler (a : BitVec w) (n : Nat) (v : BitVec (8 * n)) : (h.writeValue a n v).handler = h.handler := rfl
@[simp] theorem Hart.writeValue_draws (a : BitVec w) (n : Nat) (v : BitVec (8 * n)) : (h.writeValue a n v).draws = h.draws := rfl

@[simp] theorem Hart.advance_platform  : (h.advance).platform = h.platform := rfl
@[simp] theorem Hart.advance_regs  : (h.advance).regs = h.regs := rfl
@[simp] theorem Hart.advance_pc  : (h.advance).pc = h.pc + 4 := rfl
@[simp] theorem Hart.advance_reservation  : (h.advance).reservation = h.reservation := rfl
@[simp] theorem Hart.advance_mem  : (h.advance).mem = h.mem := rfl
@[simp] theorem Hart.advance_written  : (h.advance).written = h.written := rfl
@[simp] theorem Hart.advance_outcome  : (h.advance).outcome = h.outcome := rfl
@[simp] theorem Hart.advance_handler  : (h.advance).handler = h.handler := rfl
@[simp] theorem Hart.advance_draws  : (h.advance).draws = h.draws := rfl

@[simp] theorem Hart.resume_platform (regs : Vector (BitVec w) 31) (pc : BitVec w) (bytes : List Host.Cell) (keep : Bool) :
    (h.resume regs pc bytes keep).platform = h.platform := rfl
@[simp] theorem Hart.resume_regs (regs : Vector (BitVec w) 31) (pc : BitVec w) (bytes : List Host.Cell) (keep : Bool) :
    (h.resume regs pc bytes keep).regs = regs := rfl
@[simp] theorem Hart.resume_pc (regs : Vector (BitVec w) 31) (pc : BitVec w) (bytes : List Host.Cell) (keep : Bool) :
    (h.resume regs pc bytes keep).pc = pc := rfl
@[simp] theorem Hart.resume_reservation (regs : Vector (BitVec w) 31) (pc : BitVec w) (bytes : List Host.Cell) (keep : Bool) :
    (h.resume regs pc bytes keep).reservation = if keep then h.reservation else none := rfl
@[simp] theorem Hart.resume_mem (regs : Vector (BitVec w) 31) (pc : BitVec w) (bytes : List Host.Cell) (keep : Bool) :
    (h.resume regs pc bytes keep).mem = h.mem.writeAll (h.platform.existingCells w bytes) := rfl
@[simp] theorem Hart.resume_outcome (regs : Vector (BitVec w) 31) (pc : BitVec w) (bytes : List Host.Cell) (keep : Bool) :
    (h.resume regs pc bytes keep).outcome = h.outcome := rfl
@[simp] theorem Hart.resume_handler (regs : Vector (BitVec w) 31) (pc : BitVec w) (bytes : List Host.Cell) (keep : Bool) :
    (h.resume regs pc bytes keep).handler = h.handler := rfl
@[simp] theorem Hart.resume_draws (regs : Vector (BitVec w) 31) (pc : BitVec w) (bytes : List Host.Cell) (keep : Bool) :
    (h.resume regs pc bytes keep).draws = h.draws := rfl

@[simp] theorem Hart.setReg_platform (r : RegNum) (v : BitVec w) : (h.setReg r v).platform = h.platform := by
  unfold Hart.setReg; split <;> rfl
@[simp] theorem Hart.setReg_pc (r : RegNum) (v : BitVec w) : (h.setReg r v).pc = h.pc := by
  unfold Hart.setReg; split <;> rfl
@[simp] theorem Hart.setReg_reservation (r : RegNum) (v : BitVec w) : (h.setReg r v).reservation = h.reservation := by
  unfold Hart.setReg; split <;> rfl
@[simp] theorem Hart.setReg_mem (r : RegNum) (v : BitVec w) : (h.setReg r v).mem = h.mem := by
  unfold Hart.setReg; split <;> rfl
@[simp] theorem Hart.setReg_written (r : RegNum) (v : BitVec w) : (h.setReg r v).written = h.written := by
  unfold Hart.setReg; split <;> rfl
@[simp] theorem Hart.setReg_outcome (r : RegNum) (v : BitVec w) : (h.setReg r v).outcome = h.outcome := by
  unfold Hart.setReg; split <;> rfl
@[simp] theorem Hart.setReg_handler (r : RegNum) (v : BitVec w) : (h.setReg r v).handler = h.handler := by
  unfold Hart.setReg; split <;> rfl
@[simp] theorem Hart.setReg_draws (r : RegNum) (v : BitVec w) : (h.setReg r v).draws = h.draws := by
  unfold Hart.setReg; split <;> rfl

@[simp] theorem Hart.countDraw_platform (b : Bool) : (h.countDraw b).platform = h.platform := by
  unfold Hart.countDraw; split <;> rfl
@[simp] theorem Hart.countDraw_regs (b : Bool) : (h.countDraw b).regs = h.regs := by
  unfold Hart.countDraw; split <;> rfl
@[simp] theorem Hart.countDraw_pc (b : Bool) : (h.countDraw b).pc = h.pc := by
  unfold Hart.countDraw; split <;> rfl
@[simp] theorem Hart.countDraw_reservation (b : Bool) : (h.countDraw b).reservation = h.reservation := by
  unfold Hart.countDraw; split <;> rfl
@[simp] theorem Hart.countDraw_mem (b : Bool) : (h.countDraw b).mem = h.mem := by
  unfold Hart.countDraw; split <;> rfl
@[simp] theorem Hart.countDraw_written (b : Bool) : (h.countDraw b).written = h.written := by
  unfold Hart.countDraw; split <;> rfl
@[simp] theorem Hart.countDraw_outcome (b : Bool) : (h.countDraw b).outcome = h.outcome := by
  unfold Hart.countDraw; split <;> rfl
@[simp] theorem Hart.countDraw_handler (b : Bool) : (h.countDraw b).handler = h.handler := by
  unfold Hart.countDraw; split <;> rfl

@[simp] theorem Hart.writeNext_platform (r : RegNum) (v : BitVec w) : (h.writeNext r v).platform = h.platform := by
  simp [Hart.writeNext]
@[simp] theorem Hart.writeNext_pc (r : RegNum) (v : BitVec w) : (h.writeNext r v).pc = h.pc + 4 := by
  simp [Hart.writeNext]
@[simp] theorem Hart.writeNext_reservation (r : RegNum) (v : BitVec w) : (h.writeNext r v).reservation = h.reservation := by
  simp [Hart.writeNext]
@[simp] theorem Hart.writeNext_mem (r : RegNum) (v : BitVec w) : (h.writeNext r v).mem = h.mem := by
  simp [Hart.writeNext]
@[simp] theorem Hart.writeNext_written (r : RegNum) (v : BitVec w) : (h.writeNext r v).written = h.written := by
  simp [Hart.writeNext]
@[simp] theorem Hart.writeNext_outcome (r : RegNum) (v : BitVec w) : (h.writeNext r v).outcome = h.outcome := by
  simp [Hart.writeNext]
@[simp] theorem Hart.writeNext_handler (r : RegNum) (v : BitVec w) : (h.writeNext r v).handler = h.handler := by
  simp [Hart.writeNext]
@[simp] theorem Hart.writeNext_draws (r : RegNum) (v : BitVec w) : (h.writeNext r v).draws = h.draws := by
  simp [Hart.writeNext]

/-! ## Registers -/

/-- x0 reads as zero (R21). -/
@[simp] theorem Hart.reg_zero : h.reg 0#5 = 0#w := rfl

/-- What a register reads is decided by the registers alone. -/
theorem Hart.reg_congr {h h' : Hart w} (e : h'.regs = h.regs) (r : RegNum) : h'.reg r = h.reg r := by
  unfold Hart.reg; rw [e]

@[simp] theorem Hart.setPc_reg (t : BitVec w) (r : RegNum) : (h.setPc t).reg r = h.reg r := rfl
@[simp] theorem Hart.advance_reg (r : RegNum) : h.advance.reg r = h.reg r := rfl
@[simp] theorem Hart.raise_reg (f : Fault) (r : RegNum) : (h.raise f).reg r = h.reg r := rfl
@[simp] theorem Hart.setReservation_reg (o : Option (Reservation w)) (r : RegNum) :
    (h.setReservation o).reg r = h.reg r := rfl
@[simp] theorem Hart.writeValue_reg (a : BitVec w) (n : Nat) (v : BitVec (8 * n)) (r : RegNum) :
    (h.writeValue a n v).reg r = h.reg r := rfl
@[simp] theorem Hart.countDraw_reg (b : Bool) (r : RegNum) : (h.countDraw b).reg r = h.reg r :=
  Hart.reg_congr (h.countDraw_regs b) r

/-- A write of `x[rd]` is seen by reads of `rd`, and by no other, and not when `rd` is x0 (R21). -/
@[simp] theorem Hart.reg_setReg (rd r : RegNum) (v : BitVec w) :
    (h.setReg rd v).reg r = if r = rd ∧ r ≠ 0 then v else h.reg r := by
  have hr := r.isLt
  have hd := rd.isLt
  have nz : ∀ q : RegNum, q ≠ 0 → q.toNat ≠ 0 := fun q n e => n (BitVec.eq_of_toNat_eq (by simpa using e))
  unfold Hart.setReg Hart.reg
  by_cases h0 : r = 0
  · simp only [if_pos h0]
    exact (if_neg fun q => q.2 h0).symm
  have r0 := nz r h0
  simp only [if_neg h0]
  by_cases hd0 : rd = 0
  · simp only [if_pos hd0]
    exact (if_neg fun q => h0 (q.1.trans hd0)).symm
  have d0 := nz rd hd0
  simp only [if_neg hd0]
  by_cases e : r = rd
  · subst e
    exact (Vector.getElem_set_self ..).trans (if_pos ⟨rfl, h0⟩).symm
  · have ne : rd.toNat - 1 ≠ r.toNat - 1 := fun q => e (BitVec.eq_of_toNat_eq (by omega))
    exact (Vector.getElem_set_ne _ _ ne).trans (if_neg fun q => e q.1).symm

@[simp] theorem Hart.writeNext_reg (rd r : RegNum) (v : BitVec w) :
    (h.writeNext rd v).reg r = if r = rd ∧ r ≠ 0 then v else h.reg r := by
  simp [Hart.writeNext]

/-- Raising changes the outcome alone (R306). -/
theorem Hart.raise_eq (f : Fault) : h.raise f = { h with outcome := .raised f } := rfl

end Sys2Proof.Machine
end

