-- ==== Sys2Proof/Laws/Access.lean ====
section
/-! SUPPORT. What each shared operation can do, said once: the checks of an access, the value it reads, the bytes it writes, and the
operations that instructions are made of. -/

namespace Sys2Proof.Machine

variable {w : Nat} {h : Hart w}

/-! ## Addresses -/

theorem toNat_add_byte (a : BitVec w) (k : Nat) : (a + BitVec.ofNat w k).toNat = byteAddr a k := by
  simp [byteAddr]

theorem span_eq (a : BitVec w) (n : Nat) : span a n = (List.range n).map (byteAddr a) := by
  simp only [span, toNat_add_byte]

theorem mem_span {a : BitVec w} {n b : Nat} : b ∈ span a n ↔ ∃ k, k < n ∧ b = byteAddr a k := by
  simp only [span_eq, List.mem_map, List.mem_range, eq_comm]

theorem byteAddr_lt (a : BitVec w) (k : Nat) : byteAddr a k < 2 ^ w := Nat.mod_lt _ (Nat.two_pow_pos w)

/-- The bytes of an access have different addresses. -/
theorem byteAddr_inj {a : BitVec w} {n j k : Nat} (hn : n ≤ 2 ^ w) (hj : j < n) (hk : k < n)
    (e : byteAddr a j = byteAddr a k) : j = k := by
  unfold byteAddr at e
  have := Nat.ModEq.add_left_cancel' a.toNat (show a.toNat + j ≡ a.toNat + k [MOD 2 ^ w] from e)
  rwa [Nat.ModEq, Nat.mod_eq_of_lt (by omega), Nat.mod_eq_of_lt (by omega)] at this

theorem span_nodup (a : BitVec w) {n : Nat} (hn : n ≤ 2 ^ w) : (span a n).Nodup := by
  rw [span_eq]
  refine List.Nodup.map_on (fun j hj k hk e => ?_) List.nodup_range
  exact byteAddr_inj hn (List.mem_range.mp hj) (List.mem_range.mp hk) e

/-! ## Checks -/

theorem allows_iff (p : Platform) (k : Access) (a : Nat) :
    p.allows k a = true ↔ p.backed a = true ∧ (p.perm a).grants k = true := by
  simp [Platform.allows]

theorem allowsAll_iff (k : Access) (a : BitVec w) (n : Nat) : h.allowsAll k a n = true ↔ Permitted h k a n := by
  simp only [Hart.allowsAll, List.all_eq_true, mem_span, Permitted, allows_iff]
  exact ⟨fun q j hj => q _ ⟨j, hj, rfl⟩, fun q b ⟨j, hj, e⟩ => e ▸ q j hj⟩

@[simp] theorem aligned_iff (a : BitVec w) (n : Nat) : aligned a n = true ↔ a.toNat % n = 0 := by simp [aligned]

theorem alignmentOk_ordinary (a : BitVec w) (n : Nat) : h.alignmentOk false a n = true ↔ AlignedOrSplit h a n := by
  simp [Hart.alignmentOk, AlignedOrSplit]

theorem alignmentOk_strict (a : BitVec w) (n : Nat) : h.alignmentOk true a n = true ↔ a.toNat % n = 0 := by
  simp [Hart.alignmentOk]

/-- Everything the checks of a load can answer. -/
theorem loadFault_cases (strict : Bool) (a : BitVec w) (n : Nat) :
    (h.alignmentOk strict a n = false ∧ h.loadFault strict a n = some (.loadAddressMisaligned a.toNat)) ∨
    (h.alignmentOk strict a n = true ∧ ¬ Permitted h .read a n ∧
      h.loadFault strict a n = some (.loadAccessFault a.toNat)) ∨
    (h.alignmentOk strict a n = true ∧ Permitted h .read a n ∧ h.loadFault strict a n = none) := by
  unfold Hart.loadFault
  rw [← allowsAll_iff]
  cases h.alignmentOk strict a n <;> cases h.allowsAll .read a n <;> simp

/-- Everything the checks of a store can answer. -/
theorem storeFault_cases (strict : Bool) (a : BitVec w) (n : Nat) :
    (h.alignmentOk strict a n = false ∧ h.storeFault strict a n = some (.storeAddressMisaligned a.toNat)) ∨
    (h.alignmentOk strict a n = true ∧ ¬ Permitted h .write a n ∧
      h.storeFault strict a n = some (.storeAccessFault a.toNat)) ∨
    (h.alignmentOk strict a n = true ∧ Permitted h .write a n ∧ h.storeFault strict a n = none) := by
  unfold Hart.storeFault
  rw [← allowsAll_iff]
  cases h.alignmentOk strict a n <;> cases h.allowsAll .write a n <;> simp

/-! ## The value of an access -/

theorem leNat_append (l : List Byte) (b : Byte) : leNat (l ++ [b]) = leNat l + b.toNat * 2 ^ (8 * l.length) := by
  induction l with
  | nil => simp [leNat]
  | cons c l ih => simp only [List.cons_append, leNat, ih, List.length_cons, Nat.mul_add, Nat.pow_add]; ring

theorem leNat_span (h : Hart w) (a : BitVec w) (n : Nat) : leNat ((span a n).map h.mem.read) = bytesNat h a n := by
  rw [span_eq]
  induction n with
  | zero => rfl
  | succ n ih =>
    rw [List.range_succ, List.map_append, List.map_append, List.map_singleton, List.map_singleton, leNat_append, ih]
    simp [bytesNat]

theorem bytesNat_lt (h : Hart w) (a : BitVec w) (n : Nat) : bytesNat h a n < 2 ^ (8 * n) := by
  induction n with
  | zero => simp [bytesNat]
  | succ n ih =>
    have hb := (h.mem.read (byteAddr a n)).isLt
    have e : 2 ^ (8 * (n + 1)) = 256 * 2 ^ (8 * n) := by rw [Nat.mul_add, Nat.pow_add]; ring
    rw [bytesNat, e]
    nlinarith [Nat.two_pow_pos (8 * n)]

/-- The value read is the little-endian number of its bytes (R50). -/
@[simp] theorem readValue_toNat (h : Hart w) (a : BitVec w) (n : Nat) : (h.readValue a n).toNat = bytesNat h a n := by
  rw [Hart.readValue, leNat_span, BitVec.toNat_ofNat, Nat.mod_eq_of_lt (bytesNat_lt h a n)]

theorem readValue_zeroExtend (h : Hart w) (a : BitVec w) (n v : Nat) :
    (h.readValue a n).setWidth v = BitVec.ofNat v (bytesNat h a n) :=
  BitVec.eq_of_toNat_eq (by simp)

theorem readValue_toInt (h : Hart w) (a : BitVec w) {n : Nat} (hn : 0 < n) :
    (h.readValue a n).toInt = bytesInt h a n := by
  have e : 2 ^ (8 * n) = 2 * 2 ^ (8 * n - 1) := by rw [← Nat.pow_succ']; congr 1; omega
  rw [BitVec.toInt, readValue_toNat, bytesInt, e]
  by_cases q : bytesNat h a n < 2 ^ (8 * n - 1)
  · rw [if_pos (by omega), if_pos q]
  · rw [if_neg (by omega), if_neg q, ← e]; push_cast; ring

theorem readValue_signExtend (h : Hart w) (a : BitVec w) {n : Nat} (hn : 0 < n) (v : Nat) :
    (h.readValue a n).signExtend v = BitVec.ofInt v (bytesInt h a n) := by
  rw [BitVec.signExtend, readValue_toInt h a hn]

/-! ## The bytes of a store -/

theorem cellsOf_fst (a : BitVec w) (n : Nat) (v : BitVec (8 * n)) : (cellsOf a n v).map Prod.fst = span a n := by
  simp [cellsOf, span, Function.comp_def]

/-- What storing a value does to memory and to `written` (R50, R56). -/
theorem writeValue_stored (hm : h.mem.wf) (a : BitVec w) {n : Nat} (hn : n ≤ 2 ^ w) (v : BitVec w) :
    BytesStored h (h.writeValue a n (v.setWidth (8 * n))) a n v := by
  refine ⟨fun k hk => ?_, fun b hb => ?_, fun b => ?_⟩
  · have hc : (byteAddr a k, (v.setWidth (8 * n)).extractLsb' (8 * k) 8) ∈ cellsOf a n (v.setWidth (8 * n)) := by
      rw [← toNat_add_byte]
      exact List.mem_map_of_mem (f := fun k => ((a + BitVec.ofNat w k).toNat, _)) (List.mem_range.mpr hk)
    have := Memory.read_writeAll_same hm (by rw [cellsOf_fst]; exact span_nodup a hn) hc
    simp only [Hart.writeValue_mem, this]
    apply BitVec.eq_of_getLsbD_eq
    intro i hi
    rw [BitVec.getLsbD_extractLsb', BitVec.getLsbD_setWidth, BitVec.getLsbD_ofNat, Nat.testBit_div_two_pow,
      BitVec.testBit_toNat]
    have : 8 * k + i < 8 * n := by omega
    rw [Nat.add_comm i]
    simp [hi, this]
  · refine Memory.read_writeAll_other hm fun c hc e => ?_
    have : c.1 ∈ span a n := cellsOf_fst a n _ ▸ List.mem_map_of_mem hc
    obtain ⟨k, hk, q⟩ := mem_span.mp this
    exact hb k hk (e.trans q)
  · rw [Hart.writeValue_written, mem_addrInsertAll, mem_span]

/-! ## Operations -/

/-- What `writeNext` does, in the statements' terms. -/
theorem writeNext_regBecomes (h : Hart w) (rd : RegNum) (v : BitVec w) : RegBecomes h (h.writeNext rd v) rd v :=
  fun r => h.writeNext_reg rd r v

/-- Everything a load can do (R161). -/
theorem load_cases (h : Hart w) (rd : RegNum) (a : BitVec w) (n : Nat) (ext : BitVec (8 * n) → BitVec w) :
    (¬ AlignedOrSplit h a n ∧ h.load rd a n ext = h.raise (.loadAddressMisaligned a.toNat)) ∨
    (AlignedOrSplit h a n ∧ ¬ Permitted h .read a n ∧ h.load rd a n ext = h.raise (.loadAccessFault a.toNat)) ∨
    (AlignedOrSplit h a n ∧ Permitted h .read a n ∧ h.load rd a n ext = h.writeNext rd (ext (h.readValue a n))) := by
  unfold Hart.load
  rw [← alignmentOk_ordinary]
  rcases loadFault_cases (h := h) false a n with ⟨q, e⟩ | ⟨q, p, e⟩ | ⟨q, p, e⟩ <;> simp [*]

/-- Everything a store can do (R161). -/
theorem store_cases (h : Hart w) (a : BitVec w) (n : Nat) (v : BitVec w) :
    (¬ AlignedOrSplit h a n ∧ h.store a n v = h.raise (.storeAddressMisaligned a.toNat)) ∨
    (AlignedOrSplit h a n ∧ ¬ Permitted h .write a n ∧ h.store a n v = h.raise (.storeAccessFault a.toNat)) ∨
    (AlignedOrSplit h a n ∧ Permitted h .write a n ∧
      h.store a n v = (h.writeValue a n (v.setWidth (8 * n))).advance) := by
  unfold Hart.store
  rw [← alignmentOk_ordinary]
  rcases storeFault_cases (h := h) false a n with ⟨q, e⟩ | ⟨q, p, e⟩ | ⟨q, p, e⟩ <;> simp [*]

/-- Everything a control transfer can do (R181). -/
theorem jumpTo_cases (h : Hart w) (t : BitVec w) :
    (t.toNat % 4 = 0 ∧ h.jumpTo t = h.setPc t) ∨
    (t.toNat % 4 ≠ 0 ∧ h.jumpTo t = h.raise (.instructionAddressMisaligned t.toNat)) := by
  unfold Hart.jumpTo
  by_cases q : t.toNat % 4 = 0 <;> simp [aligned, q]

/-- Everything a jump that links can do (R188, R189). -/
theorem jumpLink_cases (h : Hart w) (rd : RegNum) (t : BitVec w) :
    (t.toNat % 4 = 0 ∧ h.jumpLink rd t = (h.setReg rd (h.pc + 4)).setPc t) ∨
    (t.toNat % 4 ≠ 0 ∧ h.jumpLink rd t = h.raise (.instructionAddressMisaligned t.toNat)) := by
  unfold Hart.jumpLink Hart.nextPc
  by_cases q : t.toNat % 4 = 0 <;> simp [aligned, q]

/-- Everything a branch can do (R180, R181). -/
theorem branch_cases (h : Hart w) (taken : Bool) (offset : BitVec 13) :
    (taken = false ∧ h.branch taken offset = h.advance) ∨
    (taken = true ∧ h.branch taken offset = h.jumpTo (h.pc + immB offset)) := by
  cases taken <;> simp [Hart.branch]

/-- Everything an environment transfer can do (R310). -/
theorem transfer_cases (h : Hart w) (k : EnvKind) :
    (∃ regs pc bytes keep, h.answer k = .resume regs pc bytes keep ∧ h.transfer k = h.resume regs pc bytes keep) ∨
    (h.answer k = .stop ∧ h.transfer k = h.raise (k.condition h.pc.toNat)) := by
  unfold Hart.transfer
  rcases h.answer k with _ | ⟨regs, pc, bytes, keep⟩
  · exact .inr ⟨rfl, rfl⟩
  · exact .inl ⟨regs, pc, bytes, keep, rfl, rfl⟩

/-- An answer of the table other than `stop` stands in one of its rows, for the kind and the state that were asked. -/
theorem handlerAnswer_mem {t : List (EnvRow w)} {k : EnvKind} {v : EnvView w} {a : EnvAnswer w}
    (e : handlerAnswer t k v = a) (ns : a ≠ .stop) : ({ kind := k, seen := v, answer := a } : EnvRow w) ∈ t := by
  induction t with
  | nil => exact absurd e.symm ns
  | cons r rs ih =>
    unfold handlerAnswer at e
    split at e
    · next q => obtain ⟨rfl, rfl⟩ := q; subst e; exact List.mem_cons_self ..
    · exact List.mem_cons_of_mem _ (ih e)

/-- A state that no row lists is answered `stop`. -/
theorem handlerAnswer_unlisted {t : List (EnvRow w)} {k : EnvKind} {v : EnvView w}
    (u : ∀ r ∈ t, ¬ (r.kind = k ∧ r.seen = v)) : handlerAnswer t k v = .stop := by
  induction t with
  | nil => rfl
  | cons r rs ih =>
    rw [handlerAnswer, if_neg (u r (List.mem_cons_self ..))]
    exact ih fun q m => u q (List.mem_cons_of_mem _ m)

/-- The cells that exist are those of the list in the address space and backed. -/
@[simp] theorem mem_existingCells {p : Platform} {bytes : List Host.Cell} {c : Host.Cell} :
    c ∈ p.existingCells w bytes ↔ c ∈ bytes ∧ c.1 < 2 ^ w ∧ p.backed c.1 = true := by
  simp [Platform.existingCells]

/-- Everything a load-reserved can do (R217 to R219). -/
theorem loadReserved_cases (h : Hart w) (rd : RegNum) (a : BitVec w) (sz : ReservedSize)
    (ext : BitVec (8 * sz.bytes) → BitVec w) :
    (a.toNat % sz.bytes ≠ 0 ∧ h.loadReserved rd a sz ext = h.raise (.loadAddressMisaligned a.toNat)) ∨
    (a.toNat % sz.bytes = 0 ∧ ¬ Permitted h .read a sz.bytes ∧
      h.loadReserved rd a sz ext = h.raise (.loadAccessFault a.toNat)) ∨
    (a.toNat % sz.bytes = 0 ∧ Permitted h .read a sz.bytes ∧
      h.loadReserved rd a sz ext =
        (h.setReservation (some { addr := a, size := sz })).writeNext rd (ext (h.readValue a sz.bytes))) := by
  unfold Hart.loadReserved
  rw [ne_eq, ← alignmentOk_strict (h := h)]
  rcases loadFault_cases (h := h) true a sz.bytes with ⟨q, e⟩ | ⟨q, p, e⟩ | ⟨q, p, e⟩ <;> simp [*]

/-- Everything a store-conditional can do (R217, R220, R221). -/
theorem storeConditional_cases (h : Hart w) (rd : RegNum) (a : BitVec w) (sz : ReservedSize) (v : BitVec w) :
    (a.toNat % sz.bytes ≠ 0 ∧ h.storeConditional rd a sz v = h.raise (.storeAddressMisaligned a.toNat)) ∨
    (a.toNat % sz.bytes = 0 ∧ ¬ Permitted h .write a sz.bytes ∧
      h.storeConditional rd a sz v = h.raise (.storeAccessFault a.toNat)) ∨
    (a.toNat % sz.bytes = 0 ∧ Permitted h .write a sz.bytes ∧ h.scSucceeds a sz = true ∧
      h.storeConditional rd a sz v =
        ((((h.countDraw (h.scDraws a sz)).setReservation none).writeValue a sz.bytes
          (v.setWidth (8 * sz.bytes))).writeNext rd 0)) ∨
    (a.toNat % sz.bytes = 0 ∧ Permitted h .write a sz.bytes ∧ h.scSucceeds a sz = false ∧
      h.storeConditional rd a sz v = ((h.countDraw (h.scDraws a sz)).setReservation none).writeNext rd 1) := by
  unfold Hart.storeConditional
  rw [ne_eq, ← alignmentOk_strict (h := h)]
  rcases storeFault_cases (h := h) true a sz.bytes with ⟨q, e⟩ | ⟨q, p, e⟩ | ⟨q, p, e⟩
  · simp [q, e]
  · simp [q, e, p]
  · cases ok : h.scSucceeds a sz <;> simp [q, e, p]

/-- When a store-conditional succeeds (R220). -/
theorem scSucceeds_cases (h : Hart w) (a : BitVec w) (sz : ReservedSize) :
    (h.reservation = none ∧ h.scSucceeds a sz = false) ∨
    (h.reservation = some { addr := a, size := sz } ∧
      h.scSucceeds a sz = !(h.platform.scMayFail && Config.scSpuriousFail h.draws)) ∨
    (∃ r, h.reservation = some r ∧ r ≠ { addr := a, size := sz } ∧
      h.scSucceeds a sz = Config.scOtherSucceeds h.draws) := by
  unfold Hart.scSucceeds
  rcases e : h.reservation with _ | r
  · exact .inl ⟨rfl, rfl⟩
  · by_cases q : r = { addr := a, size := sz }
    · exact .inr (.inl ⟨by rw [q], by simp [q]⟩)
    · exact .inr (.inr ⟨r, rfl, q, by simp [q]⟩)

/-- Everything a fetch can answer (R70). -/
theorem fetch_cases (h : Hart w) :
    (h.pc.toNat % 4 ≠ 0 ∧ h.fetch = .error (.instructionAddressMisaligned h.pc.toNat)) ∨
    (h.pc.toNat % 4 = 0 ∧ ¬ Permitted h .fetch h.pc 4 ∧ h.fetch = .error (.instructionAccessFault h.pc.toNat)) ∨
    (h.pc.toNat % 4 = 0 ∧ Permitted h .fetch h.pc 4 ∧ (∃ k, k < 4 ∧ byteAddr h.pc k ∈ h.written) ∧
      h.fetch = .error (.fetchAfterStore h.pc.toNat)) ∨
    (h.pc.toNat % 4 = 0 ∧ Permitted h .fetch h.pc 4 ∧ (¬ ∃ k, k < 4 ∧ byteAddr h.pc k ∈ h.written) ∧
      h.fetch = .ok (h.readValue h.pc 4)) := by
  have e : (span h.pc 4).any (fun a => decide (a ∈ h.written)) = true ↔ ∃ k, k < 4 ∧ byteAddr h.pc k ∈ h.written := by
    simp only [List.any_eq_true, mem_span, decide_eq_true_eq]
    exact ⟨fun ⟨_, ⟨k, hk, q⟩, hw⟩ => ⟨k, hk, q ▸ hw⟩, fun ⟨k, hk, hw⟩ => ⟨_, ⟨k, hk, rfl⟩, hw⟩⟩
  unfold Hart.fetch
  rw [ne_eq, ← e, ← allowsAll_iff, ← aligned_iff]
  cases aligned h.pc 4 <;> cases h.allowsAll .fetch h.pc 4 <;>
    cases (span h.pc 4).any (fun a => decide (a ∈ h.written)) <;> simp

end Sys2Proof.Machine
end

