-- ==== Sys2Proof/Laws/Decode.lean ====
section
/-! SUPPORT. The laws of encodings: every field of an encoded word is what was put there (R92 to R105), every word is the
encoding of its own fields, and a field that a mask fixes is read from the pattern (R110). -/

namespace Sys2Proof

/-- A bit of a slice is a bit of what the slice was cut from. -/
theorem bit_of_slice {n : Nat} (v : BitVec n) {i j k l : Nat} (h : k < l) (e : j = i) :
    (decide (k < l) && v.getLsbD j) = v.getLsbD i := by rw [decide_eq_true h, Bool.true_and, e]

/-! ## The fields of an encoded word -/

@[simp] theorem opcodeOf_encR (f7 : BitVec 7) (rs2 rs1 : BitVec 5) (f3 : BitVec 3) (rd : RegNum) (op : BitVec 7) : opcodeOf (encR f7 rs2 rs1 f3 rd op) = op := by
  unfold opcodeOf encR
  repeat first
    | rw [BitVec.extractLsb'_append_eq_of_le (by decide)]
    | rw [BitVec.extractLsb'_append_eq_of_add_le (by decide)]
  exact BitVec.extractLsb'_eq_self

@[simp] theorem rdOf_encR (f7 : BitVec 7) (rs2 rs1 : BitVec 5) (f3 : BitVec 3) (rd : RegNum) (op : BitVec 7) : rdOf (encR f7 rs2 rs1 f3 rd op) = rd := by
  unfold rdOf encR
  repeat first
    | rw [BitVec.extractLsb'_append_eq_of_le (by decide)]
    | rw [BitVec.extractLsb'_append_eq_of_add_le (by decide)]
  exact BitVec.extractLsb'_eq_self

@[simp] theorem funct3Of_encR (f7 : BitVec 7) (rs2 rs1 : BitVec 5) (f3 : BitVec 3) (rd : RegNum) (op : BitVec 7) : funct3Of (encR f7 rs2 rs1 f3 rd op) = f3 := by
  unfold funct3Of encR
  repeat first
    | rw [BitVec.extractLsb'_append_eq_of_le (by decide)]
    | rw [BitVec.extractLsb'_append_eq_of_add_le (by decide)]
  exact BitVec.extractLsb'_eq_self

@[simp] theorem rs1Of_encR (f7 : BitVec 7) (rs2 rs1 : BitVec 5) (f3 : BitVec 3) (rd : RegNum) (op : BitVec 7) : rs1Of (encR f7 rs2 rs1 f3 rd op) = rs1 := by
  unfold rs1Of encR
  repeat first
    | rw [BitVec.extractLsb'_append_eq_of_le (by decide)]
    | rw [BitVec.extractLsb'_append_eq_of_add_le (by decide)]
  exact BitVec.extractLsb'_eq_self

@[simp] theorem rs2Of_encR (f7 : BitVec 7) (rs2 rs1 : BitVec 5) (f3 : BitVec 3) (rd : RegNum) (op : BitVec 7) : rs2Of (encR f7 rs2 rs1 f3 rd op) = rs2 := by
  unfold rs2Of encR
  repeat first
    | rw [BitVec.extractLsb'_append_eq_of_le (by decide)]
    | rw [BitVec.extractLsb'_append_eq_of_add_le (by decide)]
  exact BitVec.extractLsb'_eq_self

@[simp] theorem shamt5Of_encR (f7 : BitVec 7) (rs2 rs1 : BitVec 5) (f3 : BitVec 3) (rd : RegNum) (op : BitVec 7) : shamt5Of (encR f7 rs2 rs1 f3 rd op) = rs2 := by
  unfold shamt5Of encR
  repeat first
    | rw [BitVec.extractLsb'_append_eq_of_le (by decide)]
    | rw [BitVec.extractLsb'_append_eq_of_add_le (by decide)]
  exact BitVec.extractLsb'_eq_self

@[simp] theorem funct7Of_encR (f7 : BitVec 7) (rs2 rs1 : BitVec 5) (f3 : BitVec 3) (rd : RegNum) (op : BitVec 7) : funct7Of (encR f7 rs2 rs1 f3 rd op) = f7 := by
  unfold funct7Of encR
  repeat first
    | rw [BitVec.extractLsb'_append_eq_of_le (by decide)]
    | rw [BitVec.extractLsb'_append_eq_of_add_le (by decide)]
  exact BitVec.extractLsb'_eq_self

@[simp] theorem opcodeOf_encI (imm : BitVec 12) (rs1 : RegNum) (f3 : BitVec 3) (rd : RegNum) (op : BitVec 7) : opcodeOf (encI imm rs1 f3 rd op) = op := by
  unfold opcodeOf encI
  repeat first
    | rw [BitVec.extractLsb'_append_eq_of_le (by decide)]
    | rw [BitVec.extractLsb'_append_eq_of_add_le (by decide)]
  exact BitVec.extractLsb'_eq_self

@[simp] theorem rdOf_encI (imm : BitVec 12) (rs1 : RegNum) (f3 : BitVec 3) (rd : RegNum) (op : BitVec 7) : rdOf (encI imm rs1 f3 rd op) = rd := by
  unfold rdOf encI
  repeat first
    | rw [BitVec.extractLsb'_append_eq_of_le (by decide)]
    | rw [BitVec.extractLsb'_append_eq_of_add_le (by decide)]
  exact BitVec.extractLsb'_eq_self

@[simp] theorem funct3Of_encI (imm : BitVec 12) (rs1 : RegNum) (f3 : BitVec 3) (rd : RegNum) (op : BitVec 7) : funct3Of (encI imm rs1 f3 rd op) = f3 := by
  unfold funct3Of encI
  repeat first
    | rw [BitVec.extractLsb'_append_eq_of_le (by decide)]
    | rw [BitVec.extractLsb'_append_eq_of_add_le (by decide)]
  exact BitVec.extractLsb'_eq_self

@[simp] theorem rs1Of_encI (imm : BitVec 12) (rs1 : RegNum) (f3 : BitVec 3) (rd : RegNum) (op : BitVec 7) : rs1Of (encI imm rs1 f3 rd op) = rs1 := by
  unfold rs1Of encI
  repeat first
    | rw [BitVec.extractLsb'_append_eq_of_le (by decide)]
    | rw [BitVec.extractLsb'_append_eq_of_add_le (by decide)]
  exact BitVec.extractLsb'_eq_self

@[simp] theorem immIOf_encI (imm : BitVec 12) (rs1 : RegNum) (f3 : BitVec 3) (rd : RegNum) (op : BitVec 7) : immIOf (encI imm rs1 f3 rd op) = imm := by
  unfold immIOf encI
  repeat first
    | rw [BitVec.extractLsb'_append_eq_of_le (by decide)]
    | rw [BitVec.extractLsb'_append_eq_of_add_le (by decide)]
  exact BitVec.extractLsb'_eq_self

@[simp] theorem opcodeOf_encSh6 (f6 : BitVec 6) (sh : BitVec 6) (rs1 : RegNum) (f3 : BitVec 3) (rd : RegNum) (op : BitVec 7) : opcodeOf (encSh6 f6 sh rs1 f3 rd op) = op := by
  unfold opcodeOf encSh6
  repeat first
    | rw [BitVec.extractLsb'_append_eq_of_le (by decide)]
    | rw [BitVec.extractLsb'_append_eq_of_add_le (by decide)]
  exact BitVec.extractLsb'_eq_self

@[simp] theorem rdOf_encSh6 (f6 : BitVec 6) (sh : BitVec 6) (rs1 : RegNum) (f3 : BitVec 3) (rd : RegNum) (op : BitVec 7) : rdOf (encSh6 f6 sh rs1 f3 rd op) = rd := by
  unfold rdOf encSh6
  repeat first
    | rw [BitVec.extractLsb'_append_eq_of_le (by decide)]
    | rw [BitVec.extractLsb'_append_eq_of_add_le (by decide)]
  exact BitVec.extractLsb'_eq_self

@[simp] theorem funct3Of_encSh6 (f6 : BitVec 6) (sh : BitVec 6) (rs1 : RegNum) (f3 : BitVec 3) (rd : RegNum) (op : BitVec 7) : funct3Of (encSh6 f6 sh rs1 f3 rd op) = f3 := by
  unfold funct3Of encSh6
  repeat first
    | rw [BitVec.extractLsb'_append_eq_of_le (by decide)]
    | rw [BitVec.extractLsb'_append_eq_of_add_le (by decide)]
  exact BitVec.extractLsb'_eq_self

@[simp] theorem rs1Of_encSh6 (f6 : BitVec 6) (sh : BitVec 6) (rs1 : RegNum) (f3 : BitVec 3) (rd : RegNum) (op : BitVec 7) : rs1Of (encSh6 f6 sh rs1 f3 rd op) = rs1 := by
  unfold rs1Of encSh6
  repeat first
    | rw [BitVec.extractLsb'_append_eq_of_le (by decide)]
    | rw [BitVec.extractLsb'_append_eq_of_add_le (by decide)]
  exact BitVec.extractLsb'_eq_self

@[simp] theorem shamt6Of_encSh6 (f6 : BitVec 6) (sh : BitVec 6) (rs1 : RegNum) (f3 : BitVec 3) (rd : RegNum) (op : BitVec 7) : shamt6Of (encSh6 f6 sh rs1 f3 rd op) = sh := by
  unfold shamt6Of encSh6
  repeat first
    | rw [BitVec.extractLsb'_append_eq_of_le (by decide)]
    | rw [BitVec.extractLsb'_append_eq_of_add_le (by decide)]
  exact BitVec.extractLsb'_eq_self

@[simp] theorem funct6Of_encSh6 (f6 : BitVec 6) (sh : BitVec 6) (rs1 : RegNum) (f3 : BitVec 3) (rd : RegNum) (op : BitVec 7) : funct6Of (encSh6 f6 sh rs1 f3 rd op) = f6 := by
  unfold funct6Of encSh6
  repeat first
    | rw [BitVec.extractLsb'_append_eq_of_le (by decide)]
    | rw [BitVec.extractLsb'_append_eq_of_add_le (by decide)]
  exact BitVec.extractLsb'_eq_self

@[simp] theorem opcodeOf_encS (imm : BitVec 12) (rs2 rs1 : RegNum) (f3 : BitVec 3) (op : BitVec 7) : opcodeOf (encS imm rs2 rs1 f3 op) = op := by
  unfold opcodeOf encS
  repeat first
    | rw [BitVec.extractLsb'_append_eq_of_le (by decide)]
    | rw [BitVec.extractLsb'_append_eq_of_add_le (by decide)]
  exact BitVec.extractLsb'_eq_self

@[simp] theorem funct3Of_encS (imm : BitVec 12) (rs2 rs1 : RegNum) (f3 : BitVec 3) (op : BitVec 7) : funct3Of (encS imm rs2 rs1 f3 op) = f3 := by
  unfold funct3Of encS
  repeat first
    | rw [BitVec.extractLsb'_append_eq_of_le (by decide)]
    | rw [BitVec.extractLsb'_append_eq_of_add_le (by decide)]
  exact BitVec.extractLsb'_eq_self

@[simp] theorem rs1Of_encS (imm : BitVec 12) (rs2 rs1 : RegNum) (f3 : BitVec 3) (op : BitVec 7) : rs1Of (encS imm rs2 rs1 f3 op) = rs1 := by
  unfold rs1Of encS
  repeat first
    | rw [BitVec.extractLsb'_append_eq_of_le (by decide)]
    | rw [BitVec.extractLsb'_append_eq_of_add_le (by decide)]
  exact BitVec.extractLsb'_eq_self

@[simp] theorem rs2Of_encS (imm : BitVec 12) (rs2 rs1 : RegNum) (f3 : BitVec 3) (op : BitVec 7) : rs2Of (encS imm rs2 rs1 f3 op) = rs2 := by
  unfold rs2Of encS
  repeat first
    | rw [BitVec.extractLsb'_append_eq_of_le (by decide)]
    | rw [BitVec.extractLsb'_append_eq_of_add_le (by decide)]
  exact BitVec.extractLsb'_eq_self

@[simp] theorem opcodeOf_encB (o : BitVec 13) (rs2 rs1 : RegNum) (f3 : BitVec 3) (op : BitVec 7) : opcodeOf (encB o rs2 rs1 f3 op) = op := by
  unfold opcodeOf encB
  repeat first
    | rw [BitVec.extractLsb'_append_eq_of_le (by decide)]
    | rw [BitVec.extractLsb'_append_eq_of_add_le (by decide)]
  exact BitVec.extractLsb'_eq_self

@[simp] theorem funct3Of_encB (o : BitVec 13) (rs2 rs1 : RegNum) (f3 : BitVec 3) (op : BitVec 7) : funct3Of (encB o rs2 rs1 f3 op) = f3 := by
  unfold funct3Of encB
  repeat first
    | rw [BitVec.extractLsb'_append_eq_of_le (by decide)]
    | rw [BitVec.extractLsb'_append_eq_of_add_le (by decide)]
  exact BitVec.extractLsb'_eq_self

@[simp] theorem rs1Of_encB (o : BitVec 13) (rs2 rs1 : RegNum) (f3 : BitVec 3) (op : BitVec 7) : rs1Of (encB o rs2 rs1 f3 op) = rs1 := by
  unfold rs1Of encB
  repeat first
    | rw [BitVec.extractLsb'_append_eq_of_le (by decide)]
    | rw [BitVec.extractLsb'_append_eq_of_add_le (by decide)]
  exact BitVec.extractLsb'_eq_self

@[simp] theorem rs2Of_encB (o : BitVec 13) (rs2 rs1 : RegNum) (f3 : BitVec 3) (op : BitVec 7) : rs2Of (encB o rs2 rs1 f3 op) = rs2 := by
  unfold rs2Of encB
  repeat first
    | rw [BitVec.extractLsb'_append_eq_of_le (by decide)]
    | rw [BitVec.extractLsb'_append_eq_of_add_le (by decide)]
  exact BitVec.extractLsb'_eq_self

@[simp] theorem opcodeOf_encJ (o : BitVec 21) (rd : RegNum) (op : BitVec 7) : opcodeOf (encJ o rd op) = op := by
  unfold opcodeOf encJ
  repeat first
    | rw [BitVec.extractLsb'_append_eq_of_le (by decide)]
    | rw [BitVec.extractLsb'_append_eq_of_add_le (by decide)]
  exact BitVec.extractLsb'_eq_self

@[simp] theorem rdOf_encJ (o : BitVec 21) (rd : RegNum) (op : BitVec 7) : rdOf (encJ o rd op) = rd := by
  unfold rdOf encJ
  repeat first
    | rw [BitVec.extractLsb'_append_eq_of_le (by decide)]
    | rw [BitVec.extractLsb'_append_eq_of_add_le (by decide)]
  exact BitVec.extractLsb'_eq_self

@[simp] theorem opcodeOf_encU (immu : BitVec 20) (rd : RegNum) (op : BitVec 7) : opcodeOf (encU immu rd op) = op := by
  unfold opcodeOf encU
  repeat first
    | rw [BitVec.extractLsb'_append_eq_of_le (by decide)]
    | rw [BitVec.extractLsb'_append_eq_of_add_le (by decide)]
  exact BitVec.extractLsb'_eq_self

@[simp] theorem rdOf_encU (immu : BitVec 20) (rd : RegNum) (op : BitVec 7) : rdOf (encU immu rd op) = rd := by
  unfold rdOf encU
  repeat first
    | rw [BitVec.extractLsb'_append_eq_of_le (by decide)]
    | rw [BitVec.extractLsb'_append_eq_of_add_le (by decide)]
  exact BitVec.extractLsb'_eq_self

@[simp] theorem immUOf_encU (immu : BitVec 20) (rd : RegNum) (op : BitVec 7) : immUOf (encU immu rd op) = immu := by
  unfold immUOf encU
  repeat first
    | rw [BitVec.extractLsb'_append_eq_of_le (by decide)]
    | rw [BitVec.extractLsb'_append_eq_of_add_le (by decide)]
  exact BitVec.extractLsb'_eq_self

@[simp] theorem opcodeOf_encA (f5 : BitVec 5) (aq rl : Bool) (rs2 rs1 : RegNum) (f3 : BitVec 3) (rd : RegNum) (op : BitVec 7) : opcodeOf (encA f5 aq rl rs2 rs1 f3 rd op) = op := by
  unfold opcodeOf encA
  repeat first
    | rw [BitVec.extractLsb'_append_eq_of_le (by decide)]
    | rw [BitVec.extractLsb'_append_eq_of_add_le (by decide)]
  exact BitVec.extractLsb'_eq_self

@[simp] theorem rdOf_encA (f5 : BitVec 5) (aq rl : Bool) (rs2 rs1 : RegNum) (f3 : BitVec 3) (rd : RegNum) (op : BitVec 7) : rdOf (encA f5 aq rl rs2 rs1 f3 rd op) = rd := by
  unfold rdOf encA
  repeat first
    | rw [BitVec.extractLsb'_append_eq_of_le (by decide)]
    | rw [BitVec.extractLsb'_append_eq_of_add_le (by decide)]
  exact BitVec.extractLsb'_eq_self

@[simp] theorem funct3Of_encA (f5 : BitVec 5) (aq rl : Bool) (rs2 rs1 : RegNum) (f3 : BitVec 3) (rd : RegNum) (op : BitVec 7) : funct3Of (encA f5 aq rl rs2 rs1 f3 rd op) = f3 := by
  unfold funct3Of encA
  repeat first
    | rw [BitVec.extractLsb'_append_eq_of_le (by decide)]
    | rw [BitVec.extractLsb'_append_eq_of_add_le (by decide)]
  exact BitVec.extractLsb'_eq_self

@[simp] theorem rs1Of_encA (f5 : BitVec 5) (aq rl : Bool) (rs2 rs1 : RegNum) (f3 : BitVec 3) (rd : RegNum) (op : BitVec 7) : rs1Of (encA f5 aq rl rs2 rs1 f3 rd op) = rs1 := by
  unfold rs1Of encA
  repeat first
    | rw [BitVec.extractLsb'_append_eq_of_le (by decide)]
    | rw [BitVec.extractLsb'_append_eq_of_add_le (by decide)]
  exact BitVec.extractLsb'_eq_self

@[simp] theorem rs2Of_encA (f5 : BitVec 5) (aq rl : Bool) (rs2 rs1 : RegNum) (f3 : BitVec 3) (rd : RegNum) (op : BitVec 7) : rs2Of (encA f5 aq rl rs2 rs1 f3 rd op) = rs2 := by
  unfold rs2Of encA
  repeat first
    | rw [BitVec.extractLsb'_append_eq_of_le (by decide)]
    | rw [BitVec.extractLsb'_append_eq_of_add_le (by decide)]
  exact BitVec.extractLsb'_eq_self

@[simp] theorem funct5Of_encA (f5 : BitVec 5) (aq rl : Bool) (rs2 rs1 : RegNum) (f3 : BitVec 3) (rd : RegNum) (op : BitVec 7) : funct5Of (encA f5 aq rl rs2 rs1 f3 rd op) = f5 := by
  unfold funct5Of encA
  repeat first
    | rw [BitVec.extractLsb'_append_eq_of_le (by decide)]
    | rw [BitVec.extractLsb'_append_eq_of_add_le (by decide)]
  exact BitVec.extractLsb'_eq_self

@[simp] theorem aqOf_encA (f5 : BitVec 5) (aq rl : Bool) (rs2 rs1 : RegNum) (f3 : BitVec 3) (rd : RegNum) (op : BitVec 7) : aqOf (encA f5 aq rl rs2 rs1 f3 rd op) = aq := by
  unfold aqOf encA
  repeat rw [BitVec.getLsbD_append]
  cases aq <;> cases rl <;> rfl

@[simp] theorem rlOf_encA (f5 : BitVec 5) (aq rl : Bool) (rs2 rs1 : RegNum) (f3 : BitVec 3) (rd : RegNum) (op : BitVec 7) : rlOf (encA f5 aq rl rs2 rs1 f3 rd op) = rl := by
  unfold rlOf encA
  repeat rw [BitVec.getLsbD_append]
  cases aq <;> cases rl <;> rfl

@[simp] theorem immSOf_encS (imm : BitVec 12) (rs2 rs1 : RegNum) (f3 : BitVec 3) (op : BitVec 7) :
    immSOf (encS imm rs2 rs1 f3 op) = imm := by
  unfold immSOf encS
  repeat first
    | rw [BitVec.extractLsb'_append_eq_of_le (by decide)]
    | rw [BitVec.extractLsb'_append_eq_of_add_le (by decide)]
  simp only [Nat.reduceSub, BitVec.extractLsb'_eq_self]
  apply BitVec.eq_of_getLsbD_eq
  intro i hi
  repeat rw [BitVec.getLsbD_append]
  simp only [BitVec.getLsbD_extractLsb']
  split_ifs <;> exact bit_of_slice _ (by omega) (by omega)

@[simp] theorem immBOf_encB (o : BitVec 13) (rs2 rs1 : RegNum) (f3 : BitVec 3) (op : BitVec 7) (h0 : o.getLsbD 0 = false) :
    immBOf (encB o rs2 rs1 f3 op) = o := by
  unfold immBOf encB
  repeat first
    | rw [BitVec.extractLsb'_append_eq_of_le (by decide)]
    | rw [BitVec.extractLsb'_append_eq_of_add_le (by decide)]
  simp only [Nat.reduceSub, BitVec.extractLsb'_eq_self]
  apply BitVec.eq_of_getLsbD_eq
  intro i hi
  repeat rw [BitVec.getLsbD_append]
  simp only [BitVec.getLsbD_extractLsb']
  split_ifs <;> first | exact bit_of_slice _ (by omega) (by omega) | skip
  obtain rfl : i = 0 := by omega
  exact h0.symm

@[simp] theorem immJOf_encJ (o : BitVec 21) (rd : RegNum) (op : BitVec 7) (h0 : o.getLsbD 0 = false) :
    immJOf (encJ o rd op) = o := by
  unfold immJOf encJ
  repeat first
    | rw [BitVec.extractLsb'_append_eq_of_le (by decide)]
    | rw [BitVec.extractLsb'_append_eq_of_add_le (by decide)]
  simp only [Nat.reduceSub, BitVec.extractLsb'_eq_self]
  apply BitVec.eq_of_getLsbD_eq
  intro i hi
  repeat rw [BitVec.getLsbD_append]
  simp only [BitVec.getLsbD_extractLsb']
  split_ifs <;> first | exact bit_of_slice _ (by omega) (by omega) | skip
  obtain rfl : i = 0 := by omega
  exact h0.symm

/-! ## Every word is the encoding of its fields -/

theorem immSOf_slice5 (v : InstWord) : (immSOf v).extractLsb' 5 7 = v.extractLsb' 25 7 := by
  unfold immSOf
  repeat first
    | rw [BitVec.extractLsb'_append_eq_of_le (by decide)]
    | rw [BitVec.extractLsb'_append_eq_of_add_le (by decide)]
  exact BitVec.extractLsb'_eq_self

theorem immSOf_slice0 (v : InstWord) : (immSOf v).extractLsb' 0 5 = v.extractLsb' 7 5 := by
  unfold immSOf
  repeat first
    | rw [BitVec.extractLsb'_append_eq_of_le (by decide)]
    | rw [BitVec.extractLsb'_append_eq_of_add_le (by decide)]
  exact BitVec.extractLsb'_eq_self

theorem immBOf_slice12 (v : InstWord) : (immBOf v).extractLsb' 12 1 = v.extractLsb' 31 1 := by
  unfold immBOf
  repeat first
    | rw [BitVec.extractLsb'_append_eq_of_le (by decide)]
    | rw [BitVec.extractLsb'_append_eq_of_add_le (by decide)]
  exact BitVec.extractLsb'_eq_self

theorem immBOf_slice5 (v : InstWord) : (immBOf v).extractLsb' 5 6 = v.extractLsb' 25 6 := by
  unfold immBOf
  repeat first
    | rw [BitVec.extractLsb'_append_eq_of_le (by decide)]
    | rw [BitVec.extractLsb'_append_eq_of_add_le (by decide)]
  exact BitVec.extractLsb'_eq_self

theorem immBOf_slice1 (v : InstWord) : (immBOf v).extractLsb' 1 4 = v.extractLsb' 8 4 := by
  unfold immBOf
  repeat first
    | rw [BitVec.extractLsb'_append_eq_of_le (by decide)]
    | rw [BitVec.extractLsb'_append_eq_of_add_le (by decide)]
  exact BitVec.extractLsb'_eq_self

theorem immBOf_slice11 (v : InstWord) : (immBOf v).extractLsb' 11 1 = v.extractLsb' 7 1 := by
  unfold immBOf
  repeat first
    | rw [BitVec.extractLsb'_append_eq_of_le (by decide)]
    | rw [BitVec.extractLsb'_append_eq_of_add_le (by decide)]
  exact BitVec.extractLsb'_eq_self

theorem immJOf_slice20 (v : InstWord) : (immJOf v).extractLsb' 20 1 = v.extractLsb' 31 1 := by
  unfold immJOf
  repeat first
    | rw [BitVec.extractLsb'_append_eq_of_le (by decide)]
    | rw [BitVec.extractLsb'_append_eq_of_add_le (by decide)]
  exact BitVec.extractLsb'_eq_self

theorem immJOf_slice1 (v : InstWord) : (immJOf v).extractLsb' 1 10 = v.extractLsb' 21 10 := by
  unfold immJOf
  repeat first
    | rw [BitVec.extractLsb'_append_eq_of_le (by decide)]
    | rw [BitVec.extractLsb'_append_eq_of_add_le (by decide)]
  exact BitVec.extractLsb'_eq_self

theorem immJOf_slice11 (v : InstWord) : (immJOf v).extractLsb' 11 1 = v.extractLsb' 20 1 := by
  unfold immJOf
  repeat first
    | rw [BitVec.extractLsb'_append_eq_of_le (by decide)]
    | rw [BitVec.extractLsb'_append_eq_of_add_le (by decide)]
  exact BitVec.extractLsb'_eq_self

theorem immJOf_slice12 (v : InstWord) : (immJOf v).extractLsb' 12 8 = v.extractLsb' 12 8 := by
  unfold immJOf
  repeat first
    | rw [BitVec.extractLsb'_append_eq_of_le (by decide)]
    | rw [BitVec.extractLsb'_append_eq_of_add_le (by decide)]
  exact BitVec.extractLsb'_eq_self

theorem encR_fields (v : InstWord) :
    encR (funct7Of v) (rs2Of v) (rs1Of v) (funct3Of v) (rdOf v) (opcodeOf v) = v := by
  unfold encR
  unfold funct7Of rs2Of rs1Of funct3Of rdOf opcodeOf
  apply BitVec.eq_of_getLsbD_eq
  intro i hi
  repeat rw [BitVec.getLsbD_append]
  simp only [BitVec.getLsbD_extractLsb']
  split_ifs <;> exact bit_of_slice _ (by omega) (by omega)

theorem encI_fields (v : InstWord) :
    encI (immIOf v) (rs1Of v) (funct3Of v) (rdOf v) (opcodeOf v) = v := by
  unfold encI
  unfold immIOf rs1Of funct3Of rdOf opcodeOf
  apply BitVec.eq_of_getLsbD_eq
  intro i hi
  repeat rw [BitVec.getLsbD_append]
  simp only [BitVec.getLsbD_extractLsb']
  split_ifs <;> exact bit_of_slice _ (by omega) (by omega)

theorem encSh6_fields (v : InstWord) :
    encSh6 (funct6Of v) (shamt6Of v) (rs1Of v) (funct3Of v) (rdOf v) (opcodeOf v) = v := by
  unfold encSh6
  unfold funct6Of shamt6Of rs1Of funct3Of rdOf opcodeOf
  apply BitVec.eq_of_getLsbD_eq
  intro i hi
  repeat rw [BitVec.getLsbD_append]
  simp only [BitVec.getLsbD_extractLsb']
  split_ifs <;> exact bit_of_slice _ (by omega) (by omega)

theorem encS_fields (v : InstWord) :
    encS (immSOf v) (rs2Of v) (rs1Of v) (funct3Of v) (opcodeOf v) = v := by
  unfold encS
  rw [immSOf_slice5, immSOf_slice0]
  unfold rs2Of rs1Of funct3Of opcodeOf
  apply BitVec.eq_of_getLsbD_eq
  intro i hi
  repeat rw [BitVec.getLsbD_append]
  simp only [BitVec.getLsbD_extractLsb']
  split_ifs <;> exact bit_of_slice _ (by omega) (by omega)

theorem encB_fields (v : InstWord) :
    encB (immBOf v) (rs2Of v) (rs1Of v) (funct3Of v) (opcodeOf v) = v := by
  unfold encB
  rw [immBOf_slice12, immBOf_slice5, immBOf_slice1, immBOf_slice11]
  unfold rs2Of rs1Of funct3Of opcodeOf
  apply BitVec.eq_of_getLsbD_eq
  intro i hi
  repeat rw [BitVec.getLsbD_append]
  simp only [BitVec.getLsbD_extractLsb']
  split_ifs <;> exact bit_of_slice _ (by omega) (by omega)

theorem encJ_fields (v : InstWord) :
    encJ (immJOf v) (rdOf v) (opcodeOf v) = v := by
  unfold encJ
  rw [immJOf_slice20, immJOf_slice1, immJOf_slice11, immJOf_slice12]
  unfold rdOf opcodeOf
  apply BitVec.eq_of_getLsbD_eq
  intro i hi
  repeat rw [BitVec.getLsbD_append]
  simp only [BitVec.getLsbD_extractLsb']
  split_ifs <;> exact bit_of_slice _ (by omega) (by omega)

theorem encU_fields (v : InstWord) :
    encU (immUOf v) (rdOf v) (opcodeOf v) = v := by
  unfold encU
  unfold immUOf rdOf opcodeOf
  apply BitVec.eq_of_getLsbD_eq
  intro i hi
  repeat rw [BitVec.getLsbD_append]
  simp only [BitVec.getLsbD_extractLsb']
  split_ifs <;> exact bit_of_slice _ (by omega) (by omega)

theorem encA_fields (v : InstWord) :
    encA (funct5Of v) (aqOf v) (rlOf v) (rs2Of v) (rs1Of v) (funct3Of v) (rdOf v) (opcodeOf v) = v := by
  have one : ∀ k, BitVec.ofBool (v.getLsbD k) = v.extractLsb' k 1 := by
    intro k
    apply BitVec.eq_of_getLsbD_eq
    intro i hi
    obtain rfl : i = 0 := by omega
    simp
  unfold encA aqOf rlOf
  rw [one, one]
  unfold funct5Of rs2Of rs1Of funct3Of rdOf opcodeOf
  apply BitVec.eq_of_getLsbD_eq
  intro i hi
  repeat rw [BitVec.getLsbD_append]
  simp only [BitVec.getLsbD_extractLsb']
  split_ifs <;> exact bit_of_slice _ (by omega) (by omega)

/-! ## Fields of a word that matches a row (R110) -/

/-- A slice that the mask covers is the pattern's. -/
theorem slice_of_match {v m p : InstWord} (e : v &&& m = p) (s n : Nat) (hm : m.extractLsb' s n = BitVec.allOnes n) :
    v.extractLsb' s n = p.extractLsb' s n := by
  rw [← e, BitVec.extractLsb'_and, hm, BitVec.and_allOnes]

/-! ## Bytes (R51) -/

/-- The word of a word's bytes is the word. -/
theorem wordOfBytes_slices (v : InstWord) :
    wordOfBytes (v.extractLsb' 0 8) (v.extractLsb' 8 8) (v.extractLsb' 16 8) (v.extractLsb' 24 8) = v := by
  unfold wordOfBytes
  apply BitVec.eq_of_getLsbD_eq
  intro i hi
  repeat rw [BitVec.getLsbD_append]
  simp only [BitVec.getLsbD_extractLsb']
  split_ifs <;> exact bit_of_slice _ (by omega) (by omega)

end Sys2Proof
end

