-- ==== Sys2Proof/Laws/Exec.lean ====
section
/-! SUPPORT. Everything an instruction can do, said once for all of them: `exec_effect`. Invariants and frames follow from its cases,
with no meaning unfolded again. -/

namespace Sys2Proof.Machine

/-- The next harts that an instruction can lead to from `h`, one constructor for each way it can end. -/
inductive Effect (x : XLen) (h : Hart x.width) (i : Instr) : Hart x.width → Prop
  /-- A register is written, and on to the next instruction. -/
  | wrote (rd : RegNum) (v : BitVec x.width) (dest : i.destination = some rd) (noTarget : transferTarget h i = none)
      (noStore : storeAccess h i = none) (plain : isReserving i = false) (notCall : i ≠ .ecall ∧ i ≠ .ebreak) :
      Effect x h i (h.writeNext rd v)
  /-- Bytes are stored, and on to the next instruction. -/
  | stored (a : BitVec x.width) (n : Nat) (v : BitVec x.width) (size : n ≤ 8) (access : storeAccess h i = some (a, n))
      (allowed : Permitted h .write a n) (dest : i.destination = none) (noTarget : transferTarget h i = none)
      (plain : isReserving i = false) :
      Effect x h i (h.writeValue a n (v.setWidth (8 * n))).advance
  /-- A branch that is not taken. -/
  | fell (dest : i.destination = none) (noTarget : transferTarget h i = none) (noStore : storeAccess h i = none)
      (plain : isReserving i = false) (notCall : i ≠ .ecall ∧ i ≠ .ebreak) : Effect x h i h.advance
  /-- A branch that is taken. -/
  | branched (t : BitVec x.width) (target : transferTarget h i = some t) (aligned : t.toNat % 4 = 0)
      (dest : i.destination = none) (noStore : storeAccess h i = none) (plain : isReserving i = false)
      (notCall : i ≠ .ecall ∧ i ≠ .ebreak) : Effect x h i (h.setPc t)
  /-- A jump. -/
  | linked (rd : RegNum) (t : BitVec x.width) (target : transferTarget h i = some t) (aligned : t.toNat % 4 = 0)
      (dest : i.destination = some rd) (noStore : storeAccess h i = none) (plain : isReserving i = false)
      (notCall : i ≠ .ecall ∧ i ≠ .ebreak) : Effect x h i ((h.setReg rd (h.pc + 4)).setPc t)
  /-- A load-reserved. -/
  | reserved (sz : ReservedSize) (rd a : RegNum) (aq rl : Bool) (v : BitVec x.width) (same : i = lrOf sz rd a aq rl)
      (aligned : (h.reg a).toNat % sz.bytes = 0) (allowed : Permitted h .read (h.reg a) sz.bytes)
      (fits : sz = .double → x = .rv64) :
      Effect x h i ((h.setReservation (some { addr := h.reg a, size := sz })).writeNext rd v)
  /-- A store-conditional that stores. -/
  | scStored (sz : ReservedSize) (rd a b : RegNum) (aq rl : Bool) (same : i = scOf sz rd a b aq rl)
      (allowed : Permitted h .write (h.reg a) sz.bytes) (ok : h.scSucceeds (h.reg a) sz = true) :
      Effect x h i
        ((((h.countDraw (h.scDraws (h.reg a) sz)).setReservation none).writeValue (h.reg a) sz.bytes
          ((h.reg b).setWidth (8 * sz.bytes))).writeNext rd 0)
  /-- A store-conditional that stores nothing. -/
  | scFailed (sz : ReservedSize) (rd a b : RegNum) (aq rl : Bool) (same : i = scOf sz rd a b aq rl)
      (allowed : Permitted h .write (h.reg a) sz.bytes) (failed : h.scSucceeds (h.reg a) sz = false) :
      Effect x h i (((h.countDraw (h.scDraws (h.reg a) sz)).setReservation none).writeNext rd 1)
  /-- The environment resumes the hart. -/
  | resumed (k : EnvKind) (regs : Vector (BitVec x.width) 31) (pc : BitVec x.width) (bytes : List Host.Cell) (keep : Bool)
      (call : i = k.instr) (answer : h.answer k = .resume regs pc bytes keep) :
      Effect x h i (h.resume regs pc bytes keep)
  /-- The environment ends the run. -/
  | called (k : EnvKind) (call : i = k.instr) (answer : h.answer k = .stop) :
      Effect x h i (h.raise (k.condition h.pc.toNat))
  | targetMisaligned (t : BitVec x.width) (target : transferTarget h i = some t) (bad : t.toNat % 4 ≠ 0) :
      Effect x h i (h.raise (.instructionAddressMisaligned t.toNat))
  | loadMisaligned (a : BitVec x.width) (n : Nat) (access : loadAccess h i = some (a, n)) (bad : a.toNat % n ≠ 0)
      (split : h.platform.misaligned = .split → isReserving i = true) :
      Effect x h i (h.raise (.loadAddressMisaligned a.toNat))
  | loadDenied (a : BitVec x.width) (n : Nat) (access : loadAccess h i = some (a, n)) (bad : ¬ Permitted h .read a n) :
      Effect x h i (h.raise (.loadAccessFault a.toNat))
  | storeMisaligned (a : BitVec x.width) (n : Nat) (access : storeAccess h i = some (a, n)) (bad : a.toNat % n ≠ 0)
      (split : h.platform.misaligned = .split → isReserving i = true) :
      Effect x h i (h.raise (.storeAddressMisaligned a.toNat))
  | storeDenied (a : BitVec x.width) (n : Nat) (access : storeAccess h i = some (a, n)) (bad : ¬ Permitted h .write a n) :
      Effect x h i (h.raise (.storeAccessFault a.toNat))
  /-- The row of the instruction is absent at this width. -/
  | absent (row : i.existsAt x = false) : Effect x h i (h.raise (.illegalInstruction (encode i)))

/-! ## The effect of each shape of meaning -/

variable {x : XLen} {h : Hart x.width} {i : Instr}

/-- An instruction of both widths. -/
theorem onHart_effect {f : Hart x.width → Hart x.width} (e : Effect x h i (f h)) :
    ∃ h', State.onHart ⟨x, h⟩ f = .next ⟨x, h'⟩ ∧ Effect x h i h' := ⟨_, rfl, e⟩

/-- An instruction of `XLEN = 64` only. -/
theorem onHart64_effect {f : Hart 64 → Hart 64} (row : i.existsAt .rv32 = false)
    (e : ∀ g : Hart XLen.rv64.width, Effect .rv64 g i (f g)) :
    ∃ h', State.onHart64 ⟨x, h⟩ i f = .next ⟨x, h'⟩ ∧ Effect x h i h' := by
  cases x
  · exact ⟨_, rfl, .absent row⟩
  · exact ⟨_, rfl, e h⟩

theorem load_effect {rd : RegNum} {a : BitVec x.width} {n : Nat} {ext : BitVec (8 * n) → BitVec x.width}
    (dest : i.destination = some rd) (access : loadAccess h i = some (a, n)) (noTarget : transferTarget h i = none)
    (noStore : storeAccess h i = none) (plain : isReserving i = false) (notCall : i ≠ .ecall ∧ i ≠ .ebreak) :
    Effect x h i (h.load rd a n ext) := by
  rcases load_cases h rd a n ext with ⟨q, e⟩ | ⟨-, p, e⟩ | ⟨-, -, e⟩ <;> rw [e]
  · exact .loadMisaligned a n access (fun z => q (.inl z)) fun z => absurd (.inr z) q
  · exact .loadDenied a n access p
  · exact .wrote rd _ dest noTarget noStore plain notCall

theorem store_effect {a v : BitVec x.width} {n : Nat} (size : n ≤ 8) (dest : i.destination = none)
    (access : storeAccess h i = some (a, n)) (noTarget : transferTarget h i = none) (plain : isReserving i = false) :
    Effect x h i (h.store a n v) := by
  rcases store_cases h a n v with ⟨q, e⟩ | ⟨-, p, e⟩ | ⟨-, p, e⟩ <;> rw [e]
  · exact .storeMisaligned a n access (fun z => q (.inl z)) fun z => absurd (.inr z) q
  · exact .storeDenied a n access p
  · exact .stored a n v size access p dest noTarget plain

theorem branch_effect {taken : Bool} {offset : BitVec 13} (dest : i.destination = none)
    (target : transferTarget h i = if taken then some (h.pc + BitVec.ofInt x.width offset.toInt) else none)
    (noStore : storeAccess h i = none) (plain : isReserving i = false) (notCall : i ≠ .ecall ∧ i ≠ .ebreak) :
    Effect x h i (h.branch taken offset) := by
  rcases branch_cases h taken offset with ⟨t, e⟩ | ⟨t, e⟩ <;> subst t <;> rw [e]
  · exact .fell dest target noStore plain notCall
  · rcases jumpTo_cases h (h.pc + immB offset) with ⟨q, e⟩ | ⟨q, e⟩ <;> rw [e]
    · exact .branched _ target q dest noStore plain notCall
    · exact .targetMisaligned _ target q

theorem jumpLink_effect {rd : RegNum} {t : BitVec x.width} (dest : i.destination = some rd)
    (target : transferTarget h i = some t) (noStore : storeAccess h i = none) (plain : isReserving i = false)
    (notCall : i ≠ .ecall ∧ i ≠ .ebreak) : Effect x h i (h.jumpLink rd t) := by
  rcases jumpLink_cases h rd t with ⟨q, e⟩ | ⟨q, e⟩ <;> rw [e]
  · exact .linked rd t target q dest noStore plain notCall
  · exact .targetMisaligned t target q

theorem shiftNext_effect {rd : RegNum} {k : Nat} {v : BitVec x.width} (row : x.width ≤ k → i.existsAt x = false)
    (dest : i.destination = some rd) (noTarget : transferTarget h i = none) (noStore : storeAccess h i = none)
    (plain : isReserving i = false) (notCall : i ≠ .ecall ∧ i ≠ .ebreak) :
    Effect x h i (h.shiftNext i rd k v) := by
  unfold Hart.shiftNext
  split
  · exact .wrote rd v dest noTarget noStore plain notCall
  · next q => exact .absent (row (Nat.le_of_not_lt q))

theorem transfer_effect {k : EnvKind} (call : i = k.instr) : Effect x h i (h.transfer k) := by
  rcases transfer_cases h k with ⟨regs, pc, bytes, keep, q, e⟩ | ⟨q, e⟩ <;> rw [e]
  · exact .resumed k regs pc bytes keep call q
  · exact .called k call q

theorem loadReserved_effect {sz : ReservedSize} {rd a : RegNum} {aq rl : Bool}
    {ext : BitVec (8 * sz.bytes) → BitVec x.width} (same : i = lrOf sz rd a aq rl) (fits : sz = .double → x = .rv64) :
    Effect x h i (h.loadReserved rd (h.reg a) sz ext) := by
  have access : loadAccess h i = some (h.reg a, sz.bytes) := by subst same; cases sz <;> rfl
  have res : isReserving i = true := by subst same; cases sz <;> rfl
  rcases loadReserved_cases h rd (h.reg a) sz ext with ⟨q, e⟩ | ⟨-, p, e⟩ | ⟨q, p, e⟩ <;> rw [e]
  · exact .loadMisaligned _ _ access q fun _ => res
  · exact .loadDenied _ _ access p
  · exact .reserved sz rd a aq rl _ same q p fits

theorem storeConditional_effect {sz : ReservedSize} {rd a b : RegNum} {aq rl : Bool}
    (same : i = scOf sz rd a b aq rl) : Effect x h i (h.storeConditional rd (h.reg a) sz (h.reg b)) := by
  have access : storeAccess h i = some (h.reg a, sz.bytes) := by subst same; cases sz <;> rfl
  have res : isReserving i = true := by subst same; cases sz <;> rfl
  rcases storeConditional_cases h rd (h.reg a) sz (h.reg b) with ⟨q, e⟩ | ⟨-, p, e⟩ | ⟨-, p, q, e⟩ | ⟨-, p, q, e⟩ <;> rw [e]
  · exact .storeMisaligned _ _ access q fun _ => res
  · exact .storeDenied _ _ access p
  · exact .scStored sz rd a b aq rl same p q
  · exact .scFailed sz rd a b aq rl same p q

/-! ## Every instruction -/

/-- The target of `jalr` is the sum with bit 0 cleared (R189). -/
theorem clear_bit0 {w : Nat} (a : BitVec w) : a &&& ~~~1 = BitVec.ofNat w (a.toNat / 2 * 2) := by
  apply BitVec.eq_of_getLsbD_eq
  intro i hi
  rw [BitVec.getLsbD_and, BitVec.getLsbD_not, BitVec.getLsbD_ofNat, ← BitVec.testBit_toNat]
  rcases i with _ | i
  · simp [hi]
  · rw [Nat.testBit_succ, Nat.testBit_succ, Nat.mul_div_cancel _ (by decide)]
    simp [hi]

/-- What any instruction does: it always answers a next state, and that is one of the effects above. -/
theorem exec_effect (x : XLen) (h : Hart x.width) (i : Instr) :
    ∃ h', exec i ⟨x, h⟩ = .next ⟨x, h'⟩ ∧ Effect x h i h' := by
  cases i with
  | add rd rs1 rs2 =>
    simp only [exec, execAdd]
    refine onHart_effect ?_
    exact .wrote _ _ rfl rfl rfl rfl ⟨nofun, nofun⟩
  | sub rd rs1 rs2 =>
    simp only [exec, execSub]
    refine onHart_effect ?_
    exact .wrote _ _ rfl rfl rfl rfl ⟨nofun, nofun⟩
  | and rd rs1 rs2 =>
    simp only [exec, execAnd]
    refine onHart_effect ?_
    exact .wrote _ _ rfl rfl rfl rfl ⟨nofun, nofun⟩
  | or rd rs1 rs2 =>
    simp only [exec, execOr]
    refine onHart_effect ?_
    exact .wrote _ _ rfl rfl rfl rfl ⟨nofun, nofun⟩
  | xor rd rs1 rs2 =>
    simp only [exec, execXor]
    refine onHart_effect ?_
    exact .wrote _ _ rfl rfl rfl rfl ⟨nofun, nofun⟩
  | sll rd rs1 rs2 =>
    simp only [exec, execSll]
    refine onHart_effect ?_
    exact .wrote _ _ rfl rfl rfl rfl ⟨nofun, nofun⟩
  | srl rd rs1 rs2 =>
    simp only [exec, execSrl]
    refine onHart_effect ?_
    exact .wrote _ _ rfl rfl rfl rfl ⟨nofun, nofun⟩
  | sra rd rs1 rs2 =>
    simp only [exec, execSra]
    refine onHart_effect ?_
    exact .wrote _ _ rfl rfl rfl rfl ⟨nofun, nofun⟩
  | slt rd rs1 rs2 =>
    simp only [exec, execSlt]
    refine onHart_effect ?_
    exact .wrote _ _ rfl rfl rfl rfl ⟨nofun, nofun⟩
  | sltu rd rs1 rs2 =>
    simp only [exec, execSltu]
    refine onHart_effect ?_
    exact .wrote _ _ rfl rfl rfl rfl ⟨nofun, nofun⟩
  | addi rd rs1 imm =>
    simp only [exec, execAddi]
    refine onHart_effect ?_
    exact .wrote _ _ rfl rfl rfl rfl ⟨nofun, nofun⟩
  | andi rd rs1 imm =>
    simp only [exec, execAndi]
    refine onHart_effect ?_
    exact .wrote _ _ rfl rfl rfl rfl ⟨nofun, nofun⟩
  | ori rd rs1 imm =>
    simp only [exec, execOri]
    refine onHart_effect ?_
    exact .wrote _ _ rfl rfl rfl rfl ⟨nofun, nofun⟩
  | xori rd rs1 imm =>
    simp only [exec, execXori]
    refine onHart_effect ?_
    exact .wrote _ _ rfl rfl rfl rfl ⟨nofun, nofun⟩
  | slti rd rs1 imm =>
    simp only [exec, execSlti]
    refine onHart_effect ?_
    exact .wrote _ _ rfl rfl rfl rfl ⟨nofun, nofun⟩
  | sltiu rd rs1 imm =>
    simp only [exec, execSltiu]
    refine onHart_effect ?_
    exact .wrote _ _ rfl rfl rfl rfl ⟨nofun, nofun⟩
  | slli rd rs1 shamt =>
    simp only [exec, execSlli]
    refine onHart_effect ?_
    exact .wrote _ _ rfl rfl rfl rfl ⟨nofun, nofun⟩
  | srli rd rs1 shamt =>
    simp only [exec, execSrli]
    refine onHart_effect ?_
    exact .wrote _ _ rfl rfl rfl rfl ⟨nofun, nofun⟩
  | srai rd rs1 shamt =>
    simp only [exec, execSrai]
    refine onHart_effect ?_
    exact .wrote _ _ rfl rfl rfl rfl ⟨nofun, nofun⟩
  | lb rd rs1 imm =>
    simp only [exec, execLb]
    refine onHart_effect ?_
    exact load_effect rfl rfl rfl rfl rfl ⟨nofun, nofun⟩
  | lbu rd rs1 imm =>
    simp only [exec, execLbu]
    refine onHart_effect ?_
    exact load_effect rfl rfl rfl rfl rfl ⟨nofun, nofun⟩
  | lh rd rs1 imm =>
    simp only [exec, execLh]
    refine onHart_effect ?_
    exact load_effect rfl rfl rfl rfl rfl ⟨nofun, nofun⟩
  | lhu rd rs1 imm =>
    simp only [exec, execLhu]
    refine onHart_effect ?_
    exact load_effect rfl rfl rfl rfl rfl ⟨nofun, nofun⟩
  | lw rd rs1 imm =>
    simp only [exec, execLw]
    refine onHart_effect ?_
    exact load_effect rfl rfl rfl rfl rfl ⟨nofun, nofun⟩
  | sb rs1 rs2 imm =>
    simp only [exec, execSb]
    refine onHart_effect ?_
    exact store_effect (by decide) rfl rfl rfl rfl
  | sh rs1 rs2 imm =>
    simp only [exec, execSh]
    refine onHart_effect ?_
    exact store_effect (by decide) rfl rfl rfl rfl
  | sw rs1 rs2 imm =>
    simp only [exec, execSw]
    refine onHart_effect ?_
    exact store_effect (by decide) rfl rfl rfl rfl
  | beq rs1 rs2 offset =>
    simp only [exec, execBeq]
    refine onHart_effect ?_
    exact branch_effect rfl (by simp [transferTarget, eqBits]) rfl rfl ⟨nofun, nofun⟩
  | bne rs1 rs2 offset =>
    simp only [exec, execBne]
    refine onHart_effect ?_
    exact branch_effect rfl (by simp [transferTarget, eqBits]) rfl rfl ⟨nofun, nofun⟩
  | blt rs1 rs2 offset =>
    simp only [exec, execBlt]
    refine onHart_effect ?_
    exact branch_effect rfl (by simp [transferTarget, ltSigned, BitVec.slt]) rfl rfl ⟨nofun, nofun⟩
  | bltu rs1 rs2 offset =>
    simp only [exec, execBltu]
    refine onHart_effect ?_
    exact branch_effect rfl (by simp [transferTarget, ltUnsigned, BitVec.ult]) rfl rfl ⟨nofun, nofun⟩
  | bge rs1 rs2 offset =>
    simp only [exec, execBge]
    refine onHart_effect ?_
    exact branch_effect rfl (by simp [transferTarget, ltSigned, BitVec.slt]) rfl rfl ⟨nofun, nofun⟩
  | bgeu rs1 rs2 offset =>
    simp only [exec, execBgeu]
    refine onHart_effect ?_
    exact branch_effect rfl (by simp [transferTarget, ltUnsigned, BitVec.ult]) rfl rfl ⟨nofun, nofun⟩
  | jal rd offset =>
    simp only [exec, execJal]
    refine onHart_effect ?_
    exact jumpLink_effect rfl rfl rfl rfl ⟨nofun, nofun⟩
  | jalr rd rs1 imm =>
    simp only [exec, execJalr]
    refine onHart_effect ?_
    exact jumpLink_effect rfl (congrArg some (clear_bit0 _).symm) rfl rfl ⟨nofun, nofun⟩
  | auipc rd immu =>
    simp only [exec, execAuipc]
    refine onHart_effect ?_
    exact .wrote _ _ rfl rfl rfl rfl ⟨nofun, nofun⟩
  | lui rd immu =>
    simp only [exec, execLui]
    refine onHart_effect ?_
    exact .wrote _ _ rfl rfl rfl rfl ⟨nofun, nofun⟩
  | ebreak =>
    simp only [exec, execEbreak]
    refine onHart_effect ?_
    exact transfer_effect (k := .breakpoint) rfl
  | ecall =>
    simp only [exec, execEcall]
    refine onHart_effect ?_
    exact transfer_effect (k := .call) rfl
  | lrw rd rs1 aq rl =>
    simp only [exec, execLrw]
    refine onHart_effect ?_
    exact loadReserved_effect (sz := .word) (aq := aq) (rl := rl) rfl nofun
  | lrd rd rs1 aq rl =>
    simp only [exec, execLrd]
    refine onHart64_effect rfl fun _ => ?_
    exact loadReserved_effect (sz := .double) (aq := aq) (rl := rl) rfl fun _ => rfl
  | scw rd rs1 rs2 aq rl =>
    simp only [exec, execScw]
    refine onHart_effect ?_
    exact storeConditional_effect (sz := .word) (aq := aq) (rl := rl) rfl
  | scd rd rs1 rs2 aq rl =>
    simp only [exec, execScd]
    refine onHart64_effect rfl fun _ => ?_
    exact storeConditional_effect (sz := .double) (aq := aq) (rl := rl) rfl
  | addw rd rs1 rs2 =>
    simp only [exec, execAddw]
    refine onHart64_effect rfl fun _ => ?_
    exact .wrote _ _ rfl rfl rfl rfl ⟨nofun, nofun⟩
  | subw rd rs1 rs2 =>
    simp only [exec, execSubw]
    refine onHart64_effect rfl fun _ => ?_
    exact .wrote _ _ rfl rfl rfl rfl ⟨nofun, nofun⟩
  | sllw rd rs1 rs2 =>
    simp only [exec, execSllw]
    refine onHart64_effect rfl fun _ => ?_
    exact .wrote _ _ rfl rfl rfl rfl ⟨nofun, nofun⟩
  | srlw rd rs1 rs2 =>
    simp only [exec, execSrlw]
    refine onHart64_effect rfl fun _ => ?_
    exact .wrote _ _ rfl rfl rfl rfl ⟨nofun, nofun⟩
  | sraw rd rs1 rs2 =>
    simp only [exec, execSraw]
    refine onHart64_effect rfl fun _ => ?_
    exact .wrote _ _ rfl rfl rfl rfl ⟨nofun, nofun⟩
  | slli64 rd rs1 shamt =>
    simp only [exec, execSlli64]
    refine onHart_effect ?_
    exact shiftNext_effect (by cases x <;> simp [XLen.width, Instr.existsAt]; omega) rfl rfl rfl rfl ⟨nofun, nofun⟩
  | srli64 rd rs1 shamt =>
    simp only [exec, execSrli64]
    refine onHart_effect ?_
    exact shiftNext_effect (by cases x <;> simp [XLen.width, Instr.existsAt]; omega) rfl rfl rfl rfl ⟨nofun, nofun⟩
  | srai64 rd rs1 shamt =>
    simp only [exec, execSrai64]
    refine onHart_effect ?_
    exact shiftNext_effect (by cases x <;> simp [XLen.width, Instr.existsAt]; omega) rfl rfl rfl rfl ⟨nofun, nofun⟩
  | addiw rd rs1 imm =>
    simp only [exec, execAddiw]
    refine onHart64_effect rfl fun _ => ?_
    exact .wrote _ _ rfl rfl rfl rfl ⟨nofun, nofun⟩
  | slliw rd rs1 shamt =>
    simp only [exec, execSlliw]
    refine onHart64_effect rfl fun _ => ?_
    exact .wrote _ _ rfl rfl rfl rfl ⟨nofun, nofun⟩
  | srliw rd rs1 shamt =>
    simp only [exec, execSrliw]
    refine onHart64_effect rfl fun _ => ?_
    exact .wrote _ _ rfl rfl rfl rfl ⟨nofun, nofun⟩
  | sraiw rd rs1 shamt =>
    simp only [exec, execSraiw]
    refine onHart64_effect rfl fun _ => ?_
    exact .wrote _ _ rfl rfl rfl rfl ⟨nofun, nofun⟩
  | lwu rd rs1 imm =>
    simp only [exec, execLwu]
    refine onHart64_effect rfl fun _ => ?_
    exact load_effect rfl rfl rfl rfl rfl ⟨nofun, nofun⟩
  | ld rd rs1 imm =>
    simp only [exec, execLd]
    refine onHart64_effect rfl fun _ => ?_
    exact load_effect rfl rfl rfl rfl rfl ⟨nofun, nofun⟩
  | sd rs1 rs2 imm =>
    simp only [exec, execSd]
    refine onHart64_effect rfl fun _ => ?_
    exact store_effect (by decide) rfl rfl rfl rfl
  | mul rd rs1 rs2 =>
    simp only [exec, execMul]
    refine onHart_effect ?_
    exact .wrote _ _ rfl rfl rfl rfl ⟨nofun, nofun⟩
  | mulh rd rs1 rs2 =>
    simp only [exec, execMulh]
    refine onHart_effect ?_
    exact .wrote _ _ rfl rfl rfl rfl ⟨nofun, nofun⟩
  | mulhu rd rs1 rs2 =>
    simp only [exec, execMulhu]
    refine onHart_effect ?_
    exact .wrote _ _ rfl rfl rfl rfl ⟨nofun, nofun⟩
  | mulhsu rd rs1 rs2 =>
    simp only [exec, execMulhsu]
    refine onHart_effect ?_
    exact .wrote _ _ rfl rfl rfl rfl ⟨nofun, nofun⟩
  | div rd rs1 rs2 =>
    simp only [exec, execDiv]
    refine onHart_effect ?_
    exact .wrote _ _ rfl rfl rfl rfl ⟨nofun, nofun⟩
  | divu rd rs1 rs2 =>
    simp only [exec, execDivu]
    refine onHart_effect ?_
    exact .wrote _ _ rfl rfl rfl rfl ⟨nofun, nofun⟩
  | rem rd rs1 rs2 =>
    simp only [exec, execRem]
    refine onHart_effect ?_
    exact .wrote _ _ rfl rfl rfl rfl ⟨nofun, nofun⟩
  | remu rd rs1 rs2 =>
    simp only [exec, execRemu]
    refine onHart_effect ?_
    exact .wrote _ _ rfl rfl rfl rfl ⟨nofun, nofun⟩
  | mulw rd rs1 rs2 =>
    simp only [exec, execMulw]
    refine onHart64_effect rfl fun _ => ?_
    exact .wrote _ _ rfl rfl rfl rfl ⟨nofun, nofun⟩
  | divw rd rs1 rs2 =>
    simp only [exec, execDivw]
    refine onHart64_effect rfl fun _ => ?_
    exact .wrote _ _ rfl rfl rfl rfl ⟨nofun, nofun⟩
  | divuw rd rs1 rs2 =>
    simp only [exec, execDivuw]
    refine onHart64_effect rfl fun _ => ?_
    exact .wrote _ _ rfl rfl rfl rfl ⟨nofun, nofun⟩
  | remw rd rs1 rs2 =>
    simp only [exec, execRemw]
    refine onHart64_effect rfl fun _ => ?_
    exact .wrote _ _ rfl rfl rfl rfl ⟨nofun, nofun⟩
  | remuw rd rs1 rs2 =>
    simp only [exec, execRemuw]
    refine onHart64_effect rfl fun _ => ?_
    exact .wrote _ _ rfl rfl rfl rfl ⟨nofun, nofun⟩

/-- The same, from an answer that is known. -/
theorem effect_of_next {h' : Hart x.width} (e : exec i ⟨x, h⟩ = .next ⟨x, h'⟩) : Effect x h i h' := by
  obtain ⟨g, q, ef⟩ := exec_effect x h i
  rw [e] at q
  cases q
  exact ef

/-- Everything a step can do (R9). -/
theorem step_cases (x : XLen) (h : Hart x.width) :
    (∃ f, h.outcome = .raised f ∧ step ⟨x, h⟩ = .fault f) ∨
    (h.outcome = .running ∧ ∃ f, h.fetch = .error f ∧ step ⟨x, h⟩ = .next ⟨x, h.raise f⟩) ∨
    (h.outcome = .running ∧ ∃ v, h.fetch = .ok v ∧ decodeWord? x v = none ∧
      step ⟨x, h⟩ = .next ⟨x, h.raise (.illegalInstruction v)⟩) ∨
    (h.outcome = .running ∧ ∃ v i, h.fetch = .ok v ∧ decode x v = .ok i ∧ step ⟨x, h⟩ = exec i ⟨x, h⟩) := by
  unfold step
  rcases o : h.outcome with _ | f
  · rcases q : h.fetch with f | v
    · exact .inr (.inl ⟨rfl, f, rfl, rfl⟩)
    · rcases d : decodeWord? x v with _ | i
      · exact .inr (.inr (.inl ⟨rfl, v, rfl, d, by simp only [decode, d]; rfl⟩))
      · exact .inr (.inr (.inr ⟨rfl, v, i, rfl, by simp only [decode, d], by simp only [decode, d]⟩))
  · exact .inl ⟨f, rfl, rfl⟩

/-! ## How `lr` and `sc` of either width are classified -/

section Classes

variable {w : Nat} (g : Hart w) (sz : ReservedSize) (rd a b : RegNum) (aq rl : Bool)

@[simp] theorem lrOf_destination : (lrOf sz rd a aq rl).destination = some rd := by cases sz <;> rfl
@[simp] theorem scOf_destination : (scOf sz rd a b aq rl).destination = some rd := by cases sz <;> rfl
@[simp] theorem lrOf_target : transferTarget g (lrOf sz rd a aq rl) = none := by cases sz <;> rfl
@[simp] theorem scOf_target : transferTarget g (scOf sz rd a b aq rl) = none := by cases sz <;> rfl
@[simp] theorem lrOf_load : loadAccess g (lrOf sz rd a aq rl) = some (g.reg a, sz.bytes) := by cases sz <;> rfl
@[simp] theorem scOf_load : loadAccess g (scOf sz rd a b aq rl) = none := by cases sz <;> rfl
@[simp] theorem lrOf_store : storeAccess g (lrOf sz rd a aq rl) = none := by cases sz <;> rfl
@[simp] theorem scOf_store : storeAccess g (scOf sz rd a b aq rl) = some (g.reg a, sz.bytes) := by cases sz <;> rfl
@[simp] theorem lrOf_reserving : isReserving (lrOf sz rd a aq rl) = true := by cases sz <;> rfl
@[simp] theorem scOf_reserving : isReserving (scOf sz rd a b aq rl) = true := by cases sz <;> rfl
@[simp] theorem lrOf_ne_ecall : lrOf sz rd a aq rl ≠ .ecall := by cases sz <;> nofun
@[simp] theorem lrOf_ne_ebreak : lrOf sz rd a aq rl ≠ .ebreak := by cases sz <;> nofun
@[simp] theorem scOf_ne_ecall : scOf sz rd a b aq rl ≠ .ecall := by cases sz <;> nofun
@[simp] theorem scOf_ne_ebreak : scOf sz rd a b aq rl ≠ .ebreak := by cases sz <;> nofun

end Classes

/-! ## Which transfers go backward (R222) -/

/-- An instruction that goes on to `pc + 4` does not go backward, wherever `pc` is. -/
theorem goesBackward_of_none {w : Nat} {h : Hart w} {i : Instr} (e : transferTarget h i = none) : goesBackward h i = false := by
  simp [goesBackward, e]

/-- A transfer by a signed offset goes backward just when the offset is negative, also where `pc` wraps. -/
theorem goesBackward_of_offset {x : XLen} {h : Hart x.width} {i : Instr} {z : Int}
    (e : transferTarget h i = some (h.pc + BitVec.ofInt x.width z)) (lo : -2 ^ 31 ≤ z) (hi : z < 2 ^ 31) :
    goesBackward h i = decide (z < 0) := by
  have d : (h.pc + BitVec.ofInt x.width z - h.pc).toInt = z := by
    rw [BitVec.add_comm, BitVec.add_sub_cancel, BitVec.toInt_ofInt]
    cases x <;> simp only [XLen.width] <;> exact Int.bmod_eq_of_le (by omega) (by omega)
  simp only [goesBackward, e, Option.any_some, d]

/-- `jal` goes backward by the sign of its offset. -/
theorem goesBackward_jal {x : XLen} (h : Hart x.width) (rd : RegNum) (o : BitVec 21) :
    goesBackward h (.jal rd o) = decide (o.toInt < 0) :=
  goesBackward_of_offset rfl (by have := o.le_toInt; omega) (by have := o.toInt_lt; omega)

/-- `bne` goes backward when it is taken and its offset is negative. -/
theorem goesBackward_bne {x : XLen} (h : Hart x.width) (a b : RegNum) (o : BitVec 13) :
    goesBackward h (.bne a b o) = (decide (h.reg a ≠ h.reg b) && decide (o.toInt < 0)) := by
  by_cases c : h.reg a ≠ h.reg b
  · have e : transferTarget h (.bne a b o) = some (h.pc + BitVec.ofInt x.width o.toInt) := if_pos c
    rw [goesBackward_of_offset e (by have := o.le_toInt; omega) (by have := o.toInt_lt; omega)]
    simp [c]
  · have e : transferTarget h (.bne a b o) = none := if_neg c
    rw [goesBackward_of_none e]; simp [c]

end Sys2Proof.Machine
end

