-- ==== Sys2Proof/Laws/PerInstr.lean ====
section
/-! SUPPORT. The per-instruction family `EncodesItsRow`: every instruction is encoded by its own row of the opcode table (R110). -/

namespace Sys2Proof

/-! ## What the masks of the table keep of an encoded word -/

theorem encR_mask (f7 : BitVec 7) (rs2 rs1 : BitVec 5) (f3 : BitVec 3) (rd : RegNum) (op : BitVec 7) :
    encR f7 rs2 rs1 f3 rd op &&& 0xFE00707F#32 = encR f7 0 0 f3 0 op := by
  rw [show (0xFE00707F#32 : InstWord) = encR (BitVec.allOnes 7) 0 0 (BitVec.allOnes 3) 0 (BitVec.allOnes 7) from rfl]
  unfold encR
  repeat rw [BitVec.and_append]
  simp only [BitVec.and_allOnes, BitVec.and_zero, BitVec.ofNat_eq_ofNat]

theorem encI_mask (imm : BitVec 12) (rs1 : BitVec 5) (f3 : BitVec 3) (rd : RegNum) (op : BitVec 7) :
    encI imm rs1 f3 rd op &&& 0x0000707F#32 = encI 0 0 f3 0 op := by
  rw [show (0x0000707F#32 : InstWord) = encI 0 0 (BitVec.allOnes 3) 0 (BitVec.allOnes 7) from rfl]
  unfold encI
  repeat rw [BitVec.and_append]
  simp only [BitVec.and_allOnes, BitVec.and_zero, BitVec.ofNat_eq_ofNat]

theorem encSh6_mask (f6 : BitVec 6) (sh : BitVec 6) (rs1 : BitVec 5) (f3 : BitVec 3) (rd : RegNum) (op : BitVec 7) :
    encSh6 f6 sh rs1 f3 rd op &&& 0xFC00707F#32 = encSh6 f6 0 0 f3 0 op := by
  rw [show (0xFC00707F#32 : InstWord) = encSh6 (BitVec.allOnes 6) 0 0 (BitVec.allOnes 3) 0 (BitVec.allOnes 7) from rfl]
  unfold encSh6
  repeat rw [BitVec.and_append]
  simp only [BitVec.and_allOnes, BitVec.and_zero, BitVec.ofNat_eq_ofNat]

theorem encS_mask (imm : BitVec 12) (rs2 rs1 : BitVec 5) (f3 : BitVec 3) (op : BitVec 7) :
    encS imm rs2 rs1 f3 op &&& 0x0000707F#32 = encS 0 0 0 f3 op := by
  rw [show (0x0000707F#32 : InstWord) = encS 0 0 0 (BitVec.allOnes 3) (BitVec.allOnes 7) from rfl]
  unfold encS
  repeat rw [BitVec.and_append]
  repeat rw [← BitVec.extractLsb'_and]
  simp only [BitVec.and_allOnes, BitVec.and_zero, BitVec.ofNat_eq_ofNat]

theorem encB_mask (o : BitVec 13) (rs2 rs1 : BitVec 5) (f3 : BitVec 3) (op : BitVec 7) :
    encB o rs2 rs1 f3 op &&& 0x0000707F#32 = encB 0 0 0 f3 op := by
  rw [show (0x0000707F#32 : InstWord) = encB 0 0 0 (BitVec.allOnes 3) (BitVec.allOnes 7) from rfl]
  unfold encB
  repeat rw [BitVec.and_append]
  repeat rw [← BitVec.extractLsb'_and]
  simp only [BitVec.and_allOnes, BitVec.and_zero, BitVec.ofNat_eq_ofNat]

theorem encJ_mask (o : BitVec 21) (rd : RegNum) (op : BitVec 7) :
    encJ o rd op &&& 0x0000007F#32 = encJ 0 0 op := by
  rw [show (0x0000007F#32 : InstWord) = encJ 0 0 (BitVec.allOnes 7) from rfl]
  unfold encJ
  repeat rw [BitVec.and_append]
  repeat rw [← BitVec.extractLsb'_and]
  simp only [BitVec.and_allOnes, BitVec.and_zero, BitVec.ofNat_eq_ofNat]

theorem encU_mask (immu : BitVec 20) (rd : RegNum) (op : BitVec 7) :
    encU immu rd op &&& 0x0000007F#32 = encU 0 0 op := by
  rw [show (0x0000007F#32 : InstWord) = encU 0 0 (BitVec.allOnes 7) from rfl]
  unfold encU
  repeat rw [BitVec.and_append]
  simp only [BitVec.and_allOnes, BitVec.and_zero, BitVec.ofNat_eq_ofNat]

/-- The mask of `sc`: funct5, funct3 and opcode. -/
theorem encA_mask (f5 : BitVec 5) (aq rl : Bool) (rs2 rs1 : BitVec 5) (f3 : BitVec 3) (rd : RegNum) (op : BitVec 7) :
    encA f5 aq rl rs2 rs1 f3 rd op &&& 0xF800707F#32 = encA f5 false false 0 0 f3 0 op := by
  rw [show (0xF800707F#32 : InstWord) =
    encA (BitVec.allOnes 5) false false 0 0 (BitVec.allOnes 3) 0 (BitVec.allOnes 7) from rfl]
  unfold encA
  repeat rw [BitVec.and_append]
  simp only [BitVec.and_allOnes, BitVec.and_zero, BitVec.ofNat_eq_ofNat, BitVec.ofBool_false]

/-- The mask of `lr`, which fixes the rs2 field as well. -/
theorem encA_mask_rs2 (f5 : BitVec 5) (aq rl : Bool) (rs2 rs1 : BitVec 5) (f3 : BitVec 3) (rd : RegNum) (op : BitVec 7) :
    encA f5 aq rl rs2 rs1 f3 rd op &&& 0xF9F0707F#32 = encA f5 false false rs2 0 f3 0 op := by
  rw [show (0xF9F0707F#32 : InstWord) =
    encA (BitVec.allOnes 5) false false (BitVec.allOnes 5) 0 (BitVec.allOnes 3) 0 (BitVec.allOnes 7) from rfl]
  unfold encA
  repeat rw [BitVec.and_append]
  simp only [BitVec.and_allOnes, BitVec.and_zero, BitVec.ofNat_eq_ofNat, BitVec.ofBool_false]

namespace Laws.EncodesItsRow

/-- Some row of the opcode table has the instruction's mnemonic, exists at the widths the instruction exists at, matches its
encoding, and gives the instruction back. -/
def Statement (i : Instr) : Prop :=
  ∃ r ∈ opcodeTable, r.mnemonic = i.mnemonic ∧ (∀ x, x ∈ r.xlens ↔ i.existsAt x = true) ∧
    encode i &&& r.mask = r.pattern ∧ (i.offsetEven = true → r.build (encode i) = i)

theorem add (rd rs1 rs2 : RegNum) : Statement (.add rd rs1 rs2) := by
  refine ⟨_, List.mem_of_getElem? (show opcodeTable[0]? = some _ from rfl), rfl, by intro x; cases x <;> simp [Instr.existsAt], ?_, ?_⟩
  · exact (encR_mask ..).trans rfl
  · intro; simp [encode]

theorem sub (rd rs1 rs2 : RegNum) : Statement (.sub rd rs1 rs2) := by
  refine ⟨_, List.mem_of_getElem? (show opcodeTable[1]? = some _ from rfl), rfl, by intro x; cases x <;> simp [Instr.existsAt], ?_, ?_⟩
  · exact (encR_mask ..).trans rfl
  · intro; simp [encode]

theorem and (rd rs1 rs2 : RegNum) : Statement (.and rd rs1 rs2) := by
  refine ⟨_, List.mem_of_getElem? (show opcodeTable[2]? = some _ from rfl), rfl, by intro x; cases x <;> simp [Instr.existsAt], ?_, ?_⟩
  · exact (encR_mask ..).trans rfl
  · intro; simp [encode]

theorem or (rd rs1 rs2 : RegNum) : Statement (.or rd rs1 rs2) := by
  refine ⟨_, List.mem_of_getElem? (show opcodeTable[3]? = some _ from rfl), rfl, by intro x; cases x <;> simp [Instr.existsAt], ?_, ?_⟩
  · exact (encR_mask ..).trans rfl
  · intro; simp [encode]

theorem xor (rd rs1 rs2 : RegNum) : Statement (.xor rd rs1 rs2) := by
  refine ⟨_, List.mem_of_getElem? (show opcodeTable[4]? = some _ from rfl), rfl, by intro x; cases x <;> simp [Instr.existsAt], ?_, ?_⟩
  · exact (encR_mask ..).trans rfl
  · intro; simp [encode]

theorem sll (rd rs1 rs2 : RegNum) : Statement (.sll rd rs1 rs2) := by
  refine ⟨_, List.mem_of_getElem? (show opcodeTable[5]? = some _ from rfl), rfl, by intro x; cases x <;> simp [Instr.existsAt], ?_, ?_⟩
  · exact (encR_mask ..).trans rfl
  · intro; simp [encode]

theorem srl (rd rs1 rs2 : RegNum) : Statement (.srl rd rs1 rs2) := by
  refine ⟨_, List.mem_of_getElem? (show opcodeTable[6]? = some _ from rfl), rfl, by intro x; cases x <;> simp [Instr.existsAt], ?_, ?_⟩
  · exact (encR_mask ..).trans rfl
  · intro; simp [encode]

theorem sra (rd rs1 rs2 : RegNum) : Statement (.sra rd rs1 rs2) := by
  refine ⟨_, List.mem_of_getElem? (show opcodeTable[7]? = some _ from rfl), rfl, by intro x; cases x <;> simp [Instr.existsAt], ?_, ?_⟩
  · exact (encR_mask ..).trans rfl
  · intro; simp [encode]

theorem slt (rd rs1 rs2 : RegNum) : Statement (.slt rd rs1 rs2) := by
  refine ⟨_, List.mem_of_getElem? (show opcodeTable[8]? = some _ from rfl), rfl, by intro x; cases x <;> simp [Instr.existsAt], ?_, ?_⟩
  · exact (encR_mask ..).trans rfl
  · intro; simp [encode]

theorem sltu (rd rs1 rs2 : RegNum) : Statement (.sltu rd rs1 rs2) := by
  refine ⟨_, List.mem_of_getElem? (show opcodeTable[9]? = some _ from rfl), rfl, by intro x; cases x <;> simp [Instr.existsAt], ?_, ?_⟩
  · exact (encR_mask ..).trans rfl
  · intro; simp [encode]

theorem addi (rd rs1 : RegNum) (imm : BitVec 12) : Statement (.addi rd rs1 imm) := by
  refine ⟨_, List.mem_of_getElem? (show opcodeTable[10]? = some _ from rfl), rfl, by intro x; cases x <;> simp [Instr.existsAt], ?_, ?_⟩
  · exact (encI_mask ..).trans rfl
  · intro; simp [encode]

theorem andi (rd rs1 : RegNum) (imm : BitVec 12) : Statement (.andi rd rs1 imm) := by
  refine ⟨_, List.mem_of_getElem? (show opcodeTable[11]? = some _ from rfl), rfl, by intro x; cases x <;> simp [Instr.existsAt], ?_, ?_⟩
  · exact (encI_mask ..).trans rfl
  · intro; simp [encode]

theorem ori (rd rs1 : RegNum) (imm : BitVec 12) : Statement (.ori rd rs1 imm) := by
  refine ⟨_, List.mem_of_getElem? (show opcodeTable[12]? = some _ from rfl), rfl, by intro x; cases x <;> simp [Instr.existsAt], ?_, ?_⟩
  · exact (encI_mask ..).trans rfl
  · intro; simp [encode]

theorem xori (rd rs1 : RegNum) (imm : BitVec 12) : Statement (.xori rd rs1 imm) := by
  refine ⟨_, List.mem_of_getElem? (show opcodeTable[13]? = some _ from rfl), rfl, by intro x; cases x <;> simp [Instr.existsAt], ?_, ?_⟩
  · exact (encI_mask ..).trans rfl
  · intro; simp [encode]

theorem slti (rd rs1 : RegNum) (imm : BitVec 12) : Statement (.slti rd rs1 imm) := by
  refine ⟨_, List.mem_of_getElem? (show opcodeTable[14]? = some _ from rfl), rfl, by intro x; cases x <;> simp [Instr.existsAt], ?_, ?_⟩
  · exact (encI_mask ..).trans rfl
  · intro; simp [encode]

theorem sltiu (rd rs1 : RegNum) (imm : BitVec 12) : Statement (.sltiu rd rs1 imm) := by
  refine ⟨_, List.mem_of_getElem? (show opcodeTable[15]? = some _ from rfl), rfl, by intro x; cases x <;> simp [Instr.existsAt], ?_, ?_⟩
  · exact (encI_mask ..).trans rfl
  · intro; simp [encode]

theorem slli (rd rs1 : RegNum) (shamt : BitVec 5) : Statement (.slli rd rs1 shamt) := by
  refine ⟨_, List.mem_of_getElem? (show opcodeTable[16]? = some _ from rfl), rfl, by intro x; cases x <;> simp [Instr.existsAt], ?_, ?_⟩
  · exact (encR_mask ..).trans rfl
  · intro; simp [encode]

theorem srli (rd rs1 : RegNum) (shamt : BitVec 5) : Statement (.srli rd rs1 shamt) := by
  refine ⟨_, List.mem_of_getElem? (show opcodeTable[17]? = some _ from rfl), rfl, by intro x; cases x <;> simp [Instr.existsAt], ?_, ?_⟩
  · exact (encR_mask ..).trans rfl
  · intro; simp [encode]

theorem srai (rd rs1 : RegNum) (shamt : BitVec 5) : Statement (.srai rd rs1 shamt) := by
  refine ⟨_, List.mem_of_getElem? (show opcodeTable[18]? = some _ from rfl), rfl, by intro x; cases x <;> simp [Instr.existsAt], ?_, ?_⟩
  · exact (encR_mask ..).trans rfl
  · intro; simp [encode]

theorem lb (rd rs1 : RegNum) (imm : BitVec 12) : Statement (.lb rd rs1 imm) := by
  refine ⟨_, List.mem_of_getElem? (show opcodeTable[19]? = some _ from rfl), rfl, by intro x; cases x <;> simp [Instr.existsAt], ?_, ?_⟩
  · exact (encI_mask ..).trans rfl
  · intro; simp [encode]

theorem lbu (rd rs1 : RegNum) (imm : BitVec 12) : Statement (.lbu rd rs1 imm) := by
  refine ⟨_, List.mem_of_getElem? (show opcodeTable[20]? = some _ from rfl), rfl, by intro x; cases x <;> simp [Instr.existsAt], ?_, ?_⟩
  · exact (encI_mask ..).trans rfl
  · intro; simp [encode]

theorem lh (rd rs1 : RegNum) (imm : BitVec 12) : Statement (.lh rd rs1 imm) := by
  refine ⟨_, List.mem_of_getElem? (show opcodeTable[21]? = some _ from rfl), rfl, by intro x; cases x <;> simp [Instr.existsAt], ?_, ?_⟩
  · exact (encI_mask ..).trans rfl
  · intro; simp [encode]

theorem lhu (rd rs1 : RegNum) (imm : BitVec 12) : Statement (.lhu rd rs1 imm) := by
  refine ⟨_, List.mem_of_getElem? (show opcodeTable[22]? = some _ from rfl), rfl, by intro x; cases x <;> simp [Instr.existsAt], ?_, ?_⟩
  · exact (encI_mask ..).trans rfl
  · intro; simp [encode]

theorem lw (rd rs1 : RegNum) (imm : BitVec 12) : Statement (.lw rd rs1 imm) := by
  refine ⟨_, List.mem_of_getElem? (show opcodeTable[23]? = some _ from rfl), rfl, by intro x; cases x <;> simp [Instr.existsAt], ?_, ?_⟩
  · exact (encI_mask ..).trans rfl
  · intro; simp [encode]

theorem sb (rs1 rs2 : RegNum) (imm : BitVec 12) : Statement (.sb rs1 rs2 imm) := by
  refine ⟨_, List.mem_of_getElem? (show opcodeTable[24]? = some _ from rfl), rfl, by intro x; cases x <;> simp [Instr.existsAt], ?_, ?_⟩
  · exact (encS_mask ..).trans rfl
  · intro; simp [encode]

theorem sh (rs1 rs2 : RegNum) (imm : BitVec 12) : Statement (.sh rs1 rs2 imm) := by
  refine ⟨_, List.mem_of_getElem? (show opcodeTable[25]? = some _ from rfl), rfl, by intro x; cases x <;> simp [Instr.existsAt], ?_, ?_⟩
  · exact (encS_mask ..).trans rfl
  · intro; simp [encode]

theorem sw (rs1 rs2 : RegNum) (imm : BitVec 12) : Statement (.sw rs1 rs2 imm) := by
  refine ⟨_, List.mem_of_getElem? (show opcodeTable[26]? = some _ from rfl), rfl, by intro x; cases x <;> simp [Instr.existsAt], ?_, ?_⟩
  · exact (encS_mask ..).trans rfl
  · intro; simp [encode]

theorem beq (rs1 rs2 : RegNum) (offset : BitVec 13) : Statement (.beq rs1 rs2 offset) := by
  refine ⟨_, List.mem_of_getElem? (show opcodeTable[27]? = some _ from rfl), rfl, by intro x; cases x <;> simp [Instr.existsAt], ?_, ?_⟩
  · exact (encB_mask ..).trans rfl
  · intro e
    have h0 : offset.getLsbD 0 = false := by simpa [Instr.offsetEven] using e
    simp [encode]
    exact immBOf_encB _ _ _ _ _ h0

theorem bne (rs1 rs2 : RegNum) (offset : BitVec 13) : Statement (.bne rs1 rs2 offset) := by
  refine ⟨_, List.mem_of_getElem? (show opcodeTable[28]? = some _ from rfl), rfl, by intro x; cases x <;> simp [Instr.existsAt], ?_, ?_⟩
  · exact (encB_mask ..).trans rfl
  · intro e
    have h0 : offset.getLsbD 0 = false := by simpa [Instr.offsetEven] using e
    simp [encode]
    exact immBOf_encB _ _ _ _ _ h0

theorem blt (rs1 rs2 : RegNum) (offset : BitVec 13) : Statement (.blt rs1 rs2 offset) := by
  refine ⟨_, List.mem_of_getElem? (show opcodeTable[29]? = some _ from rfl), rfl, by intro x; cases x <;> simp [Instr.existsAt], ?_, ?_⟩
  · exact (encB_mask ..).trans rfl
  · intro e
    have h0 : offset.getLsbD 0 = false := by simpa [Instr.offsetEven] using e
    simp [encode]
    exact immBOf_encB _ _ _ _ _ h0

theorem bltu (rs1 rs2 : RegNum) (offset : BitVec 13) : Statement (.bltu rs1 rs2 offset) := by
  refine ⟨_, List.mem_of_getElem? (show opcodeTable[30]? = some _ from rfl), rfl, by intro x; cases x <;> simp [Instr.existsAt], ?_, ?_⟩
  · exact (encB_mask ..).trans rfl
  · intro e
    have h0 : offset.getLsbD 0 = false := by simpa [Instr.offsetEven] using e
    simp [encode]
    exact immBOf_encB _ _ _ _ _ h0

theorem bge (rs1 rs2 : RegNum) (offset : BitVec 13) : Statement (.bge rs1 rs2 offset) := by
  refine ⟨_, List.mem_of_getElem? (show opcodeTable[31]? = some _ from rfl), rfl, by intro x; cases x <;> simp [Instr.existsAt], ?_, ?_⟩
  · exact (encB_mask ..).trans rfl
  · intro e
    have h0 : offset.getLsbD 0 = false := by simpa [Instr.offsetEven] using e
    simp [encode]
    exact immBOf_encB _ _ _ _ _ h0

theorem bgeu (rs1 rs2 : RegNum) (offset : BitVec 13) : Statement (.bgeu rs1 rs2 offset) := by
  refine ⟨_, List.mem_of_getElem? (show opcodeTable[32]? = some _ from rfl), rfl, by intro x; cases x <;> simp [Instr.existsAt], ?_, ?_⟩
  · exact (encB_mask ..).trans rfl
  · intro e
    have h0 : offset.getLsbD 0 = false := by simpa [Instr.offsetEven] using e
    simp [encode]
    exact immBOf_encB _ _ _ _ _ h0

theorem jal (rd : RegNum) (offset : BitVec 21) : Statement (.jal rd offset) := by
  refine ⟨_, List.mem_of_getElem? (show opcodeTable[33]? = some _ from rfl), rfl, by intro x; cases x <;> simp [Instr.existsAt], ?_, ?_⟩
  · exact (encJ_mask ..).trans rfl
  · intro e
    have h0 : offset.getLsbD 0 = false := by simpa [Instr.offsetEven] using e
    simp [encode]
    exact immJOf_encJ _ _ _ h0

theorem jalr (rd rs1 : RegNum) (imm : BitVec 12) : Statement (.jalr rd rs1 imm) := by
  refine ⟨_, List.mem_of_getElem? (show opcodeTable[34]? = some _ from rfl), rfl, by intro x; cases x <;> simp [Instr.existsAt], ?_, ?_⟩
  · exact (encI_mask ..).trans rfl
  · intro; simp [encode]

theorem auipc (rd : RegNum) (immu : BitVec 20) : Statement (.auipc rd immu) := by
  refine ⟨_, List.mem_of_getElem? (show opcodeTable[35]? = some _ from rfl), rfl, by intro x; cases x <;> simp [Instr.existsAt], ?_, ?_⟩
  · exact (encU_mask ..).trans rfl
  · intro; simp [encode]

theorem lui (rd : RegNum) (immu : BitVec 20) : Statement (.lui rd immu) := by
  refine ⟨_, List.mem_of_getElem? (show opcodeTable[36]? = some _ from rfl), rfl, by intro x; cases x <;> simp [Instr.existsAt], ?_, ?_⟩
  · exact (encU_mask ..).trans rfl
  · intro; simp [encode]

theorem ebreak : Statement .ebreak := by
  refine ⟨_, List.mem_of_getElem? (show opcodeTable[37]? = some _ from rfl), rfl, by intro x; cases x <;> simp [Instr.existsAt], ?_, ?_⟩
  · rfl
  · exact fun _ => rfl

theorem ecall : Statement .ecall := by
  refine ⟨_, List.mem_of_getElem? (show opcodeTable[38]? = some _ from rfl), rfl, by intro x; cases x <;> simp [Instr.existsAt], ?_, ?_⟩
  · rfl
  · exact fun _ => rfl

theorem lrw (rd rs1 : RegNum) (aq rl : Bool) : Statement (.lrw rd rs1 aq rl) := by
  refine ⟨_, List.mem_of_getElem? (show opcodeTable[39]? = some _ from rfl), rfl, by intro x; cases x <;> simp [Instr.existsAt], ?_, ?_⟩
  · exact (encA_mask_rs2 ..).trans rfl
  · intro; simp [encode]

theorem lrd (rd rs1 : RegNum) (aq rl : Bool) : Statement (.lrd rd rs1 aq rl) := by
  refine ⟨_, List.mem_of_getElem? (show opcodeTable[40]? = some _ from rfl), rfl, by intro x; cases x <;> simp [Instr.existsAt], ?_, ?_⟩
  · exact (encA_mask_rs2 ..).trans rfl
  · intro; simp [encode]

theorem scw (rd rs1 rs2 : RegNum) (aq rl : Bool) : Statement (.scw rd rs1 rs2 aq rl) := by
  refine ⟨_, List.mem_of_getElem? (show opcodeTable[41]? = some _ from rfl), rfl, by intro x; cases x <;> simp [Instr.existsAt], ?_, ?_⟩
  · exact (encA_mask ..).trans rfl
  · intro; simp [encode]

theorem scd (rd rs1 rs2 : RegNum) (aq rl : Bool) : Statement (.scd rd rs1 rs2 aq rl) := by
  refine ⟨_, List.mem_of_getElem? (show opcodeTable[42]? = some _ from rfl), rfl, by intro x; cases x <;> simp [Instr.existsAt], ?_, ?_⟩
  · exact (encA_mask ..).trans rfl
  · intro; simp [encode]

theorem addw (rd rs1 rs2 : RegNum) : Statement (.addw rd rs1 rs2) := by
  refine ⟨_, List.mem_of_getElem? (show opcodeTable[43]? = some _ from rfl), rfl, by intro x; cases x <;> simp [Instr.existsAt], ?_, ?_⟩
  · exact (encR_mask ..).trans rfl
  · intro; simp [encode]

theorem subw (rd rs1 rs2 : RegNum) : Statement (.subw rd rs1 rs2) := by
  refine ⟨_, List.mem_of_getElem? (show opcodeTable[44]? = some _ from rfl), rfl, by intro x; cases x <;> simp [Instr.existsAt], ?_, ?_⟩
  · exact (encR_mask ..).trans rfl
  · intro; simp [encode]

theorem sllw (rd rs1 rs2 : RegNum) : Statement (.sllw rd rs1 rs2) := by
  refine ⟨_, List.mem_of_getElem? (show opcodeTable[45]? = some _ from rfl), rfl, by intro x; cases x <;> simp [Instr.existsAt], ?_, ?_⟩
  · exact (encR_mask ..).trans rfl
  · intro; simp [encode]

theorem srlw (rd rs1 rs2 : RegNum) : Statement (.srlw rd rs1 rs2) := by
  refine ⟨_, List.mem_of_getElem? (show opcodeTable[46]? = some _ from rfl), rfl, by intro x; cases x <;> simp [Instr.existsAt], ?_, ?_⟩
  · exact (encR_mask ..).trans rfl
  · intro; simp [encode]

theorem sraw (rd rs1 rs2 : RegNum) : Statement (.sraw rd rs1 rs2) := by
  refine ⟨_, List.mem_of_getElem? (show opcodeTable[47]? = some _ from rfl), rfl, by intro x; cases x <;> simp [Instr.existsAt], ?_, ?_⟩
  · exact (encR_mask ..).trans rfl
  · intro; simp [encode]

theorem slli64 (rd rs1 : RegNum) (shamt : BitVec 6) : Statement (.slli64 rd rs1 shamt) := by
  refine ⟨_, List.mem_of_getElem? (show opcodeTable[48]? = some _ from rfl), rfl, by intro x; cases x <;> simp [Instr.existsAt], ?_, ?_⟩
  · exact (encSh6_mask ..).trans rfl
  · intro; simp [encode]

theorem srli64 (rd rs1 : RegNum) (shamt : BitVec 6) : Statement (.srli64 rd rs1 shamt) := by
  refine ⟨_, List.mem_of_getElem? (show opcodeTable[49]? = some _ from rfl), rfl, by intro x; cases x <;> simp [Instr.existsAt], ?_, ?_⟩
  · exact (encSh6_mask ..).trans rfl
  · intro; simp [encode]

theorem srai64 (rd rs1 : RegNum) (shamt : BitVec 6) : Statement (.srai64 rd rs1 shamt) := by
  refine ⟨_, List.mem_of_getElem? (show opcodeTable[50]? = some _ from rfl), rfl, by intro x; cases x <;> simp [Instr.existsAt], ?_, ?_⟩
  · exact (encSh6_mask ..).trans rfl
  · intro; simp [encode]

theorem addiw (rd rs1 : RegNum) (imm : BitVec 12) : Statement (.addiw rd rs1 imm) := by
  refine ⟨_, List.mem_of_getElem? (show opcodeTable[51]? = some _ from rfl), rfl, by intro x; cases x <;> simp [Instr.existsAt], ?_, ?_⟩
  · exact (encI_mask ..).trans rfl
  · intro; simp [encode]

theorem slliw (rd rs1 : RegNum) (shamt : BitVec 5) : Statement (.slliw rd rs1 shamt) := by
  refine ⟨_, List.mem_of_getElem? (show opcodeTable[52]? = some _ from rfl), rfl, by intro x; cases x <;> simp [Instr.existsAt], ?_, ?_⟩
  · exact (encR_mask ..).trans rfl
  · intro; simp [encode]

theorem srliw (rd rs1 : RegNum) (shamt : BitVec 5) : Statement (.srliw rd rs1 shamt) := by
  refine ⟨_, List.mem_of_getElem? (show opcodeTable[53]? = some _ from rfl), rfl, by intro x; cases x <;> simp [Instr.existsAt], ?_, ?_⟩
  · exact (encR_mask ..).trans rfl
  · intro; simp [encode]

theorem sraiw (rd rs1 : RegNum) (shamt : BitVec 5) : Statement (.sraiw rd rs1 shamt) := by
  refine ⟨_, List.mem_of_getElem? (show opcodeTable[54]? = some _ from rfl), rfl, by intro x; cases x <;> simp [Instr.existsAt], ?_, ?_⟩
  · exact (encR_mask ..).trans rfl
  · intro; simp [encode]

theorem lwu (rd rs1 : RegNum) (imm : BitVec 12) : Statement (.lwu rd rs1 imm) := by
  refine ⟨_, List.mem_of_getElem? (show opcodeTable[55]? = some _ from rfl), rfl, by intro x; cases x <;> simp [Instr.existsAt], ?_, ?_⟩
  · exact (encI_mask ..).trans rfl
  · intro; simp [encode]

theorem ld (rd rs1 : RegNum) (imm : BitVec 12) : Statement (.ld rd rs1 imm) := by
  refine ⟨_, List.mem_of_getElem? (show opcodeTable[56]? = some _ from rfl), rfl, by intro x; cases x <;> simp [Instr.existsAt], ?_, ?_⟩
  · exact (encI_mask ..).trans rfl
  · intro; simp [encode]

theorem sd (rs1 rs2 : RegNum) (imm : BitVec 12) : Statement (.sd rs1 rs2 imm) := by
  refine ⟨_, List.mem_of_getElem? (show opcodeTable[57]? = some _ from rfl), rfl, by intro x; cases x <;> simp [Instr.existsAt], ?_, ?_⟩
  · exact (encS_mask ..).trans rfl
  · intro; simp [encode]

theorem mul (rd rs1 rs2 : RegNum) : Statement (.mul rd rs1 rs2) := by
  refine ⟨_, List.mem_of_getElem? (show opcodeTable[58]? = some _ from rfl), rfl, by intro x; cases x <;> simp [Instr.existsAt], ?_, ?_⟩
  · exact (encR_mask ..).trans rfl
  · intro; simp [encode]

theorem mulh (rd rs1 rs2 : RegNum) : Statement (.mulh rd rs1 rs2) := by
  refine ⟨_, List.mem_of_getElem? (show opcodeTable[59]? = some _ from rfl), rfl, by intro x; cases x <;> simp [Instr.existsAt], ?_, ?_⟩
  · exact (encR_mask ..).trans rfl
  · intro; simp [encode]

theorem mulhu (rd rs1 rs2 : RegNum) : Statement (.mulhu rd rs1 rs2) := by
  refine ⟨_, List.mem_of_getElem? (show opcodeTable[60]? = some _ from rfl), rfl, by intro x; cases x <;> simp [Instr.existsAt], ?_, ?_⟩
  · exact (encR_mask ..).trans rfl
  · intro; simp [encode]

theorem mulhsu (rd rs1 rs2 : RegNum) : Statement (.mulhsu rd rs1 rs2) := by
  refine ⟨_, List.mem_of_getElem? (show opcodeTable[61]? = some _ from rfl), rfl, by intro x; cases x <;> simp [Instr.existsAt], ?_, ?_⟩
  · exact (encR_mask ..).trans rfl
  · intro; simp [encode]

theorem div (rd rs1 rs2 : RegNum) : Statement (.div rd rs1 rs2) := by
  refine ⟨_, List.mem_of_getElem? (show opcodeTable[62]? = some _ from rfl), rfl, by intro x; cases x <;> simp [Instr.existsAt], ?_, ?_⟩
  · exact (encR_mask ..).trans rfl
  · intro; simp [encode]

theorem divu (rd rs1 rs2 : RegNum) : Statement (.divu rd rs1 rs2) := by
  refine ⟨_, List.mem_of_getElem? (show opcodeTable[63]? = some _ from rfl), rfl, by intro x; cases x <;> simp [Instr.existsAt], ?_, ?_⟩
  · exact (encR_mask ..).trans rfl
  · intro; simp [encode]

theorem rem (rd rs1 rs2 : RegNum) : Statement (.rem rd rs1 rs2) := by
  refine ⟨_, List.mem_of_getElem? (show opcodeTable[64]? = some _ from rfl), rfl, by intro x; cases x <;> simp [Instr.existsAt], ?_, ?_⟩
  · exact (encR_mask ..).trans rfl
  · intro; simp [encode]

theorem remu (rd rs1 rs2 : RegNum) : Statement (.remu rd rs1 rs2) := by
  refine ⟨_, List.mem_of_getElem? (show opcodeTable[65]? = some _ from rfl), rfl, by intro x; cases x <;> simp [Instr.existsAt], ?_, ?_⟩
  · exact (encR_mask ..).trans rfl
  · intro; simp [encode]

theorem mulw (rd rs1 rs2 : RegNum) : Statement (.mulw rd rs1 rs2) := by
  refine ⟨_, List.mem_of_getElem? (show opcodeTable[66]? = some _ from rfl), rfl, by intro x; cases x <;> simp [Instr.existsAt], ?_, ?_⟩
  · exact (encR_mask ..).trans rfl
  · intro; simp [encode]

theorem divw (rd rs1 rs2 : RegNum) : Statement (.divw rd rs1 rs2) := by
  refine ⟨_, List.mem_of_getElem? (show opcodeTable[67]? = some _ from rfl), rfl, by intro x; cases x <;> simp [Instr.existsAt], ?_, ?_⟩
  · exact (encR_mask ..).trans rfl
  · intro; simp [encode]

theorem divuw (rd rs1 rs2 : RegNum) : Statement (.divuw rd rs1 rs2) := by
  refine ⟨_, List.mem_of_getElem? (show opcodeTable[68]? = some _ from rfl), rfl, by intro x; cases x <;> simp [Instr.existsAt], ?_, ?_⟩
  · exact (encR_mask ..).trans rfl
  · intro; simp [encode]

theorem remw (rd rs1 rs2 : RegNum) : Statement (.remw rd rs1 rs2) := by
  refine ⟨_, List.mem_of_getElem? (show opcodeTable[69]? = some _ from rfl), rfl, by intro x; cases x <;> simp [Instr.existsAt], ?_, ?_⟩
  · exact (encR_mask ..).trans rfl
  · intro; simp [encode]

theorem remuw (rd rs1 rs2 : RegNum) : Statement (.remuw rd rs1 rs2) := by
  refine ⟨_, List.mem_of_getElem? (show opcodeTable[70]? = some _ from rfl), rfl, by intro x; cases x <;> simp [Instr.existsAt], ?_, ?_⟩
  · exact (encR_mask ..).trans rfl
  · intro; simp [encode]

end Laws.EncodesItsRow

end Sys2Proof
end

