-- ==== Sys2Proof/Tests/Slice0.lean ====
section
/-! SUPPORT. The tests: ill-formed terms refused, every row's word decoded, single steps on the spec's own vectors, and for every
statement with hypotheses a concrete state and operands that meet them. Expected results are the spec's (95_test_vectors.md and
96_test_vectors_rv64_m.md), not the model's. -/

namespace Sys2Proof.Tests

open Sys2Proof Sys2Proof.Machine

-- One theorem after another: many kernel evaluations at once would each hold a thread and its stack.
set_option Elab.async false

/-! ## Small states -/

/-- Both widths. -/
def bothWidths : List XLen := [.rv32, .rv64]

/-- A word decodes to an instruction at each listed width, and the instruction is encoded by it. -/
def reads (xs : List XLen) (v : InstWord) (i : Instr) : Bool :=
  xs.all fun x => decide (decodeWord? x v = some i) && decide (encode i = v)

/-- Every permission. -/
def rwx : Perm := { read := true, write := true, exec := true }

/-- The map of section 2 of 95_test_vectors.md: the instruction at 0x1000 and 16 bytes at 0x2000. -/
def platform : Platform := { map := [⟨0x2000, 16, rwx⟩, ⟨0x1000, 4, rwx⟩], misaligned := .fault, scMayFail := false }

/-- The data bytes of that section. -/
def data : List Host.Cell :=
  [(0x2000, 0x80), (0x2001, 0xFF), (0x2002, 0x7F), (0x2003, 0x01), (0x2004, 0xEF), (0x2005, 0xCD), (0x2006, 0xAB),
   (0x2007, 0x89), (0x2008, 0x11), (0x2009, 0x22), (0x200A, 0x33), (0x200B, 0x44), (0x200C, 0x55), (0x200D, 0x66),
   (0x200E, 0x77), (0x200F, 0x88)]

/-- The launch of a vector: the word at `pc = 0x1000`, the data bytes, the registers that matter. -/
def launch (x : XLen) (regs : List (RegNum × Nat)) (v : InstWord) : Launch x.width where
  platform := platform
  handler := []
  image := ((List.range 4).map (· + 0x1000)).zip (bytesOfWord v) ++ data
  resetPc := 0x1000
  regs := (regs.foldl (fun (h : Vector (BitVec x.width) 31) r => h.setIfInBounds (r.1.toNat - 1) (BitVec.ofNat _ r.2))
    (Vector.replicate 31 0))
  draws := 0

/-- The state a vector starts from. -/
def hart (x : XLen) (regs : List (RegNum × Nat)) (v : InstWord) : Hart x.width := (launch x regs v).start

/-- The next state of an outcome, at a known width. -/
def nextHart : (x : XLen) → Host.Outcome State Fault Refusal → Option (Hart x.width)
  | .rv32, .next ⟨.rv32, h⟩ => some h
  | .rv64, .next ⟨.rv64, h⟩ => some h
  | _, _ => none

/-- An evaluated next state is one. -/
theorem next_of_evaluation {x : XLen} {o : Host.Outcome State Fault Refusal} {P : Hart x.width → Prop} [DecidablePred P]
    (q : (nextHart x o).any (fun h => decide (P h)) = true) : ∃ h', o = .next ⟨x, h'⟩ ∧ P h' := by
  rcases o with ⟨y, h⟩ | f | f
  · cases x <;> cases y <;> first | exact ⟨h, rfl, by simpa [nextHart] using q⟩ | simp [nextHart] at q
  · cases x <;> simp [nextHart] at q
  · cases x <;> simp [nextHart] at q

/-- One step of a vector ends in a next state with a property. -/
def ends (x : XLen) (regs : List (RegNum × Nat)) (v : InstWord) (p : Hart x.width → Bool) : Bool :=
  (nextHart x (step ⟨x, hart x regs v⟩)).any p

/-- The step writes a register and goes on. -/
def leaves (x : XLen) (regs : List (RegNum × Nat)) (v : InstWord) (rd : RegNum) (n : Nat) : Bool :=
  ends x regs v fun h => decide (h.outcome = .running ∧ h.reg rd = BitVec.ofNat _ n ∧ h.pc = 0x1004)

/-- The step goes to an address and writes no register. -/
def goes (x : XLen) (regs : List (RegNum × Nat)) (v : InstWord) (t : Nat) : Bool :=
  ends x regs v fun h => decide (h.outcome = .running ∧ h.regs = (hart x regs v).regs ∧ h.pc = BitVec.ofNat _ t)

/-- The step writes a register and goes to an address. -/
def links (x : XLen) (regs : List (RegNum × Nat)) (v : InstWord) (rd : RegNum) (n t : Nat) : Bool :=
  ends x regs v fun h => decide (h.outcome = .running ∧ h.reg rd = BitVec.ofNat _ n ∧ h.pc = BitVec.ofNat _ t)

/-- The step stores bytes, and no other byte of the data changes. -/
def stores (x : XLen) (regs : List (RegNum × Nat)) (v : InstWord) (a : Nat) (bytes : List Byte) : Bool :=
  ends x regs v fun h => decide (h.outcome = .running ∧ h.pc = 0x1004 ∧
    h.mem = (hart x regs v).mem.writeAll (((List.range bytes.length).map (· + a)).zip bytes))

/-- The step raises, and changes nothing but the outcome. -/
def raisesAt (x : XLen) (regs : List (RegNum × Nat)) (v : InstWord) (f : Fault) : Bool :=
  ends x regs v fun h => decide (h = { hart x regs v with outcome := .raised f })

/-! ## Well-formedness: an ill-formed term for each check -/

theorem test_wellFormed_refuses_rv64_row_at_32 : (Instr.ld 3 1 8).wellFormed .rv32 = false := by decide
theorem test_wellFormed_refuses_5_bit_shift_at_64 : (Instr.slli 3 1 31).wellFormed .rv64 = false := by decide
theorem test_wellFormed_refuses_6_bit_shift_at_32 : (Instr.srai64 3 1 31).wellFormed .rv32 = false := by decide
theorem test_wellFormed_refuses_odd_branch_offset : (Instr.beq 1 2 9).wellFormed .rv64 = false := by decide
theorem test_wellFormed_refuses_odd_jump_offset : (Instr.jal 1 0x1FFFFF).wellFormed .rv32 = false := by decide
theorem test_wellFormed_admits_even_offsets :
    (Instr.beq 1 2 0x1000).wellFormed .rv32 = true ∧ (Instr.jal 1 0x100000).wellFormed .rv64 = true := by decide

/-! ## Decoding: every row, the words of 95_test_vectors.md section 2.2 written out bit by bit -/

theorem test_decode_arithmetic_register :
    reads bothWidths 0b00000000001000001000000110110011#32 (.add 3 1 2) ∧
    reads bothWidths 0b01000000001000001000000110110011#32 (.sub 3 1 2) ∧
    reads bothWidths 0b00000000001000001111000110110011#32 (.and 3 1 2) ∧
    reads bothWidths 0b00000000001000001110000110110011#32 (.or 3 1 2) ∧
    reads bothWidths 0b00000000001000001100000110110011#32 (.xor 3 1 2) ∧
    reads bothWidths 0b00000000001000001001000110110011#32 (.sll 3 1 2) ∧
    reads bothWidths 0b00000000001000001101000110110011#32 (.srl 3 1 2) ∧
    reads bothWidths 0b01000000001000001101000110110011#32 (.sra 3 1 2) ∧
    reads bothWidths 0b00000000001000001010000110110011#32 (.slt 3 1 2) ∧
    reads bothWidths 0b00000000001000001011000110110011#32 (.sltu 3 1 2) := by decide +kernel

theorem test_decode_arithmetic_immediate :
    reads bothWidths 0b11111111111100001000000110010011#32 (.addi 3 1 4095) ∧
    reads bothWidths 0b00001111111100001111000110010011#32 (.andi 3 1 255) ∧
    reads bothWidths 0b01010101010100001110000110010011#32 (.ori 3 1 1365) ∧
    reads bothWidths 0b11111111111100001100000110010011#32 (.xori 3 1 4095) ∧
    reads bothWidths 0b10000000000000001010000110010011#32 (.slti 3 1 2048) ∧
    reads bothWidths 0b01111111111100001011000110010011#32 (.sltiu 3 1 2047) := by decide +kernel

theorem test_decode_shift_immediate_rv32 :
    reads [.rv32] 0b00000001111100001001000110010011#32 (.slli 3 1 31) ∧
    reads [.rv32] 0b00000001111100001101000110010011#32 (.srli 3 1 31) ∧
    reads [.rv32] 0b01000001111100001101000110010011#32 (.srai 3 1 31) := by decide +kernel

theorem test_decode_load_store :
    reads bothWidths 0b11111111111100001000000110000011#32 (.lb 3 1 4095) ∧
    reads bothWidths 0b00000000000100001100000110000011#32 (.lbu 3 1 1) ∧
    reads bothWidths 0b11111111111000001001000110000011#32 (.lh 3 1 4094) ∧
    reads bothWidths 0b00000000001000001101000110000011#32 (.lhu 3 1 2) ∧
    reads bothWidths 0b01111111110000001010000110000011#32 (.lw 3 1 2044) ∧
    reads bothWidths 0b11111110001000001000111110100011#32 (.sb 1 2 4095) ∧
    reads bothWidths 0b00000000001000001001000100100011#32 (.sh 1 2 2) ∧
    reads bothWidths 0b10000000001000001010000000100011#32 (.sw 1 2 2048) := by decide +kernel

theorem test_decode_branch_jump :
    reads bothWidths 0b00000000001000001000010001100011#32 (.beq 1 2 8) ∧
    reads bothWidths 0b00000000001000001001010001100011#32 (.bne 1 2 8) ∧
    reads bothWidths 0b00000000001000001100010001100011#32 (.blt 1 2 8) ∧
    reads bothWidths 0b00000000001000001110010001100011#32 (.bltu 1 2 8) ∧
    reads bothWidths 0b00000000001000001101010001100011#32 (.bge 1 2 8) ∧
    reads bothWidths 0b00000000001000001111010001100011#32 (.bgeu 1 2 8) ∧
    reads bothWidths 0b00000000100000000000000011101111#32 (.jal 1 8) ∧
    reads bothWidths 0b00000000000000001000000001100111#32 (.jalr 0 1 0) := by decide +kernel

theorem test_decode_upper_and_system :
    reads bothWidths 0b00010010001101000101000110010111#32 (.auipc 3 74565) ∧
    reads bothWidths 0b00010010001101000101000110110111#32 (.lui 3 74565) ∧
    reads bothWidths 0b00000000000100000000000001110011#32 .ebreak ∧
    reads bothWidths 0b00000000000000000000000001110011#32 .ecall := by decide +kernel

theorem test_decode_atomic :
    reads bothWidths 0b00010000000000001010000110101111#32 (.lrw 3 1 false false) ∧
    reads [.rv64] 0b00010000000000001011000110101111#32 (.lrd 3 1 false false) ∧
    reads bothWidths 0b00011000001000001010000110101111#32 (.scw 3 1 2 false false) ∧
    reads [.rv64] 0b00011000001000001011000110101111#32 (.scd 3 1 2 false false) := by decide +kernel

theorem test_decode_word_register :
    reads [.rv64] 0b00000000001000001000000110111011#32 (.addw 3 1 2) ∧
    reads [.rv64] 0b01000000001000001000000110111011#32 (.subw 3 1 2) ∧
    reads [.rv64] 0b00000000001000001001000110111011#32 (.sllw 3 1 2) ∧
    reads [.rv64] 0b00000000001000001101000110111011#32 (.srlw 3 1 2) ∧
    reads [.rv64] 0b01000000001000001101000110111011#32 (.sraw 3 1 2) := by decide +kernel

theorem test_decode_shift_immediate_rv64 :
    reads [.rv64] 0b00000011111100001001000110010011#32 (.slli64 3 1 63) ∧
    reads [.rv64] 0b00000011111100001101000110010011#32 (.srli64 3 1 63) ∧
    reads [.rv64] 0b01000011111100001101000110010011#32 (.srai64 3 1 63) := by decide +kernel

theorem test_decode_word_immediate :
    reads [.rv64] 0b11111111111100001000000110011011#32 (.addiw 3 1 4095) ∧
    reads [.rv64] 0b00000001111100001001000110011011#32 (.slliw 3 1 31) ∧
    reads [.rv64] 0b00000001111100001101000110011011#32 (.srliw 3 1 31) ∧
    reads [.rv64] 0b01000001111100001101000110011011#32 (.sraiw 3 1 31) := by decide +kernel

theorem test_decode_rv64_load_store :
    reads [.rv64] 0b00000000010000001110000110000011#32 (.lwu 3 1 4) ∧
    reads [.rv64] 0b00000000100000001011000110000011#32 (.ld 3 1 8) ∧
    reads [.rv64] 0b11111110001000001011110000100011#32 (.sd 1 2 4088) := by decide +kernel

theorem test_decode_multiply_divide :
    reads bothWidths 0b00000010001000001000000110110011#32 (.mul 3 1 2) ∧
    reads bothWidths 0b00000010001000001001000110110011#32 (.mulh 3 1 2) ∧
    reads bothWidths 0b00000010001000001011000110110011#32 (.mulhu 3 1 2) ∧
    reads bothWidths 0b00000010001000001010000110110011#32 (.mulhsu 3 1 2) ∧
    reads bothWidths 0b00000010001000001100000110110011#32 (.div 3 1 2) ∧
    reads bothWidths 0b00000010001000001101000110110011#32 (.divu 3 1 2) ∧
    reads bothWidths 0b00000010001000001110000110110011#32 (.rem 3 1 2) ∧
    reads bothWidths 0b00000010001000001111000110110011#32 (.remu 3 1 2) := by decide +kernel

theorem test_decode_word_multiply_divide :
    reads [.rv64] 0b00000010001000001000000110111011#32 (.mulw 3 1 2) ∧
    reads [.rv64] 0b00000010001000001100000110111011#32 (.divw 3 1 2) ∧
    reads [.rv64] 0b00000010001000001101000110111011#32 (.divuw 3 1 2) ∧
    reads [.rv64] 0b00000010001000001110000110111011#32 (.remw 3 1 2) ∧
    reads [.rv64] 0b00000010001000001111000110111011#32 (.remuw 3 1 2) := by decide +kernel

/-- The words of 95_test_vectors.md section 2.10 that are illegal at both widths. -/
theorem test_illegal_at_both_widths :
    [0x00000000#32, 0xFFFFFFFF, 0x00000001, 0x0000000F, 0x0FF0000F, 0x0000100F, 0x00200073, 0x30200073, 0x10500073,
     0x00008073, 0x00000FF3, 0x00100173, 0x00001073, 0xC0002573, 0x40001033, 0x40002033, 0x04000033, 0x00007003,
     0x00004023, 0x00002063, 0x00003063, 0x00001067, 0x04009193, 0x40009193, 0x8000D193, 0x0200109B, 0x0200509B,
     0x4200509B, 0x0000201B, 0x0200103B, 0x1010202F, 0x0000202F, 0x0800202F, 0x1000002F, 0x1000402F, 0x00000053,
     0x00002007].all
      (fun v => bothWidths.all fun x => (decodeWord? x v).isNone) = true := by decide +kernel

/-- Its words that are illegal at XLEN = 32 and legal at XLEN = 64. -/
theorem test_illegal_at_width_32_only :
    [0x00003003#32, 0x00006003, 0x00003023, 0x02009193, 0x0200D193, 0x4200D193, 0x0000001B, 0x0000003B, 0x1000302F,
     0x1800302F].all
      (fun v => (decodeWord? .rv32 v).isNone && (decodeWord? .rv64 v).isSome) = true := by decide +kernel

/-! ## One step, on the vectors of 95_test_vectors.md and 96_test_vectors_rv64_m.md -/

/-- Vectors A2, A5, A33, A31, B24. -/
theorem test_step_sums :
    leaves .rv32 [(1, 0xFFFFFFFF), (2, 0x1)] 0x002081B3 3 0x0 ∧
    leaves .rv32 [(1, 0x80000000), (2, 0x1)] 0x402081B3 3 0x7FFFFFFF ∧
    leaves .rv32 [(1, 0x1)] 0x00508013 0 0x0 ∧
    leaves .rv32 [(1, 0x7FFFFFFF)] 0x7FF08193 3 0x800007FE ∧
    leaves .rv64 [(1, 0xFFFFFFFF)] 0x00108193 3 0x100000000 := by decide +kernel

/-- Vectors A7, A8, A9, B26, B27, A40. -/
theorem test_step_bitwise :
    leaves .rv32 [(1, 0xF0F0F0F0), (2, 0xFF00FF0)] 0x0020F1B3 3 0xF000F0 ∧
    leaves .rv32 [(1, 0xF0F0F0F0), (2, 0xFF00FF0)] 0x0020E1B3 3 0xFFF0FFF0 ∧
    leaves .rv32 [(1, 0xF0F0F0F0), (2, 0xFF00FF0)] 0x0020C1B3 3 0xFF00FF00 ∧
    leaves .rv64 [(1, 0x123456789ABCDEFF)] 0xFF00F193 3 0x123456789ABCDEF0 ∧
    leaves .rv64 [(1, 0x12345678)] 0xF000E193 3 0xFFFFFFFFFFFFFF78 ∧
    leaves .rv32 [(1, 0x12345678)] 0x7FF0C193 3 0x12345187 := by decide +kernel

/-- Vectors A14, A17, A21, B12, B15, B18. -/
theorem test_step_register_shifts :
    leaves .rv32 [(1, 0x1), (2, 0xFFFFFFE4)] 0x002091B3 3 0x10 ∧
    leaves .rv32 [(1, 0xFFFFFFFF), (2, 0x4)] 0x0020D1B3 3 0xFFFFFFF ∧
    leaves .rv32 [(1, 0x80000000), (2, 0x3F)] 0x4020D1B3 3 0xFFFFFFFF ∧
    leaves .rv64 [(1, 0x1), (2, 0xFFFFFFFFFFFFFFC4)] 0x002091B3 3 0x10 ∧
    leaves .rv64 [(1, 0xFFFFFFFF80000000), (2, 0x20)] 0x0020D1B3 3 0xFFFFFFFF ∧
    leaves .rv64 [(1, 0xFFFFFFFF80000000), (2, 0x20)] 0x4020D1B3 3 0xFFFFFFFFFFFFFFFF := by decide +kernel

/-- Vectors A24, B20, A26, A28, A42, A49. -/
theorem test_step_compares :
    leaves .rv32 [(1, 0x80000000), (2, 0x7FFFFFFF)] 0x0020A1B3 3 0x1 ∧
    leaves .rv64 [(1, 0xFFFFFFFF), (2, 0x1)] 0x0020A1B3 3 0x0 ∧
    leaves .rv32 [(1, 0xFFFFFFFF), (2, 0x1)] 0x0020B1B3 3 0x0 ∧
    leaves .rv32 [(1, 0x0), (2, 0x7)] 0x002031B3 3 0x1 ∧
    leaves .rv32 [(1, 0xFFFFFFFF)] 0xFFF0A193 3 0x0 ∧
    leaves .rv32 [(1, 0xFFFFF7FF)] 0x8000B193 3 0x1 := by decide +kernel

/-- Vectors A52, A55, A58, B34, B37, B40. -/
theorem test_step_immediate_shifts :
    leaves .rv32 [(1, 0x12345678)] 0x00409193 3 0x23456780 ∧
    leaves .rv32 [(1, 0x87654321)] 0x0040D193 3 0x8765432 ∧
    leaves .rv32 [(1, 0x87654321)] 0x4040D193 3 0xF8765432 ∧
    leaves .rv64 [(1, 0x1)] 0x02009193 3 0x100000000 ∧
    leaves .rv64 [(1, 0xFFFFFFFF00000000)] 0x0200D193 3 0xFFFFFFFF ∧
    leaves .rv64 [(1, 0xFFFFFFFF00000000)] 0x4200D193 3 0xFFFFFFFFFFFFFFFF := by decide +kernel

/-- Vectors M5, M11, M14, M18, N5, M16. -/
theorem test_step_loads :
    leaves .rv32 [(1, 0x2010)] 0xFFF08103 2 0xFFFFFF88 ∧
    leaves .rv32 [(1, 0x1802)] 0x7FF0C103 2 0xFF ∧
    leaves .rv32 [(1, 0x2000)] 0x00609103 2 0xFFFF89AB ∧
    leaves .rv32 [(1, 0x2000)] 0x0060D103 2 0x89AB ∧
    leaves .rv64 [(1, 0x2000)] 0x0040A103 2 0xFFFFFFFF89ABCDEF ∧
    raisesAt .rv32 [(1, 0x200F)] 0x00009103 (.loadAddressMisaligned 0x200F) := by decide +kernel

/-- Vectors N6, N10, N12, N15. -/
theorem test_step_rv64_loads :
    leaves .rv64 [(1, 0x2000)] 0x0040E103 2 0x89ABCDEF ∧
    leaves .rv64 [(1, 0x2000)] 0x0000B103 2 0x89ABCDEF017FFF80 ∧
    raisesAt .rv64 [(1, 0x2000)] 0x0040B103 (.loadAddressMisaligned 0x2004) ∧
    raisesAt .rv64 [(1, 0x100002000)] 0x0000B103 (.loadAccessFault 0x100002000) := by decide +kernel

/-- Vectors M30, M34, N20, M39, M37. -/
theorem test_step_stores :
    stores .rv32 [(1, 0x2000), (2, 0xFFFFFF00)] 0x002087A3 0x200F [0x00] ∧
    stores .rv32 [(1, 0x2010), (2, 0xFFFF8001)] 0xFE209F23 0x200E [0x01, 0x80] ∧
    stores .rv64 [(1, 0x2000), (2, 0x123456789ABCDEF)] 0x0020A423 0x2008 [0xEF, 0xCD, 0xAB, 0x89] ∧
    raisesAt .rv32 [(1, 0x3001), (2, 0x12345678)] 0x0020A023 (.storeAddressMisaligned 0x3001) ∧
    raisesAt .rv32 [(1, 0x2000), (2, 0x12345678)] 0x0020A823 (.storeAccessFault 0x2010) := by decide +kernel

/-- Vectors N16, N18. -/
theorem test_step_double_stores :
    stores .rv64 [(1, 0x2000), (2, 0x123456789ABCDEF)] 0x0020B023 0x2000 [0xEF, 0xCD, 0xAB, 0x89, 0x67, 0x45, 0x23, 0x01] ∧
    raisesAt .rv64 [(1, 0x2000), (2, 0x1)] 0x0020B223 (.storeAddressMisaligned 0x2004) := by decide +kernel

/-- Vectors C3, C8, C12, C29, C19, C20. -/
theorem test_step_branches :
    goes .rv32 [(1, 0x7), (2, 0x7)] 0xFE2088E3 0xFF0 ∧
    goes .rv32 [(1, 0x7), (2, 0x8)] 0x00209863 0x1010 ∧
    goes .rv32 [(1, 0x80000000), (2, 0x7FFFFFFF)] 0x0020C863 0x1010 ∧
    goes .rv64 [(1, 0xFFFFFFFF), (2, 0x100000000)] 0x0020E863 0x1010 ∧
    goes .rv32 [(1, 0x5), (2, 0x5)] 0x0020D863 0x1010 ∧
    goes .rv32 [(1, 0xFFFFFFFF), (2, 0x1)] 0x0020F863 0x1010 := by decide +kernel

/-- Vectors C2, C9, C11, C14, C17, C21. -/
theorem test_step_branches_not_taken :
    goes .rv32 [(1, 0x7), (2, 0x8)] 0x00208863 0x1004 ∧
    goes .rv32 [(1, 0x7), (2, 0x7)] 0x00209863 0x1004 ∧
    goes .rv32 [(1, 0x1), (2, 0xFFFFFFFF)] 0x0020C863 0x1004 ∧
    goes .rv32 [(1, 0xFFFFFFFF), (2, 0x1)] 0x0020E863 0x1004 ∧
    goes .rv32 [(1, 0xFFFFFFFF), (2, 0x1)] 0x0020D863 0x1004 ∧
    goes .rv32 [(1, 0x1), (2, 0xFFFFFFFF)] 0x0020F863 0x1004 := by decide +kernel

/-- Vectors C23, C24, C48. -/
theorem test_step_misaligned_targets :
    raisesAt .rv32 [(1, 0x7), (2, 0x7)] 0x00208163 (.instructionAddressMisaligned 0x1002) ∧
    goes .rv32 [(1, 0x7), (2, 0x8)] 0x00208163 0x1004 ∧
    raisesAt .rv32 [(1, 0xAAAA), (2, 0x2000)] 0x002100E7 (.instructionAddressMisaligned 0x2002) := by decide +kernel

/-- Vectors C38, C51, C46. -/
theorem test_step_jumps :
    links .rv32 [] 0x800000EF 1 0x1004 0xFFF01000 ∧
    links .rv32 [(1, 0x2000)] 0x008080E7 1 0x1004 0x2008 ∧
    links .rv32 [(2, 0x2001)] 0x7FF100E7 1 0x1004 0x2800 := by decide +kernel

/-- Vectors O7, O12, O15. -/
theorem test_step_upper_immediates :
    leaves .rv64 [] 0x800001B7 3 0xFFFFFFFF80000000 ∧
    leaves .rv32 [] 0xFFFFF197 3 0x0 ∧
    leaves .rv64 [] 0x7FFFF197 3 0x80000000 := by decide +kernel

/-- Vectors O19, O20. -/
theorem test_step_environment :
    raisesAt .rv32 [] 0x00000073 (.environmentCall 0x1000) ∧
    raisesAt .rv32 [] 0x00100073 (.breakpoint 0x1000) := by decide +kernel

/-- Vectors W2, W7, W11, W13, W21. -/
theorem test_step_word_registers :
    leaves .rv64 [(1, 0xFFFFFFFF), (2, 0x1)] 0x002081BB 3 0x0 ∧
    leaves .rv64 [(1, 0x100000000), (2, 0x1)] 0x402081BB 3 0xFFFFFFFFFFFFFFFF ∧
    leaves .rv64 [(1, 0x40000000), (2, 0x1)] 0x002091BB 3 0xFFFFFFFF80000000 ∧
    leaves .rv64 [(1, 0x80000000), (2, 0x20)] 0x0020D1BB 3 0xFFFFFFFF80000000 ∧
    leaves .rv64 [(1, 0x80000000), (2, 0x24)] 0x4020D1BB 3 0xFFFFFFFFF8000000 := by decide +kernel

/-- Vectors W26, W29, W31, W37. -/
theorem test_step_word_immediates :
    leaves .rv64 [(1, 0x80000000)] 0x8000819B 3 0x7FFFF800 ∧
    leaves .rv64 [(1, 0xFFFFFFFF08000000)] 0x0040919B 3 0xFFFFFFFF80000000 ∧
    leaves .rv64 [(1, 0xFFFFFFFF7FFFFFFF)] 0x0000D19B 3 0x7FFFFFFF ∧
    leaves .rv64 [(1, 0xFFFFFFFF7FFFFFFF)] 0x41F0D19B 3 0x0 := by decide +kernel

/-- Vectors D17, D18, E10, D21. -/
theorem test_step_multiply :
    leaves .rv32 [(1, 0x12345678), (2, 0x9ABCDEF0)] 0x022081B3 3 0x242D2080 ∧
    leaves .rv32 [(1, 0x12345678), (2, 0x9ABCDEF0)] 0x022091B3 3 0xF8CC93D6 ∧
    leaves .rv64 [(1, 0xFFFFFFFFFFFFFFFF), (2, 0xFFFFFFFFFFFFFFFF)] 0x0220B1B3 3 0xFFFFFFFFFFFFFFFE ∧
    leaves .rv32 [(1, 0x9ABCDEF0), (2, 0x12345678)] 0x0220A1B3 3 0xF8CC93D6 := by decide +kernel

/-- Vectors D46, D47, E13, D34, D43, D41. -/
theorem test_step_divide :
    leaves .rv32 [(1, 0x80000000), (2, 0xFFFFFFFF)] 0x0220C1B3 3 0x80000000 ∧
    leaves .rv32 [(1, 0x80000000), (2, 0xFFFFFFFF)] 0x0220E1B3 3 0x0 ∧
    leaves .rv64 [(1, 0xFFFFFFFFFFFFFFEC), (2, 0x6)] 0x0220C1B3 3 0xFFFFFFFFFFFFFFFD ∧
    leaves .rv32 [(1, 0xFFFFFFEC), (2, 0x6)] 0x0220D1B3 3 0x2AAAAAA7 ∧
    leaves .rv32 [(1, 0x80000001), (2, 0x0)] 0x0220E1B3 3 0x80000001 ∧
    leaves .rv32 [(1, 0x12345678), (2, 0x0)] 0x0220F1B3 3 0x12345678 := by decide +kernel

/-- Vectors E25, E31, E34, E37, E42, E47. -/
theorem test_step_word_multiply :
    leaves .rv64 [(1, 0x10000), (2, 0x8000)] 0x022081BB 3 0xFFFFFFFF80000000 ∧
    leaves .rv64 [(1, 0x1234567800000014), (2, 0xABCDEF00FFFFFFFA)] 0x0220C1BB 3 0xFFFFFFFFFFFFFFFD ∧
    leaves .rv64 [(1, 0x80000000), (2, 0xFFFFFFFF)] 0x0220C1BB 3 0xFFFFFFFF80000000 ∧
    leaves .rv64 [(1, 0x80000000), (2, 0x1)] 0x0220D1BB 3 0xFFFFFFFF80000000 ∧
    leaves .rv64 [(1, 0x12345678FFFFFFEC), (2, 0x0)] 0x0220E1BB 3 0xFFFFFFFFFFFFFFEC ∧
    leaves .rv64 [(1, 0x1234567880000000), (2, 0x0)] 0x0220F1BB 3 0xFFFFFFFF80000000 := by decide +kernel

/-! ## Witnesses: for each statement with hypotheses, a state and operands that meet them, clause by clause -/

/-- `sc.w x7, x8, (x6)` right after the `lr.w` to 0x2004, with a byte stored before. -/
def reserved : Hart XLen.rv32.width :=
  { hart .rv32 [(6, 0x2004), (8, 0x11223344)] 0x188323AF with
    reservation := some { addr := 0x2004, size := .word }
    written := [0x2000] }

/-- The same with a handler that resumes an `ecall` from this state (one of the bytes it lists does not exist) and stops an
`ebreak`. -/
def busy : Hart XLen.rv32.width :=
  { reserved with handler :=
      [⟨.breakpoint, reserved.view, .stop⟩,
       ⟨.call, reserved.view, .resume (Vector.replicate 31 5) 0x1000 [(0x2008, 0xAA), (0x200F, 0xBB), (0x3000, 0xCC)] true⟩] }

/-- An `ecall` or `ebreak` whose handler resumes the very state it is given. -/
def looping (k : EnvKind) (v : InstWord) : Hart XLen.rv32.width :=
  { hart .rv32 [] v with handler := [⟨k, (hart .rv32 [] v).view, .resume (Vector.replicate 31 0) 0x1000 [] true⟩] }

/-- A hart whose platform splits misaligned accesses. -/
def splitting (regs : List (RegNum × Nat)) : Hart XLen.rv64.width :=
  { hart .rv64 regs 0x13 with platform := { platform with misaligned := .split } }

/-- The launch of a word, with one more cell, at 0x3000, where no byte exists. -/
def strayLaunch : Launch XLen.rv32.width :=
  { launch .rv32 [] 0x13 with image := (launch .rv32 [] 0x13).image ++ [(0x3000, 1)] }

/-- Image cells whose bytes exist, the first and the last; a listed cell whose byte does not; an address that is not listed. -/
theorem witness_LaunchStart :
    (strayLaunch.image.map Prod.fst).Nodup ∧
    ((0x1000, 0x13) ∈ strayLaunch.image ∧ strayLaunch.platform.HasByte XLen.rv32.width 0x1000) ∧
    ((0x200F, 0x88) ∈ strayLaunch.image ∧ strayLaunch.platform.HasByte XLen.rv32.width 0x200F) ∧
    ((0x3000, 1) ∈ strayLaunch.image ∧ ¬ strayLaunch.platform.HasByte XLen.rv32.width 0x3000) ∧
    ∀ c ∈ strayLaunch.image, 0x2010 ≠ c.1 := by
  unfold Platform.HasByte; decide +kernel

theorem busy_inv : busy.Inv where
  memCanonical := by decide +kernel
  memExists := by decide +kernel
  writtenRising := by decide +kernel
  writtenExists := by decide +kernel
  pcAligned := by decide +kernel
  handlerAligned := by
    intro row m regs pc bytes keep e
    obtain rfl | rfl : row = _ ∨ row = _ := by simpa only [busy, List.mem_cons, List.not_mem_nil, or_false] using m
    · cases e
    · obtain ⟨-, rfl, -, -⟩ := EnvAnswer.resume.inj e; decide +kernel
  reservationAligned := by
    intro r e
    obtain rfl : ({ addr := 0x2004, size := .word } : Reservation 32) = r := Option.some.inj e
    decide +kernel
  reservationReadable := by
    intro r e
    obtain rfl : ({ addr := 0x2004, size := .word } : Reservation 32) = r := Option.some.inj e
    unfold Permitted; decide +kernel
  reservationFits := by
    intro r e d
    obtain rfl : ({ addr := 0x2004, size := .word } : Reservation 32) = r := Option.some.inj e
    cases d

theorem witness_StepKeepsInvariant :
    State.Inv ⟨.rv32, busy⟩ ∧ ∃ h', step ⟨.rv32, busy⟩ = .next ⟨.rv32, h'⟩ ∧ h'.reg 7 = 0 ∧ h'.mem.read 0x2007 = 0x11 :=
  ⟨busy_inv, next_of_evaluation (by decide +kernel)⟩

theorem witness_StepKeepsParameters :
    busy.handler ≠ [] ∧ ∃ h', step ⟨.rv32, busy⟩ = .next ⟨.rv32, h'⟩ ∧ h'.pc = 0x1004 :=
  ⟨by simp [busy], next_of_evaluation (by decide +kernel)⟩

/-- A raise; and a step that executes neither `ecall` nor `ebreak`. -/
theorem witness_FaultsAreTerminal :
    ((hart .rv32 [(1, 0x2001)] 0x0000A103).outcome = .running ∧
      ∃ h', step ⟨.rv32, hart .rv32 [(1, 0x2001)] 0x0000A103⟩ = .next ⟨.rv32, h'⟩ ∧
        h'.outcome = .raised (.loadAddressMisaligned 0x2001)) ∧
    ¬ Executes .rv32 busy .ecall ∧ ¬ Executes .rv32 busy .ebreak ∧
    ∃ h', step ⟨.rv32, busy⟩ = .next ⟨.rv32, h'⟩ ∧ h'.reservation = none := by
  refine ⟨⟨by decide +kernel, next_of_evaluation (by decide +kernel)⟩, ?_, ?_, next_of_evaluation (by decide +kernel)⟩ <;>
  · rintro ⟨-, v, f, d⟩
    obtain rfl : (0x188323AF : InstWord) = v := Except.ok.inj f
    cases d

theorem witness_EveryStepCompletesOrRaises : busy.outcome = .running ∧ (hart .rv64 [] 0).outcome = .running := by
  decide +kernel

theorem witness_StepRunsDecodedInstruction :
    busy.outcome = .running ∧ busy.pc.toNat % 4 = 0 ∧ Permitted busy .fetch busy.pc 4 ∧
    (∀ k, k < 4 → byteAddr busy.pc k ∉ busy.written) ∧
    decode .rv32 (wordOfBytes (busy.mem.read (byteAddr busy.pc 0)) (busy.mem.read (byteAddr busy.pc 1))
      (busy.mem.read (byteAddr busy.pc 2)) (busy.mem.read (byteAddr busy.pc 3))) = .ok (.scw 7 6 8 false false) := by
  unfold Permitted
  refine ⟨by decide +kernel, by decide +kernel, by decide +kernel, by decide +kernel, rfl⟩

/-- The four clauses: `pc` 0x1002; 0x1004, where no byte exists; 0x2000, whose byte 0x2000 is written; 0x1000. -/
theorem witness_FetchChecks :
    (busy.outcome = .running ∧ ({ busy with pc := 0x1002 } : Hart XLen.rv32.width).pc.toNat % 4 ≠ 0) ∧
    ((0x1004#32).toNat % 4 = 0 ∧ ¬ Permitted busy .fetch 0x1004#32 4) ∧
    ((0x2000#32).toNat % 4 = 0 ∧ Permitted busy .fetch 0x2000#32 4 ∧ ∃ k, k < 4 ∧ byteAddr 0x2000#32 k ∈ busy.written) ∧
    (busy.pc.toNat % 4 = 0 ∧ Permitted busy .fetch busy.pc 4 ∧ ∀ k, k < 4 → byteAddr busy.pc k ∉ busy.written) := by
  unfold Permitted
  exact ⟨by decide +kernel, by decide +kernel, ⟨by decide, by decide +kernel, 0, by decide +kernel⟩, by decide +kernel⟩

theorem witness_RunEndsOnlyByRaise : State.reset.hart.outcome = .running := rfl

theorem witness_PlacedWordIsExecuted :
    State.reset.hart.outcome = .running ∧ State.reset.hart.pc.toNat % 4 = 0 ∧ State.reset.hart.mem.wf ∧
    (Instr.sd 1 2 0xFF8).wellFormed State.reset.xlen = true := by decide +kernel

/-- A word that row 0 selects, and one that no row selects. -/
theorem witness_DecodeFollowsTable :
    (∃ r ∈ opcodeTable, r.selects .rv32 0x002081B3 = true) ∧ (∀ r ∈ opcodeTable, r.selects .rv32 0 = false) ∧
    ∃ (j : Nat) (r : TableRow), opcodeTable[j]? = some r ∧ r.selects .rv64 0x0220F1BB = true :=
  ⟨⟨opcodeTable[0], by simp [opcodeTable, tableArithmetic], by decide +kernel⟩, by decide +kernel,
    70, opcodeTable[70], rfl, by decide +kernel⟩

/-- The fetched word 0, and a word for each of the four disjuncts. -/
theorem witness_UnlistedWordsAreIllegal :
    ((∀ r ∈ opcodeTable, r.selects .rv64 0x00200073 = false) ∧ (hart .rv64 [] 0x00200073).outcome = .running ∧
      (hart .rv64 [] 0x00200073).fetch = .ok 0x00200073) ∧
    (opcodeOf 0x0000000F ∉ [0x03#7, 0x13#7, 0x17#7, 0x1B#7, 0x23#7, 0x2F#7, 0x33#7, 0x37#7, 0x3B#7, 0x63#7, 0x67#7, 0x6F#7, 0x73#7]) ∧
    (opcodeOf 0x0800202F = 0x2F#7 ∧ funct5Of 0x0800202F ≠ 0x02#5 ∧ funct5Of 0x0800202F ≠ 0x03#5) ∧
    (opcodeOf 0x40001033 = 0x33#7 ∧ funct7Of 0x40001033 = 0x20#7 ∧ funct3Of 0x40001033 ≠ 0#3 ∧ funct3Of 0x40001033 ≠ 5#3) ∧
    (opcodeOf 0x00200073 = 0x73#7 ∧ (0x00200073 : InstWord) ≠ 0x00000073 ∧ (0x00200073 : InstWord) ≠ 0x00100073) :=
  ⟨⟨by decide +kernel, by decide +kernel, rfl⟩, by decide +kernel, by decide +kernel, by decide +kernel, by decide +kernel⟩

/-- Rows of the four clauses: `ld` and the 6-bit `slli` with amounts 32 and 63; `add`; the 5-bit `slli`. -/
theorem witness_RowsOfEachWidth :
    (∃ r ∈ opcodeTable, 0x00003003#32 &&& r.mask = r.pattern ∧ r.xlens = [.rv64] ∧ r.mask ≠ 0xFC00707F#32) ∧
    (∃ r ∈ opcodeTable, 0x02009193#32 &&& r.mask = r.pattern ∧ r.xlens = [.rv64] ∧ r.mask = 0xFC00707F#32 ∧
      (0x02009193#32).getLsbD 25 = true) ∧
    (∃ r ∈ opcodeTable, 0x002081B3#32 &&& r.mask = r.pattern ∧ r.xlens ≠ [.rv64] ∧ r.xlens ≠ [.rv32]) ∧
    ∃ r ∈ opcodeTable, 0x01F09193#32 &&& r.mask = r.pattern ∧ r.xlens = [.rv32] := by decide +kernel

theorem witness_DecodeOfEncode :
    (Instr.beq 1 31 0x1000).wellFormed .rv32 = true ∧ (Instr.slli64 31 0 63).wellFormed .rv64 = true := by decide

theorem witness_EncodeOfDecode :
    decode .rv32 0x80208063 = .ok (.beq 1 2 0x1000) ∧ decode .rv64 0x43F0D193 = .ok (.srai64 3 1 63) := ⟨rfl, rfl⟩

/-- An absent row; a 6-bit shift by 32, with 31 the last amount of the other clause. -/
theorem witness_AbsentRowsRaise :
    ((Instr.addw 3 1 2).existsAt .rv32 = false ∧ ∀ rd rs1 shamt,
      Instr.addw 3 1 2 = .slli64 rd rs1 shamt ∨ Instr.addw 3 1 2 = .srli64 rd rs1 shamt ∨
        Instr.addw 3 1 2 = .srai64 rd rs1 shamt → 32 ≤ shamt.toNat) ∧
    ((Instr.slli64 3 1 32).existsAt .rv32 = false ∧ ∀ rd rs1 shamt,
      Instr.slli64 3 1 32 = .slli64 rd rs1 shamt ∨ Instr.slli64 3 1 32 = .srli64 rd rs1 shamt ∨
        Instr.slli64 3 1 32 = .srai64 rd rs1 shamt → 32 ≤ shamt.toNat) ∧ (31#6).toNat < 32 := by
  refine ⟨⟨rfl, fun rd rs1 shamt e => by simp at e⟩, ⟨rfl, fun rd rs1 shamt e => ?_⟩, by decide⟩
  simp only [Instr.slli64.injEq, reduceCtorEq, or_false] at e
  rw [← e.2.2]; decide

/-- `add x3, x1, x2` leaves x1, which is not its destination; `add x0, x1, x2` leaves x0. -/
theorem witness_OnlyDestinationIsWritten :
    (∃ h', exec (.add 3 1 2) ⟨.rv32, busy⟩ = .next ⟨.rv32, h'⟩ ∧ h'.outcome = .running) ∧
    (∃ h', exec (.add 0 1 2) ⟨.rv32, busy⟩ = .next ⟨.rv32, h'⟩ ∧ h'.outcome = .running) ∧
    Instr.add 3 1 2 ≠ .ecall ∧ Instr.add 3 1 2 ≠ .ebreak ∧ Instr.add 0 1 2 ≠ .ecall ∧ Instr.add 0 1 2 ≠ .ebreak ∧
    (Instr.add 3 1 2).destination ≠ some 1 ∧ (Instr.add 0 1 2).destination = some 0 :=
  ⟨next_of_evaluation (by decide +kernel), next_of_evaluation (by decide +kernel), by decide +kernel⟩

/-- The `sc` of `busy` reads x6 and x8; every other register may hold all ones. An `ecall` with no handler reads none. -/
theorem witness_OnlySourcesAreRead :
    (Instr.scw 7 6 8 false false ≠ .ecall ∧ Instr.scw 7 6 8 false false ≠ .ebreak ∧ (hart .rv32 [] 0x73).handler = []) ∧
    busy.outcome = .running ∧
    (∀ r ∈ (Instr.scw 7 6 8 false false).sources,
      ({ busy with regs := ((Vector.replicate 31 0xFFFFFFFF).set 5 0x2004).set 7 0x11223344 } : Hart XLen.rv32.width).reg r =
        busy.reg r) ∧
    ∃ h', exec (.scw 7 6 8 false false) ⟨.rv32, busy⟩ = .next ⟨.rv32, h'⟩ ∧ h'.outcome = .running :=
  ⟨by decide +kernel, by decide +kernel, by decide +kernel, next_of_evaluation (by decide +kernel)⟩

/-- A completing jump; `ecall` without a handler, and `ebreak` with a `stop`. -/
theorem witness_PcAfterInstruction :
    (busy.outcome = .running ∧ ∃ h', exec (.jalr 1 6 1) ⟨.rv32, busy⟩ = .next ⟨.rv32, h'⟩ ∧ h'.outcome = .running) ∧
    ((hart .rv32 [] 0x73).answer .call = .stop ∧
      ∃ h', exec .ecall ⟨.rv32, hart .rv32 [] 0x73⟩ = .next ⟨.rv32, h'⟩ ∧ h'.pc = 0x1000) ∧
    (busy.answer .breakpoint = .stop ∧
      ∃ h', exec .ebreak ⟨.rv32, busy⟩ = .next ⟨.rv32, h'⟩ ∧ h'.pc = 0x1000) :=
  ⟨⟨by decide +kernel, next_of_evaluation (by decide +kernel)⟩,
    ⟨by decide +kernel, next_of_evaluation (by decide +kernel)⟩,
    ⟨by decide +kernel, next_of_evaluation (by decide +kernel)⟩⟩

/-- A load, which stores nothing; a store of two bytes at 0x2002, next to the bytes 0x2001 and 0x2004. -/
theorem witness_MemoryFrame :
    busy.mem.wf ∧ storeAccess busy (.lw 3 6 0) = none ∧ storeAccess busy (.sh 6 8 0xFFE) = some (0x2002#32, 2) ∧
    (∀ k, k < 2 → 0x2001 ≠ byteAddr 0x2002#32 k) ∧ (∀ k, k < 2 → 0x2004 ≠ byteAddr 0x2002#32 k) ∧
    (∃ h', exec (.lw 3 6 0) ⟨.rv32, busy⟩ = .next ⟨.rv32, h'⟩ ∧ h'.reg 3 = 0x89ABCDEF) ∧
    ∃ h', exec (.sh 6 8 0xFFE) ⟨.rv32, busy⟩ = .next ⟨.rv32, h'⟩ ∧ h'.mem.read 0x2003 = 0x33 :=
  ⟨by decide +kernel, rfl, rfl, by decide +kernel, by decide +kernel, next_of_evaluation (by decide +kernel),
    next_of_evaluation (by decide +kernel)⟩

theorem witness_ChangedBytesAreWritten :
    busy.mem.wf ∧ 0x2000 ∈ busy.written ∧
    ∃ h', step ⟨.rv32, busy⟩ = .next ⟨.rv32, h'⟩ ∧ h'.mem.read 0x2004 ≠ busy.mem.read 0x2004 :=
  ⟨by decide +kernel, by decide +kernel, next_of_evaluation (by decide +kernel)⟩

/-- `jal x0, 0`: after one step the word at 0x1000 is fetched again. -/
theorem witness_FetchedWordsAreLaunchWords :
    (hart .rv32 [] 0x6F).mem.wf ∧ (hart .rv32 [] 0x6F).written = [] ∧
    ∃ h', Host.Core.run Sys2Proof.core 1 (⟨.rv32, hart .rv32 [] 0x6F⟩ : State) = .next (⟨.rv32, h'⟩ : State) ∧
      h'.fetch = .ok 0x6F := by
  refine ⟨by decide +kernel, by decide +kernel, ?_⟩
  obtain ⟨h', e, q⟩ : ∃ h', step ⟨.rv32, hart .rv32 [] 0x6F⟩ = .next ⟨.rv32, h'⟩ ∧ h' = hart .rv32 [] 0x6F :=
    next_of_evaluation (by decide +kernel)
  exact ⟨h', by simp only [Host.Core.run, Sys2Proof.core, e], by rw [q]; rfl⟩

/-- A completing `lr`, a completing `sc`, a resumed `ecall`, and a raising `sc`. -/
theorem witness_ReservationLife :
    busy.outcome = .running ∧
    (∃ h', exec (.lrw 5 6 false true) ⟨.rv32, busy⟩ = .next ⟨.rv32, h'⟩ ∧ h'.outcome = .running) ∧
    (∃ h', exec (.scw 7 6 8 false false) ⟨.rv32, busy⟩ = .next ⟨.rv32, h'⟩ ∧ h'.outcome = .running) ∧
    (∃ h', exec .ecall ⟨.rv32, busy⟩ = .next ⟨.rv32, h'⟩ ∧ h'.outcome = .running) ∧
    ∃ h', exec (.scw 7 1 8 false false) ⟨.rv32, busy⟩ = .next ⟨.rv32, h'⟩ ∧ h'.outcome ≠ .running :=
  ⟨by decide +kernel, next_of_evaluation (by decide +kernel), next_of_evaluation (by decide +kernel),
    next_of_evaluation (by decide +kernel), next_of_evaluation (by decide +kernel)⟩

/-- Eight bytes, and a read of the last four of them. -/
theorem witness_ByteOrder : busy.mem.wf ∧ 8 ≤ 8 ∧ 7 < 8 ∧ 4 + 4 ≤ 8 := by decide +kernel

theorem witness_CanonicalMemoryIsUnique :
    busy.mem.wf ∧ (busy.mem.write 0x2000 0x80).wf ∧ ∀ a, busy.mem.read a = (busy.mem.write 0x2000 0x80).read a := by
  have same : busy.mem.write 0x2000 0x80 = busy.mem := by decide +kernel
  rw [same]; exact ⟨by decide +kernel, by decide +kernel, fun _ => rfl⟩

/-- Every `DecodesAs` of the statements: each row's pattern meets its own mask. -/
theorem witness_DecodesAs : ∀ r ∈ opcodeTable, r.pattern &&& r.mask = r.pattern := by decide +kernel

/-- A word with `inst[25] = 1` for each of the patterns that ShiftImmediateResults and WordImmediateResults name. -/
theorem witness_illegal_shift_amounts :
    0x02009193#32 &&& 0xFC00707F#32 = 0x00001013#32 ∧ 0x0200D193#32 &&& 0xFC00707F#32 = 0x00005013#32 ∧
    0x4200D193#32 &&& 0xFC00707F#32 = 0x40005013#32 ∧ 0x0200109B#32 &&& 0x0000707F#32 = 0x0000101B#32 ∧
    0x4200509B#32 &&& 0x0000707F#32 = 0x0000501B#32 ∧ (0x02009193#32).getLsbD 25 = true ∧
    (0x0200D193#32).getLsbD 25 = true ∧ (0x4200D193#32).getLsbD 25 = true ∧ (0x0200109B#32).getLsbD 25 = true ∧
    (0x4200509B#32).getLsbD 25 = true := by decide +kernel

/-- The clauses of every load: aligned, split (at 0x2001, the last halfword at 0x200E), misaligned, denied (at 0x2010). -/
theorem witness_LoadResults :
    (AlignedOrSplit busy 0x200E#32 2 ∧ Permitted busy .read 0x200E#32 2) ∧ ¬ AlignedOrSplit busy 0x200F#32 2 ∧
    (AlignedOrSplit busy 0x2010#32 2 ∧ ¬ Permitted busy .read 0x2010#32 2) := by
  unfold AlignedOrSplit Permitted; decide +kernel

theorem witness_Rv64LoadResults :
    ((0x2001#64).toNat % 8 ≠ 0 ∧ AlignedOrSplit (splitting []) 0x2001#64 8 ∧ Permitted (splitting []) .read 0x2001#64 8) ∧
    ¬ AlignedOrSplit (hart .rv64 [] 0x13) 0x2004#64 8 ∧
    (AlignedOrSplit (splitting []) 0x2009#64 8 ∧ ¬ Permitted (splitting []) .read 0x2009#64 8) := by
  unfold AlignedOrSplit Permitted; decide +kernel

theorem witness_StoreResults :
    busy.mem.wf ∧ (AlignedOrSplit busy 0x200C#32 4 ∧ Permitted busy .write 0x200C#32 4) ∧
    ¬ AlignedOrSplit busy 0x200E#32 4 ∧ (AlignedOrSplit busy 0x2010#32 4 ∧ ¬ Permitted busy .write 0x2010#32 4) := by
  unfold AlignedOrSplit Permitted; decide +kernel

theorem witness_DoubleStoreResult :
    (splitting []).mem.wf ∧ (AlignedOrSplit (splitting []) 0x2008#64 8 ∧ Permitted (splitting []) .write 0x2008#64 8) ∧
    ¬ AlignedOrSplit (hart .rv64 [] 0x13) 0x2009#64 8 ∧
    (AlignedOrSplit (splitting []) 0x2009#64 8 ∧ ¬ Permitted (splitting []) .write 0x2009#64 8) := by
  unfold AlignedOrSplit Permitted; decide +kernel

/-- x6 = x6: taken to an aligned target, the farthest forward one, and to a misaligned one; x6 and x8 differ. -/
theorem witness_BranchResults :
    (busy.reg 6 = busy.reg 6 ∧ (busy.pc + BitVec.ofInt XLen.rv32.width (0xFFC#13).toInt).toNat % 4 = 0) ∧
    (busy.pc + BitVec.ofInt XLen.rv32.width (0xFFE#13).toInt).toNat % 4 ≠ 0 ∧ ¬ busy.reg 6 = busy.reg 8 := by decide +kernel

theorem witness_JumpResults :
    (BitVec.ofInt 32 (busy.pc.toNat + (0x100000#21).toInt)).toNat % 4 = 0 ∧
    (BitVec.ofInt 32 (busy.pc.toNat + (2#21).toInt)).toNat % 4 ≠ 0 ∧
    (BitVec.ofNat 32 ((busy.effAddr 6 1).toNat / 2 * 2)).toNat % 4 = 0 ∧
    (BitVec.ofNat 32 ((busy.effAddr 6 3).toNat / 2 * 2)).toNat % 4 ≠ 0 := by decide +kernel

/-- No handler; a `stop`; an answer that lists two existing bytes once each, and one that does not exist. -/
theorem witness_EnvironmentTransfer :
    (hart .rv64 [] 0x73).handler = [] ∧ (hart .rv64 [] 0x73).answer .call = .stop ∧ busy.answer .breakpoint = .stop ∧
    busy.mem.wf ∧
    busy.answer .call =
      .resume (Vector.replicate 31 5) 0x1000 [(0x2008, 0xAA), (0x200F, 0xBB), (0x3000, 0xCC)] true ∧
    (([(0x2008, 0xAA), (0x200F, 0xBB), (0x3000, 0xCC)] : List Host.Cell).map Prod.fst).Nodup ∧
    busy.platform.HasByte XLen.rv32.width 0x200F ∧ ¬ busy.platform.HasByte XLen.rv32.width 0x3000 := by
  unfold Platform.HasByte
  exact ⟨by decide +kernel, by decide +kernel, by decide +kernel, by decide +kernel, by decide +kernel,
    by decide +kernel, by decide +kernel, by decide +kernel⟩

/-- The last aligned doubleword; a halfway one; the doubleword just past the data. -/
theorem witness_LoadReservedResults :
    ((0x2008#64).toNat % ReservedSize.double.bytes = 0 ∧ Permitted (splitting []) .read 0x2008#64 ReservedSize.double.bytes) ∧
    (0x2004#64).toNat % ReservedSize.double.bytes ≠ 0 ∧
    ((0x2010#64).toNat % ReservedSize.double.bytes = 0 ∧
      ¬ Permitted (splitting []) .read 0x2010#64 ReservedSize.double.bytes) ∧
    ((0x2004#32).toNat % ReservedSize.word.bytes = 0 ∧ Permitted busy .read 0x2004#32 ReservedSize.word.bytes) ∧
    (0x1010202F#32 &&& 0xF800707F#32 = 0x1000202F#32 ∧ rs2Of 0x1010202F ≠ 0) ∧
    (0x11F0302F#32 &&& 0xF800707F#32 = 0x1000302F#32 ∧ rs2Of 0x11F0302F ≠ 0) ∧
    0x1000302F#32 &&& 0xF9F0707F#32 = 0x1000302F#32 := by
  unfold Permitted; decide +kernel

/-- The checks as for `lr`; with them passed, no reservation, a matching one, and one for other bytes. -/
theorem witness_StoreConditionalResults :
    busy.mem.wf ∧ (0x2006#32).toNat % ReservedSize.word.bytes ≠ 0 ∧
    ((0x2010#32).toNat % ReservedSize.word.bytes = 0 ∧ ¬ Permitted busy .write 0x2010#32 ReservedSize.word.bytes) ∧
    ((busy.reg 6).toNat % ReservedSize.word.bytes = 0 ∧ Permitted busy .write (busy.reg 6) ReservedSize.word.bytes) ∧
    (hart .rv32 [(6, 0x2004)] 0x13).reservation = none ∧
    (busy.reservation = some { addr := busy.reg 6, size := .word } ∧ busy.platform.scMayFail = false) ∧
    0x1800302F#32 &&& 0xF800707F#32 = 0x1800302F#32 := by
  unfold Permitted; decide +kernel

theorem witness_OrderingBitsChangeNothing : State.reset.xlen = .rv64 := rfl

/-- The `sc` of `busy` succeeds; x6 still points at a word that may be written. -/
theorem witness_SecondStoreConditionalFails :
    busy.outcome = .running ∧ ∃ h', exec (.scw 7 6 8 false false) ⟨.rv32, busy⟩ = .next ⟨.rv32, h'⟩ ∧
      h'.outcome = .running ∧ (h'.reg 6).toNat % 4 = 0 ∧
      ∀ j, j < 4 → h'.platform.backed (byteAddr (h'.reg 6) j) = true ∧
        (h'.platform.perm (byteAddr (h'.reg 6) j)).grants .write = true :=
  ⟨by decide +kernel, next_of_evaluation (by decide +kernel)⟩

/-- `lr.w x5, (x6)`, `sw x8, 0(x6)`, then an `sc` at x6. -/
theorem witness_StoreConditionalAfterLoadReserved :
    busy.outcome = .running ∧ busy.mem.wf ∧ busy.platform.scMayFail = false ∧ Permitted busy .write (busy.reg 6) 4 ∧
    ∃ h1, exec (.lrw 5 6 false false) ⟨.rv32, busy⟩ = .next ⟨.rv32, h1⟩ ∧ h1.outcome = .running ∧
      (nextHart .rv32 (exec (.sw 6 8 0) ⟨.rv32, h1⟩)).any
        (fun h2 => decide (h2.outcome = .running ∧ h2.reg 6 = busy.reg 6)) = true :=
  ⟨by decide +kernel, by decide +kernel, by decide +kernel, by unfold Permitted; decide +kernel,
    next_of_evaluation (by decide +kernel)⟩

/-- The word statements take the low words of the sources, here of 64-bit values that are not their extensions. -/
theorem witness_WordMultiplyDivideResults :
    (0x80000000#32 = BitVec.ofNat 32 ((hart .rv64 [(1, 0x1234567880000000)] 0x13).reg 1).toNat) ∧
    (0xFFFFFFFF#32 = BitVec.ofNat 32 ((hart .rv64 [(2, 0xFFFFFFFF)] 0x13).reg 2).toNat) := by decide +kernel

/-- A zero divisor, the signed overflow, an ordinary division, and the least dividend by 1. -/
theorem witness_DivisionTable :
    (0#32).toNat = 0 ∧ ((0x80000000#32).toInt = -2 ^ 31 ∧ (0xFFFFFFFF#32).toInt = -1) ∧
    ((1#32).toNat ≠ 0 ∧ ¬ ((0x80000000#32).toInt = -2 ^ 31 ∧ (1#32).toInt = -1)) ∧
    ((5#32).toNat ≠ 0 ∧ 0 ≤ (12#32).toInt) := by decide +kernel

/-- The handler of `busy` resumes at 0x1000 only; the stray cell of the image is no part of the launch. -/
theorem witness_LaunchMeetsInvariant :
    strayLaunch.resetPc.toNat % 4 = 0 ∧
    ∀ row ∈ ({ strayLaunch with handler := busy.handler } : Launch XLen.rv32.width).handler, ∀ regs pc bytes keep,
      row.answer = .resume regs pc bytes keep → pc.toNat % 4 = 0 :=
  ⟨by decide +kernel, busy_inv.handlerAligned⟩

/-- The memory a vector starts from, whose last byte is 0x200F. -/
theorem witness_EveryHandlerIsATable :
    busy.view.mem.wf ∧ ∀ c ∈ busy.view.mem.cells, c.1 < 2 ^ XLen.rv32.width := by decide +kernel

theorem witness_ResumedRunNeverEnds :
    (Executes .rv32 (looping .call 0x73) .ecall ∧
      (looping .call 0x73).answer .call =
        .resume (looping .call 0x73).regs (looping .call 0x73).pc [] true) ∧
    (Executes .rv32 (looping .breakpoint 0x00100073) .ebreak ∧
      (looping .breakpoint 0x00100073).answer .breakpoint =
        .resume (looping .breakpoint 0x00100073).regs (looping .breakpoint 0x00100073).pc [] true) :=
  ⟨⟨⟨by decide +kernel, 0x73, rfl, rfl⟩, by decide +kernel⟩,
    ⟨⟨by decide +kernel, 0x00100073, rfl, rfl⟩, by decide +kernel⟩⟩

/-! ## Single steps that the vectors do not show -/

/-- `sc.w` with no reservation fails and stores nothing (sequence L2). -/
theorem test_step_sc_without_reservation :
    ends .rv32 [(6, 0x2004), (8, 0x11223344)] 0x188323AF (fun h => decide (h.reg 7 = 1 ∧ h.mem.read 0x2004 = 0xEF)) = true := by
  decide +kernel

/-- `lr.d` sets the reservation and loads eight bytes (L11); `lr.d` at 0x2004 raises (L12). -/
theorem test_step_lrd :
    ends .rv64 [(6, 0x2008)] 0x100332AF (fun h => decide (h.reg 5 = 0x8877665544332211 ∧
      h.reservation = some { addr := 0x2008, size := .double })) = true ∧
    raisesAt .rv64 [(6, 0x2004)] 0x100332AF (.loadAddressMisaligned 0x2004) = true := by decide +kernel

/-- `lr.w x6, (x6)`: the address is read before the register is written (the note below L9). -/
theorem test_step_lrw_reads_address_first :
    ends .rv32 [(6, 0x2004)] 0x1003232F (fun h => decide (h.reg 6 = 0x89ABCDEF ∧
      h.reservation = some { addr := 0x2004, size := .word })) = true := by decide +kernel

/-- `sc.d` after a matching `lr.d` stores eight bytes and clears the reservation (L11). -/
theorem test_step_scd_succeeds :
    (nextHart .rv64 (step ⟨.rv64, { hart .rv64 [(6, 0x2008), (8, 0x0102030405060708)] 0x188333AF with
      reservation := some { addr := 0x2008, size := .double } }⟩)).any
      (fun h => decide (h.reg 7 = 0 ∧ h.mem.read 0x2008 = 0x08 ∧ h.mem.read 0x200F = 0x01 ∧ h.reservation = none)) = true := by
  decide +kernel

/-- A resumed `ecall` takes the environment's registers, `pc` and bytes; a byte that changes joins `written` (R310). -/
theorem test_step_ecall_resumed :
    (nextHart .rv32 (step ⟨.rv32, { hart .rv32 [] 0x73 with handler :=
      [⟨.call, (hart .rv32 [] 0x73).view,
        .resume (Vector.replicate 31 5) 0x1008 [(0x2008, 0xAA), (0x3000, 0xBB)] false⟩] }⟩)).any
      (fun h => decide (h.reg 0 = 0 ∧ h.reg 31 = 5 ∧ h.pc = 0x1008 ∧ h.written = [0x2008] ∧ h.mem.read 0x3000 = 0 ∧
        h.handler.length = 1)) = true := by decide +kernel

/-- A handler may resume again and again: this `ecall` steps to the state it is in (R310). -/
theorem test_step_ecall_resumed_in_place :
    (nextHart .rv32 (step ⟨.rv32, looping .call 0x73⟩)).any (fun h => decide (h = looping .call 0x73)) = true := by
  decide +kernel

/-- Where `pc` wraps: `addi` at the last word goes on to 0 and `jal` by 8 from there to 4, neither backward; `jal` by -4 from 0
goes back to the last word; and `jalr` back by 4 and on by 4 (R28, R222). -/
theorem test_goesBackward_across_the_wrap :
    goesBackward { busy with pc := 0xFFFFFFFC } (.addi 1 0 0) = false ∧
    goesBackward { busy with pc := 0xFFFFFFFC } (.jal 0 8) = false ∧
    goesBackward { busy with pc := 0 } (.jal 0 0x1FFFFC) = true ∧
    goesBackward { busy with pc := 0x2008 } (.jalr 0 6 0) = true ∧
    goesBackward { busy with pc := 0x2000 } (.jalr 0 6 0) = false := by decide +kernel

/-- Situation F3: a fetch from a byte without X. -/
theorem test_step_fetch_needs_execute :
    (nextHart .rv32 (step ⟨.rv32, { hart .rv32 [] 0x13 with
      platform := { platform with map := [⟨0x1000, 4, { rwx with exec := false }⟩] } }⟩)).any
      (fun h => decide (h.outcome = .raised (.instructionAccessFault 0x1000))) = true := by decide +kernel

/-- Situation F4: a fetch of a byte that a store has written. -/
theorem test_step_fetch_after_store :
    (nextHart .rv32 (step ⟨.rv32, { hart .rv32 [] 0 with written := [0x1003] }⟩)).any
      (fun h => decide (h.outcome = .raised (.fetchAfterStore 0x1000))) = true := by decide +kernel

/-- Situation F14: the `ecall` pattern with `rd = 1` is no `ecall`. -/
theorem test_step_ecall_pattern : raisesAt .rv32 [] 0x000000F3 (.illegalInstruction 0x000000F3) = true := by decide +kernel

/-- The first step from reset with nothing placed meets the word 0 (assumption 17). -/
theorem test_step_reset :
    (nextHart .rv64 (step State.reset)).any (fun h => decide (h.outcome = .raised (.illegalInstruction 0))) = true := by
  decide +kernel

/-- The first step after placing `sd x2, -8(x1)` runs it. -/
theorem test_step_placed_word :
    (nextHart .rv64 (step (State.reset.withFetchWord 32 0xFE20BC23))).any
      (fun h => decide (h.outcome = .running ∧ h.pc = 0x1004 ∧ 0xFFFFFFFFFFFFFFF8 ∈ h.written)) = true := by decide +kernel

end Sys2Proof.Tests
end

section
/-! The step from the bytes at `pc`: the word that a fetch answers, when it answers one, and what the step then does (R9, R51, R70). -/

namespace Sys2Proof.Machine

variable {w : Nat}

/-- Appending bits below a word shifts it up and adds them. -/
theorem toNat_append_eq_add {m n : Nat} (hi : BitVec m) (lo : BitVec n) :
    (hi ++ lo).toNat = hi.toNat * 2 ^ n + lo.toNat := by
  rw [BitVec.toNat_append, ← Nat.shiftLeft_add_eq_or_of_lt lo.isLt, Nat.shiftLeft_eq]

/-- The word of four bytes is their little-endian number (R51). -/
theorem wordOfBytes_toNat (b0 b1 b2 b3 : Byte) :
    (wordOfBytes b0 b1 b2 b3).toNat =
      b0.toNat + b1.toNat * 2 ^ 8 + b2.toNat * 2 ^ 16 + b3.toNat * 2 ^ 24 := by
  simp only [wordOfBytes, toNat_append_eq_add]
  omega

/-- A read of four bytes answers the word of those bytes, lowest address first (R51). -/
theorem readValue_four (h : Hart w) (a : BitVec w) :
    h.readValue a 4 = wordOfBytes (h.mem.read (byteAddr a 0)) (h.mem.read (byteAddr a 1))
      (h.mem.read (byteAddr a 2)) (h.mem.read (byteAddr a 3)) := by
  apply BitVec.eq_of_toNat_eq
  rw [readValue_toNat, wordOfBytes_toNat]
  simp [bytesNat]

/-- A fetch that passes its three checks answers the word of the four bytes at `pc` (R70). -/
theorem fetch_eq_ok {h : Hart w} (aligned : h.pc.toNat % 4 = 0) (permitted : Permitted h .fetch h.pc 4)
    (unwritten : ∀ k, k < 4 → byteAddr h.pc k ∉ h.written) :
    h.fetch = .ok (wordOfBytes (h.mem.read (byteAddr h.pc 0)) (h.mem.read (byteAddr h.pc 1))
      (h.mem.read (byteAddr h.pc 2)) (h.mem.read (byteAddr h.pc 3))) := by
  rcases fetch_cases h with ⟨misaligned, _⟩ | ⟨_, denied, _⟩ | ⟨_, _, ⟨k, hk, stored⟩, _⟩ | ⟨_, _, _, e⟩
  · exact absurd aligned misaligned
  · exact absurd permitted denied
  · exact absurd stored (unwritten k hk)
  · rw [e, readValue_four]

/-- Where the next step executes `i`, the step is `exec i` and nothing more (R9). -/
theorem step_eq_exec {x : XLen} {h : Hart x.width} {i : Instr} (executes : Executes x h i) :
    step ⟨x, h⟩ = exec i ⟨x, h⟩ := by
  obtain ⟨running, v, fetched, decoded⟩ := executes
  simp only [step, running, fetched, decoded]

/-- Settles O8: the checks that pass and the decoded bytes are what `Executes` asks for. -/
theorem stepRunsDecodedInstruction : Obligations.StepRunsDecodedInstruction :=
  fun _ _ _ running aligned permitted unwritten decoded =>
    step_eq_exec ⟨running, _, fetch_eq_ok aligned permitted unwritten, decoded⟩

end Sys2Proof.Machine
end

section
/-! A memory in canonical form is decided by what it reads as (R33), and what a launch puts into a hart (R37, R342, R343). -/

namespace Sys2Proof.Machine

/-- A listed cell is what its address reads as, and no listed byte is what an unlisted address reads as. -/
theorem mem_cells_iff_read {m : Memory} (hm : m.wf) (c : Host.Cell) :
    c ∈ m.cells ↔ m.read c.1 = c.2 ∧ c.2 ≠ Config.unsetByte := by
  obtain ⟨cells⟩ := m
  change c ∈ cells ↔ cellsRead cells c.1 = c.2 ∧ c.2 ≠ Config.unsetByte
  induction cells with
  | nil => simpa [cellsRead] using Eq.symm
  | cons d cs ih =>
    have rest := ih (cellsWf_tail hm)
    have above := (List.pairwise_cons.mp hm.1).1
    rw [List.mem_cons, cellsRead, rest]
    by_cases e : d.1 = c.1
    · have unlisted : cellsRead cs c.1 = Config.unsetByte := cellsRead_of_lt (e ▸ above)
      rw [if_pos e, unlisted]
      constructor
      · rintro (rfl | ⟨q, n⟩)
        · exact ⟨rfl, hm.2 _ List.mem_cons_self⟩
        · exact absurd q.symm n
      · exact fun ⟨q, _⟩ => .inl (Prod.ext e.symm q.symm)
    · rw [if_neg e, or_iff_right (fun q => e (congrArg Prod.fst q).symm)]

/-- Settles O28: the cells are those that the bytes ask for, and only one list of them rises. -/
theorem canonicalMemoryIsUnique : Obligations.CanonicalMemoryIsUnique := by
  intro m m' hm hm' alike
  have : Std.Irrefl fun c d : Host.Cell => c.1 < d.1 := ⟨fun c => lt_irrefl c.1⟩
  have : Std.Antisymm fun c d : Host.Cell => c.1 < d.1 := ⟨fun _ _ l g => absurd l g.asymm⟩
  have same : m.cells = m'.cells := List.Pairwise.eq_of_mem_iff hm.1 hm'.1 fun c => by
    rw [mem_cells_iff_read hm, mem_cells_iff_read hm', alike]
  exact congrArg Memory.mk same

variable {w : Nat} (l : Launch w)

/-- Memory at the start of a run is in canonical form. -/
theorem launch_mem_wf : l.start.mem.wf := Memory.writeAll_wf Memory.empty_wf _

/-- Memory at the start of a run lists only cells of the image whose bytes exist (R343). -/
theorem launch_mem_cells {c : Host.Cell} (hc : c ∈ l.start.mem.cells) : c ∈ l.image ∧ l.platform.HasByte w c.1 := by
  rcases Memory.writeAll_mem hc with listed | empty
  · exact mem_existingCells.mp listed
  · cases empty

/-- A byte of the image that exists reads as the image says. -/
theorem launch_read_image (once : (l.image.map Prod.fst).Nodup) {c : Host.Cell} (hc : c ∈ l.image)
    (exist : l.platform.HasByte w c.1) : l.start.mem.read c.1 = c.2 :=
  Memory.read_writeAll_same Memory.empty_wf (once.sublist (List.filter_sublist.map _))
    (mem_existingCells.mpr ⟨hc, exist⟩)

/-- Every other byte reads as an unset byte does. -/
theorem launch_read_other {a : Nat} (other : (∀ c ∈ l.image, a ≠ c.1) ∨ ¬ l.platform.HasByte w a) :
    l.start.mem.read a = Config.unsetByte := by
  refine Memory.read_writeAll_other Memory.empty_wf fun c hc e => ?_
  obtain ⟨listed, exist⟩ := mem_existingCells.mp hc
  rcases other with unlisted | absent
  · exact unlisted c listed e
  · exact absent (e ▸ exist)

/-- Settles O1: the fields are the launch's, and each byte is one of the image that exists or one that is not set. -/
theorem launchStart : Obligations.LaunchStart :=
  fun _ l once => ⟨rfl, rfl, rfl, rfl, rfl, rfl, rfl, rfl, launch_mem_wf l,
    fun _ hc exist => launch_read_image l once hc exist, fun _ other => launch_read_other l other⟩

/-- Settles O54: nothing is written or reserved yet, so the clauses left are on memory, `RESET_PC` and the handler. -/
theorem launchMeetsInvariant : Obligations.LaunchMeetsInvariant := fun _ l aligned handlerAligned =>
  { memCanonical := launch_mem_wf l
    memExists := fun _ hc => (launch_mem_cells l hc).2
    writtenRising := List.Pairwise.nil
    writtenExists := nofun
    pcAligned := aligned
    handlerAligned := handlerAligned
    reservationAligned := nofun
    reservationReadable := nofun
    reservationFits := nofun }

/-- The launch that `State.reset` is the start of: an empty image, and every value one of `Config` (assumptions 1 to 5). -/
def resetLaunch : Launch XLen.rv64.width where
  platform := Config.resetPlatform
  handler := []
  image := []
  resetPc := BitVec.ofNat _ Config.resetPc
  regs := Vector.replicate 31 0
  draws := 0

theorem reset_eq_start : State.reset = ⟨.rv64, resetLaunch.start⟩ := rfl

/-- Every register is zero at reset (assumption 2). -/
theorem reset_reg (r : RegNum) : State.reset.hart.reg r = 0 := by
  unfold Hart.reg
  split
  · rfl
  · exact Vector.getElem_replicate ..

/-- Settles O2: each field of the record, and the launch it is the start of. -/
theorem resetState : Obligations.ResetState :=
  ⟨rfl, rfl, rfl, rfl, rfl, reset_reg, resetLaunch, rfl, reset_eq_start⟩

/-- Settles O3: reset is a launch at an aligned `RESET_PC` with the default handler. -/
theorem resetMeetsInvariant : Obligations.ResetMeetsInvariant :=
  launchMeetsInvariant .rv64 resetLaunch rfl nofun

end Sys2Proof.Machine
end

section
/-! What every step keeps: the parameters of the run, the invariant of the machine, and that every changed byte is in `written`. Each
is a rule per operation of the state, then the cases of `Effect`. -/

namespace Sys2Proof.Machine

/-- Everything that a step which answers a next state can do (R9): it raises, or it executes the instruction that it fetched. -/
theorem step_next_cases {x : XLen} {h : Hart x.width} {s' : State} (e : step ⟨x, h⟩ = .next s') :
    ∃ h' : Hart x.width, s' = ⟨x, h'⟩ ∧ ((∃ f, h' = h.raise f) ∨ ∃ i, Executes x h i ∧ Effect x h i h') := by
  rcases step_cases x h with
    ⟨f, -, q⟩ | ⟨-, f, -, q⟩ | ⟨-, v, -, -, q⟩ | ⟨running, v, i, fetched, decoded, q⟩ <;> rw [q] at e
  · cases e
  · cases e; exact ⟨_, rfl, .inl ⟨f, rfl⟩⟩
  · cases e; exact ⟨_, rfl, .inl ⟨_, rfl⟩⟩
  · obtain ⟨h', ends, effect⟩ := exec_effect x h i
    rw [ends] at e
    cases e
    exact ⟨h', rfl, .inr ⟨i, ⟨running, v, fetched, decoded⟩, effect⟩⟩

/-! ## The parameters of a run (R36) -/

/-- No instruction changes the platform: each operation leaves it. -/
theorem Effect.platform_eq {x : XLen} {h h' : Hart x.width} {i : Instr} (e : Effect x h i h') :
    h'.platform = h.platform := by
  cases e <;> simp

/-- No instruction changes the handler: each operation leaves it. -/
theorem Effect.handler_eq {x : XLen} {h h' : Hart x.width} {i : Instr} (e : Effect x h i h') :
    h'.handler = h.handler := by
  cases e <;> simp

/-- Settles O5: neither a raise nor an instruction changes the parameters. -/
theorem stepKeepsParameters : Obligations.StepKeepsParameters := by
  intro x h s' e
  obtain ⟨h', same, ⟨f, rfl⟩ | ⟨i, -, effect⟩⟩ := step_next_cases e
  · exact ⟨_, same, rfl, rfl⟩
  · exact ⟨h', same, effect.platform_eq, effect.handler_eq⟩

/-! ## The invariant, operation by operation -/

section Operations

variable {w : Nat} {h h' : Hart w}

/-- The permissions of an access are decided by the platform alone (R62). -/
theorem Permitted.of_platform_eq {k : Access} {a : BitVec w} {n : Nat} (allowed : Permitted h k a n)
    (platform : h'.platform = h.platform) : Permitted h' k a n := by
  unfold Permitted
  rw [platform]
  exact allowed

/-- Every byte of a permitted access exists (R62). -/
theorem Permitted.exists_of_mem_span {k : Access} {a : BitVec w} {n b : Nat} (allowed : Permitted h k a n)
    (hb : b ∈ span a n) : b < 2 ^ w ∧ h.platform.backed b = true := by
  obtain ⟨j, hj, rfl⟩ := mem_span.mp hb
  exact ⟨byteAddr_lt a j, (allowed j hj).1⟩

/-- The invariant speaks of no register, outcome or counter, and it stays where the reservation is kept or dropped. -/
theorem Hart.Inv.of_frame (inv : h.Inv) (platform : h'.platform = h.platform) (handler : h'.handler = h.handler)
    (mem : h'.mem = h.mem) (written : h'.written = h.written) (aligned : h'.pc.toNat % 4 = 0)
    (reservation : ∀ r, h'.reservation = some r → h.reservation = some r) : h'.Inv where
  memCanonical := mem ▸ inv.memCanonical
  memExists := by rw [mem, platform]; exact inv.memExists
  writtenRising := written ▸ inv.writtenRising
  writtenExists := by rw [written, platform]; exact inv.writtenExists
  pcAligned := aligned
  handlerAligned := handler ▸ inv.handlerAligned
  reservationAligned := fun r e => inv.reservationAligned r (reservation r e)
  reservationReadable := fun r e => (inv.reservationReadable r (reservation r e)).of_platform_eq platform
  reservationFits := fun r e => inv.reservationFits r (reservation r e)

theorem Hart.Inv.raise (inv : h.Inv) (f : Fault) : (h.raise f).Inv :=
  inv.of_frame rfl rfl rfl rfl inv.pcAligned fun _ => id

theorem Hart.Inv.setPc (inv : h.Inv) {t : BitVec w} (aligned : t.toNat % 4 = 0) : (h.setPc t).Inv :=
  inv.of_frame rfl rfl rfl rfl aligned fun _ => id

theorem Hart.Inv.setReg (inv : h.Inv) (rd : RegNum) (v : BitVec w) : (h.setReg rd v).Inv :=
  inv.of_frame (by simp) (by simp) (by simp) (by simp) (by simpa using inv.pcAligned) (by simp)

theorem Hart.Inv.countDraw (inv : h.Inv) (taken : Bool) : (h.countDraw taken).Inv :=
  inv.of_frame (by simp) (by simp) (by simp) (by simp) (by simpa using inv.pcAligned) (by simp)

theorem Hart.Inv.dropReservation (inv : h.Inv) : (h.setReservation none).Inv :=
  inv.of_frame rfl rfl rfl rfl inv.pcAligned nofun

/-- A reservation that `lr` sets has passed the checks of `lr` (R217). -/
theorem Hart.Inv.reserve (inv : h.Inv) {r : Reservation w} (aligned : r.addr.toNat % r.size.bytes = 0)
    (allowed : Permitted h .read r.addr r.size.bytes) (fits : r.size = .double → w = 64) :
    (h.setReservation (some r)).Inv where
  memCanonical := inv.memCanonical
  memExists := inv.memExists
  writtenRising := inv.writtenRising
  writtenExists := inv.writtenExists
  pcAligned := inv.pcAligned
  handlerAligned := inv.handlerAligned
  reservationAligned := fun _ e => Option.some.inj e ▸ aligned
  reservationReadable := fun _ e => Option.some.inj e ▸ allowed.of_platform_eq rfl
  reservationFits := fun _ e => Option.some.inj e ▸ fits

/-- A permitted store lists only bytes that exist (R56, R62). -/
theorem Hart.Inv.writeValue (inv : h.Inv) {a : BitVec w} {n : Nat} (allowed : Permitted h .write a n)
    (v : BitVec (8 * n)) : (h.writeValue a n v).Inv where
  memCanonical := Memory.writeAll_wf inv.memCanonical _
  memExists := by
    intro c hc
    rcases Memory.writeAll_mem hc with stored | before
    · exact allowed.exists_of_mem_span (cellsOf_fst a n v ▸ List.mem_map_of_mem stored)
    · exact inv.memExists c before
  writtenRising := addrInsertAll_rising inv.writtenRising _
  writtenExists := by
    intro b hb
    rcases mem_addrInsertAll.mp hb with before | stored
    · exact inv.writtenExists b before
    · exact allowed.exists_of_mem_span stored
  pcAligned := inv.pcAligned
  handlerAligned := inv.handlerAligned
  reservationAligned := inv.reservationAligned
  reservationReadable := inv.reservationReadable
  reservationFits := inv.reservationFits

/-- What a resuming environment adds to `written`: the listed bytes that exist and that have changed (R310). -/
theorem mem_written_resume {regs : Vector (BitVec w) 31} {pc : BitVec w} {bytes : List Host.Cell} {keep : Bool} {a : Nat} :
    a ∈ (h.resume regs pc bytes keep).written ↔ a ∈ h.written ∨
      (∃ c ∈ h.platform.existingCells w bytes, c.1 = a) ∧ (h.resume regs pc bytes keep).mem.read a ≠ h.mem.read a := by
  simp only [Hart.resume, mem_addrInsertAll, List.mem_filter, List.mem_map, decide_eq_true_eq]

/-- A resuming environment writes only bytes that exist (R310, assumption 15). -/
theorem Hart.Inv.resume (inv : h.Inv) (regs : Vector (BitVec w) 31) {pc : BitVec w} (bytes : List Host.Cell) (keep : Bool)
    (aligned : pc.toNat % 4 = 0) : (h.resume regs pc bytes keep).Inv := by
  have kept : ∀ r, (h.resume regs pc bytes keep).reservation = some r → h.reservation = some r := by
    cases keep <;> simp
  exact {
    memCanonical := Memory.writeAll_wf inv.memCanonical _
    memExists := by
      intro c hc
      rcases Memory.writeAll_mem hc with listed | before
      · exact (mem_existingCells.mp listed).2
      · exact inv.memExists c before
    writtenRising := addrInsertAll_rising inv.writtenRising _
    writtenExists := by
      intro a ha
      rcases mem_written_resume.mp ha with before | ⟨⟨c, listed, rfl⟩, -⟩
      · exact inv.writtenExists a before
      · exact (mem_existingCells.mp listed).2
    pcAligned := aligned
    handlerAligned := inv.handlerAligned
    reservationAligned := fun r e => inv.reservationAligned r (kept r e)
    reservationReadable := fun r e => (inv.reservationReadable r (kept r e)).of_platform_eq rfl
    reservationFits := fun r e => inv.reservationFits r (kept r e) }

/-- Where the handler of a hart inside the invariant resumes is a multiple of 4. -/
theorem Hart.Inv.resumePc_aligned (inv : h.Inv) {k : EnvKind} {regs : Vector (BitVec w) 31} {pc : BitVec w}
    {bytes : List Host.Cell} {keep : Bool} (answer : h.answer k = .resume regs pc bytes keep) : pc.toNat % 4 = 0 :=
  inv.handlerAligned _ (handlerAnswer_mem answer nofun) regs pc bytes keep rfl

end Operations

section Effects

variable {x : XLen} {h h' : Hart x.width} {i : Instr}

/-- The instruction after an aligned one is aligned, also where the address wraps (R26, R28). -/
theorem toNat_add_four_mod_four {a : BitVec x.width} (aligned : a.toNat % 4 = 0) : (a + 4).toNat % 4 = 0 := by
  have divides : 4 ∣ 2 ^ x.width := by cases x <;> decide
  have sum : (a + 4).toNat = (a.toNat + 4) % 2 ^ x.width := toNat_add_byte a 4
  rw [sum, Nat.mod_mod_of_dvd _ divides]
  omega

theorem Hart.Inv.advance (inv : h.Inv) : h.advance.Inv := inv.setPc (toNat_add_four_mod_four inv.pcAligned)

theorem Hart.Inv.writeNext (inv : h.Inv) (rd : RegNum) (v : BitVec x.width) : (h.writeNext rd v).Inv :=
  (inv.setReg rd v).advance

/-- Every instruction keeps the invariant: its effect is made of operations that do. -/
theorem Effect.keeps_inv (e : Effect x h i h') (inv : h.Inv) : h'.Inv := by
  cases e with
  | wrote rd v => exact inv.writeNext rd v
  | stored a n v _ _ allowed => exact (inv.writeValue allowed _).advance
  | fell => exact inv.advance
  | branched t _ aligned => exact inv.setPc aligned
  | linked rd t _ aligned => exact (inv.setReg rd _).setPc aligned
  | reserved sz rd a aq rl v _ aligned allowed fits =>
    exact (inv.reserve aligned allowed fun d => congrArg XLen.width (fits d)).writeNext rd v
  | scStored sz rd a b aq rl _ allowed =>
    have cleared := (inv.countDraw (h.scDraws (h.reg a) sz)).dropReservation
    exact (cleared.writeValue (allowed.of_platform_eq (by simp)) _).writeNext rd 0
  | scFailed sz rd a => exact (inv.countDraw (h.scDraws (h.reg a) sz)).dropReservation.writeNext rd 1
  | resumed k regs pc bytes keep _ answer => exact inv.resume regs bytes keep (inv.resumePc_aligned answer)
  | called | targetMisaligned | loadMisaligned | loadDenied | storeMisaligned | storeDenied | absent => exact inv.raise _

/-- Settles O4: a step raises or executes an instruction, and both keep the invariant. -/
theorem stepKeepsInvariant : Obligations.StepKeepsInvariant := by
  rintro ⟨x, h⟩ s' inv e
  obtain ⟨h', rfl, ⟨f, rfl⟩ | ⟨i, -, effect⟩⟩ := step_next_cases e
  · exact Hart.Inv.raise inv f
  · exact effect.keeps_inv inv

end Effects

/-! ## Changed bytes are in `written` (R35, R56, R310) -/

section Written

variable {w : Nat} {h h' : Hart w}

/-- From `h` to `h'` no byte leaves `written`, and every byte that changed is in it. -/
def RecordsChanges (h h' : Hart w) : Prop :=
  (∀ a, a ∈ h.written → a ∈ h'.written) ∧ ∀ a, h'.mem.read a ≠ h.mem.read a → a ∈ h'.written

/-- Only memory and `written` matter. -/
theorem RecordsChanges.congr {g g' : Hart w} (r : RecordsChanges h h') (mem : g.mem = h.mem) (written : g.written = h.written)
    (mem' : g'.mem = h'.mem) (written' : g'.written = h'.written) : RecordsChanges g g' := by
  unfold RecordsChanges
  rw [mem, written, mem', written']
  exact r

theorem RecordsChanges.refl (h : Hart w) : RecordsChanges h h := ⟨fun _ => id, fun _ changed => absurd rfl changed⟩

theorem recordsChanges_of_eq (mem : h'.mem = h.mem) (written : h'.written = h.written) : RecordsChanges h h' :=
  (RecordsChanges.refl h).congr rfl rfl mem written

theorem recordsChanges_writeValue (hm : h.mem.wf) (a : BitVec w) (n : Nat) (v : BitVec (8 * n)) :
    RecordsChanges h (h.writeValue a n v) := by
  refine ⟨fun b hb => mem_addrInsertAll.mpr (.inl hb), fun b changed => mem_addrInsertAll.mpr (.inr ?_)⟩
  by_contra outside
  refine changed (Memory.read_writeAll_other hm fun c hc e => outside ?_)
  rw [e, ← cellsOf_fst a n v]
  exact List.mem_map_of_mem hc

theorem recordsChanges_resume (hm : h.mem.wf) (regs : Vector (BitVec w) 31) (pc : BitVec w) (bytes : List Host.Cell)
    (keep : Bool) : RecordsChanges h (h.resume regs pc bytes keep) := by
  refine ⟨fun b hb => mem_written_resume.mpr (.inl hb), fun b changed => mem_written_resume.mpr (.inr ⟨?_, changed⟩)⟩
  by_contra unlisted
  exact changed (Memory.read_writeAll_other hm fun c hc e => unlisted ⟨c, hc, e.symm⟩)

end Written

/-- Every instruction records the bytes that it changes: only a store, an `sc` that stores and a resuming environment write. -/
theorem Effect.recordsChanges {x : XLen} {h h' : Hart x.width} {i : Instr} (e : Effect x h i h') (hm : h.mem.wf) :
    RecordsChanges h h' := by
  cases e with
  | stored a n v => exact (recordsChanges_writeValue hm a n (v.setWidth (8 * n))).congr rfl rfl rfl rfl
  | scStored sz rd a b =>
    exact (recordsChanges_writeValue hm (h.reg a) sz.bytes ((h.reg b).setWidth _)).congr rfl rfl (by simp) (by simp)
  | resumed k regs pc bytes keep => exact recordsChanges_resume hm regs pc bytes keep
  | wrote | fell | branched | linked | reserved | scFailed => exact recordsChanges_of_eq (by simp) (by simp)
  | called | targetMisaligned | loadMisaligned | loadDenied | storeMisaligned | storeDenied | absent =>
    exact recordsChanges_of_eq rfl rfl

/-- Settles O24: a raise changes no byte, and every instruction records those it changes. -/
theorem changedBytesAreWritten : Obligations.ChangedBytesAreWritten := by
  intro x h h' hm e
  obtain ⟨_, same, ends⟩ := step_next_cases e
  cases same
  rcases ends with ⟨f, rfl⟩ | ⟨i, -, effect⟩
  · exact recordsChanges_of_eq rfl rfl
  · exact effect.recordsChanges hm

end Sys2Proof.Machine
end

section
/-! The operands of an instruction and where `pc` goes: the registers it may write, the registers it may read, and the next
`pc` (R21, R23, R27). -/

namespace Sys2Proof.Machine

/-- Only `ecall` and `ebreak` hand control to the environment (R310). -/
theorem EnvKind.instr_cases (k : EnvKind) : k.instr = .ecall ∨ k.instr = .ebreak := by
  cases k
  · exact .inl rfl
  · exact .inr rfl

/-! ## The register that is written (R21, R23) -/

theorem setReg_reg_other {w : Nat} (h : Hart w) {rd r : RegNum} (v : BitVec w) (other : ¬ (r = rd ∧ r ≠ 0)) :
    (h.setReg rd v).reg r = h.reg r := by
  rw [Hart.reg_setReg, if_neg other]

theorem writeNext_reg_other {w : Nat} (h : Hart w) {rd r : RegNum} (v : BitVec w) (other : ¬ (r = rd ∧ r ≠ 0)) :
    (h.writeNext rd v).reg r = h.reg r :=
  setReg_reg_other h v other

/-- An instruction that is neither `ecall` nor `ebreak` leaves every register but its destination, and x0. -/
theorem Effect.reg_eq {x : XLen} {h h' : Hart x.width} {i : Instr} (e : Effect x h i h') (notCall : i ≠ .ecall ∧ i ≠ .ebreak)
    {r : RegNum} (other : i.destination ≠ some r ∨ r = 0) : h'.reg r = h.reg r := by
  have apart : ∀ rd, i.destination = some rd → ¬ (r = rd ∧ r ≠ 0) := by
    rintro rd dest ⟨rfl, nonzero⟩
    exact other.elim (fun ne => ne dest) nonzero
  cases e with
  | wrote rd v dest => exact writeNext_reg_other h v (apart rd dest)
  | linked rd t _ _ dest => exact setReg_reg_other h _ (apart rd dest)
  | reserved sz rd a aq rl v same => exact writeNext_reg_other _ v (apart rd (same ▸ lrOf_destination sz rd a aq rl))
  | scStored sz rd a b aq rl same | scFailed sz rd a b aq rl same =>
    rw [writeNext_reg_other _ _ (apart rd (same ▸ scOf_destination sz rd a b aq rl))]
    simp
  | resumed k _ _ _ _ call => exact absurd (call ▸ k.instr_cases) (not_or.mpr notCall)
  | stored | fell | branched => simp
  | called | targetMisaligned | loadMisaligned | loadDenied | storeMisaligned | storeDenied | absent => simp

/-- Settles O20: the registers that each effect leaves alone. -/
theorem onlyDestinationIsWritten : Obligations.OnlyDestinationIsWritten :=
  fun _ _ _ _ e notEcall notEbreak _ other => (effect_of_next e).reg_eq ⟨notEcall, notEbreak⟩ other

/-! ## Where `pc` goes (R27) -/

/-- `ecall` and `ebreak` do what the environment answers, and nothing else (R203, R204). -/
theorem exec_envKind {x : XLen} (h : Hart x.width) (k : EnvKind) : exec k.instr ⟨x, h⟩ = .next ⟨x, h.transfer k⟩ := by
  cases k <;> rfl

/-- A completing instruction that is neither `ecall` nor `ebreak` goes to its target, where it has one, else to `pc + 4`. -/
theorem Effect.pc_eq {x : XLen} {h h' : Hart x.width} {i : Instr} (e : Effect x h i h') (notCall : i ≠ .ecall ∧ i ≠ .ebreak)
    (completes : h'.outcome = .running) : h'.pc = (transferTarget h i).getD (h.pc + 4) := by
  cases e with
  | wrote _ _ _ noTarget | stored _ _ _ _ _ _ _ noTarget | fell _ noTarget => simp [noTarget]
  | branched t target | linked _ t target => simp [target]
  | reserved _ _ _ _ _ _ same | scStored _ _ _ _ _ _ same | scFailed _ _ _ _ _ _ same => subst same; simp
  | resumed k _ _ _ _ call => exact absurd (call ▸ k.instr_cases) (not_or.mpr notCall)
  | called | targetMisaligned | loadMisaligned | loadDenied | storeMisaligned | storeDenied | absent => cases completes

/-- Settles O22: the target or `pc + 4` by the effects, and a raise where the environment stops. -/
theorem pcAfterInstruction : Obligations.PcAfterInstruction := by
  intro x i h h' _ e
  refine ⟨fun ⟨notEcall, notEbreak, completes⟩ => (effect_of_next e).pc_eq ⟨notEcall, notEbreak⟩ completes, ?_⟩
  rintro k rfl stop
  rw [exec_envKind] at e
  cases e
  rcases transfer_cases h k with ⟨_, _, _, _, answer, _⟩ | ⟨_, raises⟩
  · rw [stop] at answer
    cases answer
  · rw [raises, Hart.raise_pc]

/-! ## The registers that are read (R23) -/

section Agreement

variable {w : Nat} {g h : Hart w}

/-- Two harts that differ in their registers alone. -/
def SameButRegs (g h : Hart w) : Prop := ∃ regs, g = { h with regs := regs }

/-- Two harts after an instruction with destination `dest` that cannot be told apart: they differ in their registers alone, and
not in the destination where the instruction completed. -/
def AgreeOn (dest : Option RegNum) (g h : Hart w) : Prop :=
  SameButRegs g h ∧ (h.outcome = .running → ∀ rd, dest = some rd → g.reg rd = h.reg rd)

theorem SameButRegs.setReg (same : SameButRegs g h) (rd : RegNum) (u v : BitVec w) :
    SameButRegs (g.setReg rd u) (h.setReg rd v) := by
  obtain ⟨regs, rfl⟩ := same
  unfold Hart.setReg
  split
  · exact ⟨_, rfl⟩
  · exact ⟨_, rfl⟩

theorem SameButRegs.countDraw (same : SameButRegs g h) (taken : Bool) : SameButRegs (g.countDraw taken) (h.countDraw taken) := by
  obtain ⟨regs, rfl⟩ := same
  cases taken
  · exact ⟨_, rfl⟩
  · exact ⟨_, rfl⟩

theorem SameButRegs.setPc (same : SameButRegs g h) (t : BitVec w) : SameButRegs (g.setPc t) (h.setPc t) := by
  obtain ⟨regs, rfl⟩ := same
  exact ⟨_, rfl⟩

theorem SameButRegs.advance (same : SameButRegs g h) : SameButRegs g.advance h.advance := by
  obtain ⟨regs, rfl⟩ := same
  exact ⟨_, rfl⟩

theorem SameButRegs.raise (same : SameButRegs g h) (f : Fault) : SameButRegs (g.raise f) (h.raise f) := by
  obtain ⟨regs, rfl⟩ := same
  exact ⟨_, rfl⟩

theorem SameButRegs.setReservation (same : SameButRegs g h) (r : Option (Reservation w)) :
    SameButRegs (g.setReservation r) (h.setReservation r) := by
  obtain ⟨regs, rfl⟩ := same
  exact ⟨_, rfl⟩

theorem SameButRegs.writeValue (same : SameButRegs g h) (a : BitVec w) (n : Nat) (v : BitVec (8 * n)) :
    SameButRegs (g.writeValue a n v) (h.writeValue a n v) := by
  obtain ⟨regs, rfl⟩ := same
  exact ⟨_, rfl⟩

/-- What an instruction computes from `pc`, memory and the checks is the same on harts that differ in their registers alone. -/
theorem SameButRegs.computed (same : SameButRegs g h) :
    g.pc = h.pc ∧ (∀ a n, g.readValue a n = h.readValue a n) ∧
      (∀ strict a n, g.loadFault strict a n = h.loadFault strict a n) ∧
      (∀ strict a n, g.storeFault strict a n = h.storeFault strict a n) ∧
      (∀ a sz, g.scSucceeds a sz = h.scSucceeds a sz) ∧ ∀ a sz, g.scDraws a sz = h.scDraws a sz := by
  obtain ⟨regs, rfl⟩ := same
  exact ⟨rfl, fun _ _ => rfl, fun _ _ _ => rfl, fun _ _ _ => rfl, fun _ _ => rfl, fun _ _ => rfl⟩

/-- A hart that has raised has not completed, so nothing is asked of the destination. -/
theorem SameButRegs.agreeOn_raise (same : SameButRegs g h) (dest : Option RegNum) (f : Fault) :
    AgreeOn dest (g.raise f) (h.raise f) :=
  ⟨same.raise f, nofun⟩

/-- An instruction without a destination. -/
theorem SameButRegs.agreeOn_none (same : SameButRegs g h) : AgreeOn none g h := ⟨same, nofun⟩

/-- A register that both harts write with one value agrees, also when it is x0. -/
theorem SameButRegs.agreeOn_setReg (same : SameButRegs g h) (rd : RegNum) (v : BitVec w) :
    AgreeOn (some rd) (g.setReg rd v) (h.setReg rd v) := by
  refine ⟨same.setReg rd v v, fun _ r e => ?_⟩
  cases e
  rw [Hart.reg_setReg, Hart.reg_setReg]
  split
  · rfl
  · next x0 =>
    obtain rfl : rd = 0 := by simpa using x0
    rfl

/-- `pc` is no register. -/
theorem AgreeOn.setPc {dest : Option RegNum} (agree : AgreeOn dest g h) (t : BitVec w) :
    AgreeOn dest (g.setPc t) (h.setPc t) :=
  ⟨agree.1.setPc t, agree.2⟩

theorem SameButRegs.agreeOn_writeNext (same : SameButRegs g h) (rd : RegNum) (v : BitVec w) :
    AgreeOn (some rd) (g.writeNext rd v) (h.writeNext rd v) :=
  ⟨(same.setReg rd v v).advance, (same.agreeOn_setReg rd v).2⟩

end Agreement

/-! ### The shapes of meaning -/

section Shapes

variable {w : Nat} {srcs : List RegNum}

/-- `val` is the same on harts that agree outside the registers and in the registers `srcs`. -/
def DecidedBy {α : Type} (srcs : List RegNum) (val : Hart w → α) : Prop :=
  ∀ g h : Hart w, SameButRegs g h → (∀ r ∈ srcs, g.reg r = h.reg r) → val g = val h

/-- `f` takes harts that agree outside the registers, and in the registers `srcs`, to harts that agree but for registers other
than `dest`. -/
def ReadsOnly (srcs : List RegNum) (dest : Option RegNum) (f : Hart w → Hart w) : Prop :=
  ∀ g h : Hart w, SameButRegs g h → (∀ r ∈ srcs, g.reg r = h.reg r) → AgreeOn dest (f g) (f h)

theorem decidedBy_reg {r : RegNum} (source : r ∈ srcs) : DecidedBy srcs fun h : Hart w => h.reg r :=
  fun _ _ _ agree => agree r source

theorem decidedBy_effAddr {r : RegNum} (source : r ∈ srcs) (imm : BitVec 12) :
    DecidedBy srcs fun h : Hart w => h.effAddr r imm :=
  fun _ _ _ agree => congrArg (· + imm12 imm) (agree r source)

theorem decidedBy_pc : DecidedBy srcs fun h : Hart w => h.pc := fun _ _ same _ => same.computed.1

/-- What is computed from one decided value. -/
theorem DecidedBy.map {α β : Type} {arg : Hart w → α} {val : Hart w → β} (decided : DecidedBy srcs arg)
    (computed : ∀ g h, arg g = arg h → val g = val h) : DecidedBy srcs val :=
  fun g h same agree => computed g h (decided g h same agree)

/-- What is computed from two registers. -/
theorem decidedBy_regs {β : Type} {a b : RegNum} {val : Hart w → β}
    (computed : ∀ g h : Hart w, g.reg a = h.reg a → g.reg b = h.reg b → val g = val h) : DecidedBy [a, b] val :=
  fun g h _ agree => computed g h (agree a (by simp)) (agree b (by simp))

variable {rd : RegNum} {addr val : Hart w → BitVec w}

theorem readsOnly_writeNext (result : DecidedBy srcs val) : ReadsOnly srcs (some rd) fun h => h.writeNext rd (val h) := by
  intro g h same agree
  dsimp only
  rw [result g h same agree]
  exact same.agreeOn_writeNext rd _

theorem readsOnly_shiftNext {i : Instr} {amount : Nat} (result : DecidedBy srcs val) :
    ReadsOnly srcs (some rd) fun h => h.shiftNext i rd amount (val h) := by
  intro g h same agree
  dsimp only
  rw [result g h same agree]
  unfold Hart.shiftNext
  split
  · exact same.agreeOn_writeNext rd _
  · exact same.agreeOn_raise _ _

theorem readsOnly_load {n : Nat} {ext : BitVec (8 * n) → BitVec w} (address : DecidedBy srcs addr) :
    ReadsOnly srcs (some rd) fun h => h.load rd (addr h) n ext := by
  intro g h same agree
  dsimp only
  obtain ⟨-, value, checks, -⟩ := same.computed
  unfold Hart.load
  rw [address g h same agree, checks, value]
  split
  · exact same.agreeOn_raise _ _
  · exact same.agreeOn_writeNext rd _

theorem readsOnly_store {n : Nat} (address : DecidedBy srcs addr) (value : DecidedBy srcs val) :
    ReadsOnly srcs none fun h => h.store (addr h) n (val h) := by
  intro g h same agree
  dsimp only
  obtain ⟨-, -, -, checks, -⟩ := same.computed
  unfold Hart.store
  rw [address g h same agree, value g h same agree, checks]
  split
  · exact same.agreeOn_raise _ _
  · exact (same.writeValue _ n _).advance.agreeOn_none

theorem readsOnly_branch {offset : BitVec 13} {taken : Hart w → Bool} (condition : DecidedBy srcs taken) :
    ReadsOnly srcs none fun h => h.branch (taken h) offset := by
  intro g h same agree
  dsimp only
  unfold Hart.branch Hart.jumpTo
  rw [condition g h same agree, same.computed.1]
  split
  · split
    · exact (same.setPc _).agreeOn_none
    · exact same.agreeOn_raise _ _
  · exact same.advance.agreeOn_none

theorem readsOnly_jumpLink (target : DecidedBy srcs addr) : ReadsOnly srcs (some rd) fun h => h.jumpLink rd (addr h) := by
  intro g h same agree
  dsimp only
  unfold Hart.jumpLink Hart.nextPc
  rw [target g h same agree, same.computed.1]
  split
  · exact (same.agreeOn_setReg rd _).setPc _
  · exact same.agreeOn_raise _ _

theorem readsOnly_loadReserved {sz : ReservedSize} {ext : BitVec (8 * sz.bytes) → BitVec w} (address : DecidedBy srcs addr) :
    ReadsOnly srcs (some rd) fun h => h.loadReserved rd (addr h) sz ext := by
  intro g h same agree
  dsimp only
  obtain ⟨-, value, checks, -⟩ := same.computed
  unfold Hart.loadReserved
  rw [address g h same agree, checks, value]
  split
  · exact same.agreeOn_raise _ _
  · exact (same.setReservation _).agreeOn_writeNext rd _

theorem readsOnly_storeConditional {sz : ReservedSize} (address : DecidedBy srcs addr) (value : DecidedBy srcs val) :
    ReadsOnly srcs (some rd) fun h => h.storeConditional rd (addr h) sz (val h) := by
  intro g h same agree
  dsimp only
  obtain ⟨-, -, -, checks, succeeds, draws⟩ := same.computed
  have cleared := (same.countDraw (h.scDraws (addr h) sz)).setReservation none
  unfold Hart.storeConditional
  rw [address g h same agree, value g h same agree, checks, succeeds, draws]
  split
  · exact same.agreeOn_raise _ _
  · dsimp only
    split
    · exact (cleared.writeValue _ _ _).agreeOn_writeNext rd 0
    · exact cleared.agreeOn_writeNext rd 1

end Shapes

/-! ### Every instruction -/

section Instructions

variable {x : XLen} {i : Instr}

/-- `i` takes harts that agree outside the registers, and in its sources, to harts that agree but for registers other than its
destination. -/
def ExecReadsOnly (x : XLen) (i : Instr) : Prop :=
  ∀ g h : Hart x.width, SameButRegs g h → (∀ r ∈ i.sources, g.reg r = h.reg r) →
    ∃ g' h', exec i ⟨x, g⟩ = .next ⟨x, g'⟩ ∧ exec i ⟨x, h⟩ = .next ⟨x, h'⟩ ∧ AgreeOn i.destination g' h'

/-- An instruction of both widths. -/
theorem execReadsOnly_onHart {f : Hart x.width → Hart x.width}
    (meaning : ∀ h : Hart x.width, exec i ⟨x, h⟩ = .next ⟨x, f h⟩) (reads : ReadsOnly i.sources i.destination f) :
    ExecReadsOnly x i :=
  fun g h same agree => ⟨f g, f h, meaning g, meaning h, reads g h same agree⟩

/-- An instruction of `XLEN = 64` only: with `XLEN = 32` both harts raise. -/
theorem execReadsOnly_onHart64 {f : Hart 64 → Hart 64} (meaning : ∀ s, exec i s = s.onHart64 i f)
    (reads : ReadsOnly i.sources i.destination f) : ExecReadsOnly x i := by
  intro g h same agree
  cases x
  · exact ⟨_, _, meaning _, meaning _, same.agreeOn_raise _ _⟩
  · exact ⟨f g, f h, meaning _, meaning _, reads g h same agree⟩

/-- Every instruction but `ecall` and `ebreak` reads its sources alone, by the shape of its meaning. The `dsimp only` of the loads
is for the width to which they extend, which the meaning takes from the state. -/
theorem exec_readsOnly (x : XLen) (notCall : i ≠ .ecall ∧ i ≠ .ebreak) : ExecReadsOnly x i := by
  cases i with
  | add | sub | and | or | xor | sll | srl | sra | slt | sltu | mul | mulh | mulhu | mulhsu | div | divu | rem | remu =>
    refine execReadsOnly_onHart (fun _ => rfl) ?_
    exact readsOnly_writeNext (decidedBy_regs fun _ _ p q => by simp only [p, q])
  | addi | andi | ori | xori | slti | sltiu | slli | srli | srai =>
    refine execReadsOnly_onHart (fun _ => rfl) ?_
    exact readsOnly_writeNext ((decidedBy_reg (.head _)).map fun _ _ p => by simp only [p])
  | lui =>
    refine execReadsOnly_onHart (fun _ => rfl) ?_
    exact readsOnly_writeNext fun _ _ _ _ => rfl
  | auipc =>
    refine execReadsOnly_onHart (fun _ => rfl) ?_
    exact readsOnly_writeNext (decidedBy_pc.map fun _ _ p => by simp only [p])
  | slli64 | srli64 | srai64 =>
    refine execReadsOnly_onHart (fun _ => rfl) ?_
    exact readsOnly_shiftNext ((decidedBy_reg (.head _)).map fun _ _ p => by simp only [p])
  | lb | lbu | lh | lhu | lw =>
    refine execReadsOnly_onHart (fun _ => rfl) ?_
    dsimp only
    exact readsOnly_load (decidedBy_effAddr (.head _) _)
  | sb | sh | sw =>
    refine execReadsOnly_onHart (fun _ => rfl) ?_
    exact readsOnly_store (decidedBy_effAddr (.head _) _) (decidedBy_reg (.tail _ (.head _)))
  | beq | bne | blt | bltu | bge | bgeu =>
    refine execReadsOnly_onHart (fun _ => rfl) ?_
    exact readsOnly_branch (decidedBy_regs fun _ _ p q => by simp only [p, q])
  | jal =>
    refine execReadsOnly_onHart (fun _ => rfl) ?_
    exact readsOnly_jumpLink (decidedBy_pc.map fun _ _ p => by simp only [p])
  | jalr rd rs1 imm =>
    refine execReadsOnly_onHart (fun _ => rfl) ?_
    exact readsOnly_jumpLink ((decidedBy_effAddr (.head _) imm).map fun _ _ p => by simp only [p])
  | lrw =>
    refine execReadsOnly_onHart (fun _ => rfl) ?_
    dsimp only
    exact readsOnly_loadReserved (decidedBy_reg (.head _))
  | scw =>
    refine execReadsOnly_onHart (fun _ => rfl) ?_
    exact readsOnly_storeConditional (decidedBy_reg (.head _)) (decidedBy_reg (.tail _ (.head _)))
  | addw | subw | sllw | srlw | sraw | mulw | divw | divuw | remw | remuw =>
    refine execReadsOnly_onHart64 (fun _ => rfl) ?_
    exact readsOnly_writeNext (decidedBy_regs fun _ _ p q => by simp only [p, q])
  | addiw | slliw | srliw | sraiw =>
    refine execReadsOnly_onHart64 (fun _ => rfl) ?_
    exact readsOnly_writeNext ((decidedBy_reg (.head _)).map fun _ _ p => by simp only [p])
  | lwu | ld =>
    refine execReadsOnly_onHart64 (fun _ => rfl) ?_
    exact readsOnly_load (decidedBy_effAddr (.head _) _)
  | sd =>
    refine execReadsOnly_onHart64 (fun _ => rfl) ?_
    exact readsOnly_store (decidedBy_effAddr (.head _) _) (decidedBy_reg (.tail _ (.head _)))
  | lrd =>
    refine execReadsOnly_onHart64 (fun _ => rfl) ?_
    exact readsOnly_loadReserved (decidedBy_reg (.head _))
  | scd =>
    refine execReadsOnly_onHart64 (fun _ => rfl) ?_
    exact readsOnly_storeConditional (decidedBy_reg (.head _)) (decidedBy_reg (.tail _ (.head _)))
  | ecall => exact absurd rfl notCall.1
  | ebreak => exact absurd rfl notCall.2

end Instructions

/-- Under the default handler `ecall` and `ebreak` raise, and their condition speaks of `pc` alone (R310). -/
theorem transfer_of_no_handler {w : Nat} {h : Hart w} (unset : h.handler = []) (k : EnvKind) :
    h.transfer k = h.raise (k.condition h.pc.toNat) := by
  have stop : h.answer k = .stop := by unfold Hart.answer; rw [unset]; rfl
  rcases transfer_cases h k with ⟨_, _, _, _, answer, _⟩ | ⟨_, raises⟩
  · rw [stop] at answer
    cases answer
  · exact raises

/-- The same for every instruction, where an `ecall` or `ebreak` meets the default handler. -/
theorem exec_agree (x : XLen) {i : Instr} {g h : Hart x.width} (same : SameButRegs g h)
    (agree : ∀ r ∈ i.sources, g.reg r = h.reg r) (unset : i = .ecall ∨ i = .ebreak → h.handler = []) :
    ∃ g' h', exec i ⟨x, g⟩ = .next ⟨x, g'⟩ ∧ exec i ⟨x, h⟩ = .next ⟨x, h'⟩ ∧ AgreeOn i.destination g' h' := by
  by_cases call : ∃ k : EnvKind, i = k.instr
  · obtain ⟨k, rfl⟩ := call
    have stops : h.handler = [] := unset k.instr_cases
    refine ⟨_, _, exec_envKind g k, exec_envKind h k, ?_⟩
    rw [transfer_of_no_handler stops, transfer_of_no_handler (by obtain ⟨regs, rfl⟩ := same; exact stops), same.computed.1]
    exact same.agreeOn_raise _ _
  · exact exec_readsOnly x ⟨fun e => call ⟨.call, e⟩, fun e => call ⟨.breakpoint, e⟩⟩ g h same agree

/-- Settles O21: the two next harts differ in registers alone, and not in the destination. -/
theorem onlySourcesAreRead : Obligations.OnlySourcesAreRead := by
  intro x i h h' other _ agree unset e
  obtain ⟨g', h'', eg, eh, ⟨regs, rfl⟩, dest⟩ :=
    exec_agree x (g := { h with regs := other }) ⟨other, rfl⟩ agree unset
  rw [eh] at e
  cases e
  exact ⟨_, eg, rfl, rfl, rfl, rfl, rfl, rfl, rfl, rfl, dest⟩

end Sys2Proof.Machine
end

section
/-! The bytes that a run fetches: what a fetch answers when it passes, the step when it does not, and that no run executes a byte
that it has stored (R70, R71, R351). -/

namespace Sys2Proof.Machine

/-! ## What every run keeps -/

/-- A run of `n + 1` steps that answers a next state takes a step and then runs on for `n` steps. -/
theorem run_succ_next {M : Host.Core} {n : Nat} {s s' : M.State} (run : M.run (n + 1) s = .next s') :
    ∃ t, M.step s = .next t ∧ M.run n t = .next s' := by
  unfold Host.Core.run at run
  split at run
  · next t e => exact ⟨t, e, run⟩
  · cases run
  · cases run

/-- The invariant rule of runs: what every step keeps holds at the end of a run that holds it at the start. -/
theorem run_keeps {x : XLen} {P : Hart x.width → Prop}
    (step_keeps : ∀ g g' : Hart x.width, P g → step ⟨x, g⟩ = .next ⟨x, g'⟩ → P g') (n : Nat) {h h' : Hart x.width}
    (start : P h) (run : Host.Core.run Sys2Proof.core n (⟨x, h⟩ : State) = .next (⟨x, h'⟩ : State)) : P h' := by
  induction n generalizing h with
  | zero =>
    cases run
    exact start
  | succ n ih =>
    obtain ⟨t, e, rest⟩ := run_succ_next (M := Sys2Proof.core) run
    obtain ⟨g, rfl, -⟩ := step_next_cases e
    exact ih (step_keeps h g start e) rest

/-- Every instruction keeps memory in canonical form: it leaves memory, or writes cells into it. -/
theorem Effect.mem_wf {x : XLen} {h h' : Hart x.width} {i : Instr} (e : Effect x h i h') (hm : h.mem.wf) : h'.mem.wf := by
  cases e with
  | stored a n v => exact Memory.writeAll_wf hm _
  | scStored sz rd a b => simpa using Memory.writeAll_wf hm _
  | resumed k regs pc bytes keep => exact Memory.writeAll_wf hm _
  | wrote | fell | branched | linked | reserved | scFailed => simpa using hm
  | called | targetMisaligned | loadMisaligned | loadDenied | storeMisaligned | storeDenied | absent => exact hm

theorem step_mem_wf {x : XLen} {h h' : Hart x.width} (hm : h.mem.wf) (e : step ⟨x, h⟩ = .next ⟨x, h'⟩) : h'.mem.wf := by
  obtain ⟨_, same, ends⟩ := step_next_cases e
  cases same
  rcases ends with ⟨f, rfl⟩ | ⟨i, -, effect⟩
  · exact hm
  · exact effect.mem_wf hm

/-- A byte that changed in two runs, one after the other, changed in one of them. -/
theorem RecordsChanges.trans {w : Nat} {h g k : Hart w} (first : RecordsChanges h g) (second : RecordsChanges g k) :
    RecordsChanges h k := by
  refine ⟨fun a before => second.1 a (first.1 a before), fun a changed => ?_⟩
  by_cases unchanged : g.mem.read a = h.mem.read a
  · exact second.2 a (unchanged ▸ changed)
  · exact second.1 a (first.2 a unchanged)

/-- A run records every byte that it changes: its memory stays canonical, so each step does (R35). -/
theorem run_recordsChanges {x : XLen} {n : Nat} {h h' : Hart x.width} (hm : h.mem.wf)
    (run : Host.Core.run Sys2Proof.core n (⟨x, h⟩ : State) = .next (⟨x, h'⟩ : State)) : RecordsChanges h h' := by
  have kept : h'.mem.wf ∧ RecordsChanges h h' := by
    refine run_keeps (P := fun g => g.mem.wf ∧ RecordsChanges h g) ?_ n ⟨hm, .refl h⟩ run
    rintro g g' ⟨gm, records⟩ e
    exact ⟨step_mem_wf gm e, records.trans (changedBytesAreWritten x g g' gm e)⟩
  exact kept.2

/-! ## The fetch (R70, R71) -/

/-- A fetch that answers a word has found none of its bytes in `written`, and the word is those bytes (R70, R71). -/
theorem unwritten_of_fetch_eq_ok {w : Nat} {h : Hart w} {v : InstWord} (fetched : h.fetch = .ok v) :
    (∀ k, k < 4 → byteAddr h.pc k ∉ h.written) ∧
      v = wordOfBytes (h.mem.read (byteAddr h.pc 0)) (h.mem.read (byteAddr h.pc 1)) (h.mem.read (byteAddr h.pc 2))
        (h.mem.read (byteAddr h.pc 3)) := by
  rcases fetch_cases h with ⟨-, e⟩ | ⟨-, -, e⟩ | ⟨-, -, -, e⟩ | ⟨-, -, unwritten, e⟩ <;> rw [e] at fetched
  · cases fetched
  · cases fetched
  · cases fetched
  · cases fetched
    exact ⟨fun k hk stored => unwritten ⟨k, hk, stored⟩, readValue_four h h.pc⟩

/-- Settles O25: every byte that the run changed is in `written`, and a fetch that answers has met none of those. -/
theorem fetchedWordsAreLaunchWords : Obligations.FetchedWordsAreLaunchWords := by
  intro x n h h' v hm _ run fetched
  obtain ⟨unwritten, word⟩ := unwritten_of_fetch_eq_ok fetched
  have unchanged : ∀ k, k < 4 → h'.mem.read (byteAddr h'.pc k) = h.mem.read (byteAddr h'.pc k) := fun k hk => by
    by_contra changed
    exact unwritten k hk ((run_recordsChanges hm run).2 _ changed)
  rw [word, unchanged 0 (by decide), unchanged 1 (by decide), unchanged 2 (by decide), unchanged 3 (by decide)]

/-- A step whose fetch fails a check raises what the fetch answers, and changes nothing else (R70, R306). -/
theorem step_eq_raise_of_fetch {x : XLen} {h : Hart x.width} {f : Fault} (running : h.outcome = .running)
    (failed : h.fetch = .error f) : step ⟨x, h⟩ = .next ⟨x, { h with outcome := .raised f }⟩ := by
  simp only [step, running, failed]
  rfl

section Checks

variable {w : Nat} {h : Hart w}

theorem fetch_misaligned (misaligned : h.pc.toNat % 4 ≠ 0) :
    h.fetch = .error (.instructionAddressMisaligned h.pc.toNat) := by
  rcases fetch_cases h with ⟨-, e⟩ | ⟨aligned, -⟩ | ⟨aligned, -⟩ | ⟨aligned, -⟩
  · exact e
  all_goals exact absurd aligned misaligned

theorem fetch_denied (aligned : h.pc.toNat % 4 = 0) (denied : ¬ Permitted h .fetch h.pc 4) :
    h.fetch = .error (.instructionAccessFault h.pc.toNat) := by
  rcases fetch_cases h with ⟨misaligned, -⟩ | ⟨-, -, e⟩ | ⟨-, permitted, -⟩ | ⟨-, permitted, -⟩
  · exact absurd aligned misaligned
  · exact e
  all_goals exact absurd permitted denied

theorem fetch_stored (aligned : h.pc.toNat % 4 = 0) (permitted : Permitted h .fetch h.pc 4)
    (stored : ∃ k, k < 4 ∧ byteAddr h.pc k ∈ h.written) : h.fetch = .error (.fetchAfterStore h.pc.toNat) := by
  rcases fetch_cases h with ⟨misaligned, -⟩ | ⟨-, denied, -⟩ | ⟨-, -, -, e⟩ | ⟨-, -, unwritten, -⟩
  · exact absurd aligned misaligned
  · exact absurd permitted denied
  · exact e
  · exact absurd stored unwritten

end Checks

/-- Settles O9: each check by what the fetch answers when it is the first to fail, and the word when none does. -/
theorem fetchChecks : Obligations.FetchChecks :=
  fun _ _ running =>
    ⟨fun misaligned => step_eq_raise_of_fetch running (fetch_misaligned misaligned),
      fun ⟨aligned, denied⟩ => step_eq_raise_of_fetch running (fetch_denied aligned denied),
      fun ⟨aligned, permitted, stored⟩ => step_eq_raise_of_fetch running (fetch_stored aligned permitted stored),
      fun ⟨aligned, permitted, unwritten⟩ => fetch_eq_ok aligned permitted unwritten⟩

end Sys2Proof.Machine
end

section
/-! The bytes of an access: which bytes a store leaves alone, the order of the bytes in a value, and the address that an access is made
at (R50, R52, R59, R61). -/

namespace Sys2Proof.Machine

/-! ## The frame of memory (R55 to R59) -/

/-- Storing a value leaves every byte outside the access, and whether it is in `written`. -/
theorem writeValue_other {w : Nat} {h : Hart w} (hm : h.mem.wf) {a : BitVec w} {n b : Nat} (v : BitVec (8 * n))
    (outside : ∀ k, k < n → b ≠ byteAddr a k) :
    (h.writeValue a n v).mem.read b = h.mem.read b ∧ (b ∈ (h.writeValue a n v).written ↔ b ∈ h.written) := by
  have unlisted : b ∉ span a n := fun hb => by
    obtain ⟨k, hk, e⟩ := mem_span.mp hb
    exact outside k hk e
  constructor
  · refine Memory.read_writeAll_other hm fun c hc e => unlisted ?_
    rw [e, ← cellsOf_fst a n v]
    exact List.mem_map_of_mem hc
  · rw [Hart.writeValue_written, mem_addrInsertAll, or_iff_left unlisted]

/-- An instruction that is neither `ecall` nor `ebreak` leaves every byte outside its store access, where it has one. -/
theorem Effect.byte_eq {x : XLen} {h h' : Hart x.width} {i : Instr} (e : Effect x h i h') (hm : h.mem.wf)
    (notCall : i ≠ .ecall ∧ i ≠ .ebreak) {b : Nat}
    (outside : ∀ a n, storeAccess h i = some (a, n) → ∀ k, k < n → b ≠ byteAddr a k) :
    h'.mem.read b = h.mem.read b ∧ (b ∈ h'.written ↔ b ∈ h.written) := by
  cases e with
  | stored a n v _ access => exact writeValue_other hm _ (outside a n access)
  | scStored sz rd a b aq rl same =>
    have away := outside (h.reg a) sz.bytes (same ▸ scOf_store h sz rd a b aq rl)
    simpa using writeValue_other hm ((h.reg b).setWidth (8 * sz.bytes)) away
  | resumed k _ _ _ _ call => exact absurd (call ▸ k.instr_cases) (not_or.mpr notCall)
  | wrote | fell | branched | linked | reserved | scFailed => simp
  | called | targetMisaligned | loadMisaligned | loadDenied | storeMisaligned | storeDenied | absent => exact ⟨rfl, .rfl⟩

/-- Settles O23: with no store access every byte is outside it; with one, those are that the statement names. -/
theorem memoryFrame : Obligations.MemoryFrame := by
  intro x i h h' hm e notEcall notEbreak
  have frame := fun b => (effect_of_next e).byte_eq hm ⟨notEcall, notEbreak⟩ (b := b)
  refine ⟨fun noAccess => ?_, fun a n access b outside => frame b fun a' n' access' => ?_⟩
  · have same : ∀ b, h'.mem.read b = h.mem.read b ∧ (b ∈ h'.written ↔ b ∈ h.written) := fun b =>
      frame b fun a n access => by rw [noAccess] at access; cases access
    exact ⟨fun b => (same b).1, fun b => (same b).2⟩
  · rw [access] at access'
    cases access'
    exact outside

/-! ## The bytes of a value (R50, R52) -/

/-- A slice of a slice is a slice of what both are cut from. -/
theorem extractLsb'_of_extractLsb' {p : Nat} (v : BitVec p) {s t l m : Nat} (inside : t + m ≤ l) :
    (v.extractLsb' s l).extractLsb' t m = v.extractLsb' (s + t) m := by
  apply BitVec.eq_of_getLsbD_eq
  intro i hi
  have below : t + i < l := by omega
  simp [BitVec.getLsbD_extractLsb', below, Nat.add_assoc]

section Bytes

variable {w : Nat} {h : Hart w}

/-- Byte `k` of the number of `n` bytes is the `k`-th of them. -/
theorem bytesNat_byte (a : BitVec w) {n k : Nat} (hk : k < n) :
    bytesNat h a n / 2 ^ (8 * k) % 2 ^ 8 = (h.mem.read (byteAddr a k)).toNat := by
  induction n with
  | zero => cases hk
  | succ n ih =>
    rw [bytesNat]
    rcases Nat.lt_succ_iff_lt_or_eq.mp hk with below | rfl
    · have weight : 2 ^ (8 * n) = 2 ^ (8 * k) * (2 ^ 8 * 2 ^ (8 * (n - k - 1))) := by
        rw [← Nat.pow_add, ← Nat.pow_add]
        congr 1
        omega
      rw [weight, Nat.mul_left_comm, Nat.add_mul_div_left _ _ (Nat.two_pow_pos _), Nat.mul_left_comm, Nat.add_mul_mod_self_left,
        ih below]
    · rw [Nat.add_mul_div_right _ _ (Nat.two_pow_pos _), Nat.div_eq_of_lt (bytesNat_lt h a k), Nat.zero_add,
        Nat.mod_eq_of_lt (h.mem.read _).isLt]

/-- Byte `k` of a value that is read is the byte at `a + k` (R50). -/
theorem readValue_byte (a : BitVec w) {n k : Nat} (hk : k < n) :
    (h.readValue a n).extractLsb' (8 * k) 8 = h.mem.read (byteAddr a k) := by
  apply BitVec.eq_of_toNat_eq
  rw [BitVec.extractLsb'_toNat, readValue_toNat, Nat.shiftRight_eq_div_pow, bytesNat_byte a hk]

/-- Byte `k` of a value that is stored stands at `a + k` (R50). -/
theorem read_writeValue (hm : h.mem.wf) (a : BitVec w) {n k : Nat} (hn : n ≤ 2 ^ w) (v : BitVec (8 * n)) (hk : k < n) :
    (h.writeValue a n v).mem.read (byteAddr a k) = v.extractLsb' (8 * k) 8 := by
  have cell : (byteAddr a k, v.extractLsb' (8 * k) 8) ∈ cellsOf a n v := by
    rw [← toNat_add_byte]
    exact List.mem_map.mpr ⟨k, List.mem_range.mpr hk, rfl⟩
  exact Memory.read_writeAll_same hm (cellsOf_fst a n v ▸ span_nodup a hn) cell

/-- Byte `k` of an access `j` bytes further on is byte `j + k`, also where the address wraps (R55). -/
theorem byteAddr_add (a : BitVec w) (j k : Nat) : byteAddr (a + BitVec.ofNat w j) k = byteAddr a (j + k) := by
  rw [byteAddr, toNat_add_byte, byteAddr, byteAddr, Nat.mod_add_mod, Nat.add_assoc]

/-- A value is decided by its bytes. -/
theorem eq_of_bytes_eq {n : Nat} {u v : BitVec (8 * n)}
    (bytes : ∀ k, k < n → u.extractLsb' (8 * k) 8 = v.extractLsb' (8 * k) 8) : u = v := by
  apply BitVec.eq_of_getLsbD_eq
  intro i hi
  have bit := congrArg (·.getLsbD (i % 8)) (bytes (i / 8) (by omega))
  simpa [BitVec.getLsbD_extractLsb', Nat.mod_lt, Nat.div_add_mod] using bit

end Bytes

/-- Settles O27: the bytes of the value read inside are, one by one, bytes of the value written. -/
theorem byteOrder : Obligations.ByteOrder := by
  intro x h a n v hm hn
  have space : n ≤ 2 ^ x.width := hn.trans (by cases x <;> decide)
  refine ⟨fun k hk => readValue_byte a hk, fun k hk => read_writeValue hm a space v hk, fun j m inside => ?_⟩
  refine eq_of_bytes_eq fun k hk => ?_
  calc ((h.writeValue a n v).readValue (a + BitVec.ofNat x.width j) m).extractLsb' (8 * k) 8
      = (h.writeValue a n v).mem.read (byteAddr a (j + k)) := by rw [readValue_byte _ hk, byteAddr_add]
    _ = v.extractLsb' (8 * (j + k)) 8 := read_writeValue hm a space v (by omega)
    _ = (v.extractLsb' (8 * j) (8 * m)).extractLsb' (8 * k) 8 := by
      rw [extractLsb'_of_extractLsb' v (by omega), Nat.mul_add]

/-! ## The effective address (R61, R160) -/

/-- Adding a signed number to a word is the exact sum modulo `2^w`. -/
theorem toNat_add_ofInt {w : Nat} (a : BitVec w) (z : Int) : ((a + BitVec.ofInt w z).toNat : Int) = (a.toNat + z) % 2 ^ w := by
  have positive : (0 : Int) < 2 ^ w := by positivity
  rw [BitVec.toNat_add, BitVec.toNat_ofInt]
  push_cast
  rw [Int.toNat_of_nonneg (Int.emod_nonneg _ positive.ne'), Int.add_emod_emod]

/-- Settles O29: the immediate is added as its signed value. -/
theorem effectiveAddress : Obligations.EffectiveAddress := fun _ h rs1 imm => toNat_add_ofInt (h.reg rs1) imm.toInt

end Sys2Proof.Machine
end

section
/-! Encoding and decoding are inverse: the decoder reads back what the encoder wrote, and drops no bit of a word that it decodes
(R91 to R105, R107, R110). -/

namespace Sys2Proof

variable {v : InstWord}

/-! ## The word of known fields -/

theorem encR_of_fields {f7 : BitVec 7} {f3 : BitVec 3} {op : BitVec 7} (h7 : funct7Of v = f7) (h3 : funct3Of v = f3)
    (ho : opcodeOf v = op) : encR f7 (rs2Of v) (rs1Of v) f3 (rdOf v) op = v := by
  rw [← h7, ← h3, ← ho, encR_fields]

theorem encI_of_fields {f3 : BitVec 3} {op : BitVec 7} (h3 : funct3Of v = f3) (ho : opcodeOf v = op) :
    encI (immIOf v) (rs1Of v) f3 (rdOf v) op = v := by
  rw [← h3, ← ho, encI_fields]

theorem encSh6_of_fields {f6 : BitVec 6} {f3 : BitVec 3} {op : BitVec 7} (h6 : funct6Of v = f6) (h3 : funct3Of v = f3)
    (ho : opcodeOf v = op) : encSh6 f6 (shamt6Of v) (rs1Of v) f3 (rdOf v) op = v := by
  rw [← h6, ← h3, ← ho, encSh6_fields]

theorem encS_of_fields {f3 : BitVec 3} {op : BitVec 7} (h3 : funct3Of v = f3) (ho : opcodeOf v = op) :
    encS (immSOf v) (rs2Of v) (rs1Of v) f3 op = v := by
  rw [← h3, ← ho, encS_fields]

theorem encB_of_fields {f3 : BitVec 3} {op : BitVec 7} (h3 : funct3Of v = f3) (ho : opcodeOf v = op) :
    encB (immBOf v) (rs2Of v) (rs1Of v) f3 op = v := by
  rw [← h3, ← ho, encB_fields]

theorem encA_of_fields {f5 : BitVec 5} {f3 : BitVec 3} {op : BitVec 7} (h5 : funct5Of v = f5) (h3 : funct3Of v = f3)
    (ho : opcodeOf v = op) : encA f5 (aqOf v) (rlOf v) (rs2Of v) (rs1Of v) f3 (rdOf v) op = v := by
  rw [← h5, ← h3, ← ho, encA_fields]

/-- `lr` fixes the rs2 field as well (R105). -/
theorem encA_of_fields_rs2 {f5 : BitVec 5} {f3 : BitVec 3} {op : BitVec 7} {rs2 : RegNum} (h5 : funct5Of v = f5)
    (h2 : rs2Of v = rs2) (h3 : funct3Of v = f3) (ho : opcodeOf v = op) :
    encA f5 (aqOf v) (rlOf v) rs2 (rs1Of v) f3 (rdOf v) op = v := by
  rw [← h2, encA_of_fields h5 h3 ho]

theorem encJ_of_opcode {op : BitVec 7} (ho : opcodeOf v = op) : encJ (immJOf v) (rdOf v) op = v := by
  rw [← ho, encJ_fields]

theorem encU_of_opcode {op : BitVec 7} (ho : opcodeOf v = op) : encU (immUOf v) (rdOf v) op = v := by
  rw [← ho, encU_fields]

/-! ## The opcode map (R107) -/

theorem decode_eq_ok_iff {x : XLen} {i : Instr} : decode x v = .ok i ↔ decodeWord? x v = some i := by
  unfold decode
  split <;> simp_all

theorem decode_eq_illegal_iff {x : XLen} : decode x v = .error (.illegal v) ↔ decodeWord? x v = none := by
  unfold decode
  split <;> simp_all

section OpcodeMap

variable {x : XLen}

theorem decodeWord?_load (op : opcodeOf v = 0x03#7) : decodeWord? x v = decodeLoad x v := by simp [decodeWord?, op]

theorem decodeWord?_opImm (op : opcodeOf v = 0x13#7) : decodeWord? x v = decodeOpImm x v := by simp [decodeWord?, op]

theorem decodeWord?_auipc (op : opcodeOf v = 0x17#7) :
    decodeWord? x v = some (.auipc (rdOf v) (immUOf v)) := by
  simp [decodeWord?, op]

theorem decodeWord?_opImm32 (op : opcodeOf v = 0x1B#7) : decodeWord? x v = decodeOpImm32 x v := by simp [decodeWord?, op]

theorem decodeWord?_store (op : opcodeOf v = 0x23#7) : decodeWord? x v = decodeStore x v := by simp [decodeWord?, op]

theorem decodeWord?_atomic (op : opcodeOf v = 0x2F#7) : decodeWord? x v = decodeAtomic x v := by simp [decodeWord?, op]

theorem decodeWord?_op (op : opcodeOf v = 0x33#7) : decodeWord? x v = decodeOp v := by simp [decodeWord?, op]

theorem decodeWord?_lui (op : opcodeOf v = 0x37#7) :
    decodeWord? x v = some (.lui (rdOf v) (immUOf v)) := by
  simp [decodeWord?, op]

theorem decodeWord?_op32 (op : opcodeOf v = 0x3B#7) : decodeWord? x v = decodeOp32 x v := by simp [decodeWord?, op]

theorem decodeWord?_branch (op : opcodeOf v = 0x63#7) : decodeWord? x v = decodeBranch v := by simp [decodeWord?, op]

theorem decodeWord?_jalr (op : opcodeOf v = 0x67#7) : decodeWord? x v = decodeJalr v := by simp [decodeWord?, op]

theorem decodeWord?_jal (op : opcodeOf v = 0x6F#7) :
    decodeWord? x v = some (.jal (rdOf v) (immJOf v)) := by
  simp [decodeWord?, op]

theorem decodeWord?_system (op : opcodeOf v = 0x73#7) : decodeWord? x v = decodeSystem v := by simp [decodeWord?, op]

/-- The opcodes of R107. -/
def opcodes : List (BitVec 7) :=
  [0x03#7, 0x13#7, 0x17#7, 0x1B#7, 0x23#7, 0x2F#7, 0x33#7, 0x37#7, 0x3B#7, 0x63#7, 0x67#7, 0x6F#7, 0x73#7]

theorem decodeWord?_unlisted (op : opcodeOf v ∉ opcodes) : decodeWord? x v = none := by
  simp only [opcodes, List.mem_cons, List.not_mem_nil, or_false, not_or] at op
  simp only [decodeWord?, op, if_false]

end OpcodeMap

/-! ## Decode after encode (O15) -/

/-- The opcode map finds the arm of the instruction by the fixed fields, and the arm reads the others back. -/
theorem decodeWord?_encode {x : XLen} {i : Instr} (wf : i.wellFormed x = true) : decodeWord? x (encode i) = some i := by
  obtain ⟨row, even⟩ := Bool.and_eq_true_iff.mp wf
  cases i with
  | add | sub | and | or | xor | sll | srl | sra | slt | sltu | mul | mulh | mulhu | mulhsu | div | divu | rem | remu =>
    simp [encode, decodeWord?, decodeOp]
  | addi | andi | ori | xori | slti | sltiu => simp [encode, decodeWord?, decodeOpImm]
  | slli | srli | srai =>
    obtain rfl : x = .rv32 := of_decide_eq_true row
    simp [encode, decodeWord?, decodeOpImm, decodeShift, decodeShift32]
  | slli64 | srli64 | srai64 =>
    obtain rfl : x = .rv64 := of_decide_eq_true row
    simp [encode, decodeWord?, decodeOpImm, decodeShift, decodeShift64]
  | lb | lbu | lh | lhu | lw => simp [encode, decodeWord?, decodeLoad]
  | lwu | ld =>
    obtain rfl : x = .rv64 := of_decide_eq_true row
    simp [encode, decodeWord?, decodeLoad, only64]
  | sb | sh | sw => simp [encode, decodeWord?, decodeStore]
  | sd =>
    obtain rfl : x = .rv64 := of_decide_eq_true row
    simp [encode, decodeWord?, decodeStore, only64]
  | beq _ _ o | bne _ _ o | blt _ _ o | bltu _ _ o | bge _ _ o | bgeu _ _ o =>
    have bit0 : o[0] = false := by simpa [Instr.offsetEven] using even
    simp [encode, decodeWord?, decodeBranch, bit0]
  | jal _ o =>
    have bit0 : o[0] = false := by simpa [Instr.offsetEven] using even
    simp [encode, decodeWord?, bit0]
  | jalr => simp [encode, decodeWord?, decodeJalr]
  | auipc | lui => simp [encode, decodeWord?]
  | ebreak | ecall => rfl
  | lrw | scw => simp [encode, decodeWord?, decodeAtomic, onlyRs2Zero]
  | lrd | scd =>
    obtain rfl : x = .rv64 := of_decide_eq_true row
    simp [encode, decodeWord?, decodeAtomic, onlyRs2Zero, only64]
  | addiw =>
    obtain rfl : x = .rv64 := of_decide_eq_true row
    simp [encode, decodeWord?, decodeOpImm32]
  | slliw | srliw | sraiw =>
    obtain rfl : x = .rv64 := of_decide_eq_true row
    simp [encode, decodeWord?, decodeOpImm32, decodeShiftW]
  | addw | subw | sllw | srlw | sraw | mulw | divw | divuw | remw | remuw =>
    obtain rfl : x = .rv64 := of_decide_eq_true row
    simp [encode, decodeWord?, decodeOp32]

/-- Settles O15: the decoder reads back every field that the encoder wrote. -/
theorem decodeOfEncode : Obligations.DecodeOfEncode := fun _ _ wf => decode_eq_ok_iff.mpr (decodeWord?_encode wf)

/-! ## Encode after decode (O16) -/

theorem only64_eq_some {x : XLen} {i j : Instr} : only64 x i = some j ↔ x = .rv64 ∧ i = j := by
  cases x <;> simp [only64]

theorem onlyRs2Zero_eq_some {i j : Instr} : onlyRs2Zero v i = some j ↔ rs2Of v = 0 ∧ i = j := by
  simp [onlyRs2Zero]

theorem immBOf_even (v : InstWord) : (immBOf v).getLsbD 0 = false := by
  unfold immBOf
  rw [BitVec.getLsbD_append]
  rfl

theorem immJOf_even (v : InstWord) : (immJOf v).getLsbD 0 = false := by
  unfold immJOf
  rw [BitVec.getLsbD_append]
  rfl

/-- `i` is well-formed at the width and is encoded by `v`. -/
abbrev EncodedBy (x : XLen) (v : InstWord) (i : Instr) : Prop := i.wellFormed x = true ∧ encode i = v

section Arms

variable {x : XLen} {i : Instr}

/-- What `only64` answers is well-formed by being of `XLEN = 64`. -/
theorem encodedBy_of_only64 {j : Instr} (e : only64 x j = some i) (word : EncodedBy .rv64 v j) : EncodedBy x v i := by
  obtain ⟨rfl, rfl⟩ := only64_eq_some.mp e
  exact word

theorem encodedBy_of_some {j : Instr} (e : some j = some i) (word : EncodedBy x v j) : EncodedBy x v i :=
  Option.some.inj e ▸ word

theorem decodeLoad_encodedBy (op : opcodeOf v = 0x03#7) (e : decodeLoad x v = some i) : EncodedBy x v i := by
  unfold decodeLoad at e
  split at e
  case h_8 => cases e
  case h_4 f3 | h_7 f3 => exact encodedBy_of_only64 e ⟨rfl, encI_of_fields f3 op⟩
  all_goals exact encodedBy_of_some e ⟨rfl, encI_of_fields ‹_› op⟩

theorem decodeShift_encodedBy (op : opcodeOf v = 0x13#7) (e : decodeShift x v = some i) : EncodedBy x v i := by
  cases x with
  | rv32 =>
    simp only [decodeShift, decodeShift32] at e
    split at e <;> cases e
    all_goals exact ⟨rfl, encR_of_fields ‹_› ‹_› op⟩
  | rv64 =>
    simp only [decodeShift, decodeShift64] at e
    split at e <;> cases e
    all_goals exact ⟨rfl, encSh6_of_fields ‹_› ‹_› op⟩

theorem decodeOpImm_encodedBy (op : opcodeOf v = 0x13#7) (e : decodeOpImm x v = some i) : EncodedBy x v i := by
  unfold decodeOpImm at e
  split at e
  case h_7 => exact decodeShift_encodedBy op e
  all_goals exact encodedBy_of_some e ⟨rfl, encI_of_fields ‹_› op⟩

theorem decodeOpImm32_encodedBy (op : opcodeOf v = 0x1B#7) (e : decodeOpImm32 x v = some i) : EncodedBy x v i := by
  cases x with
  | rv32 => cases e
  | rv64 =>
    simp only [decodeOpImm32, decodeShiftW] at e
    split at e
    · exact encodedBy_of_some e ⟨rfl, encI_of_fields ‹_› op⟩
    · split at e <;> cases e
      all_goals exact ⟨rfl, encR_of_fields ‹_› ‹_› op⟩

theorem decodeStore_encodedBy (op : opcodeOf v = 0x23#7) (e : decodeStore x v = some i) : EncodedBy x v i := by
  unfold decodeStore at e
  split at e
  case h_5 => cases e
  case h_4 f3 => exact encodedBy_of_only64 e ⟨rfl, encS_of_fields f3 op⟩
  all_goals exact encodedBy_of_some e ⟨rfl, encS_of_fields ‹_› op⟩

theorem decodeAtomic_encodedBy (op : opcodeOf v = 0x2F#7) (e : decodeAtomic x v = some i) : EncodedBy x v i := by
  unfold decodeAtomic at e
  split at e
  case h_1 f5 f3 =>
    obtain ⟨rs2, rfl⟩ := onlyRs2Zero_eq_some.mp e
    exact ⟨rfl, encA_of_fields_rs2 f5 rs2 f3 op⟩
  case h_2 f5 f3 =>
    obtain ⟨j, lr, e⟩ := Option.bind_eq_some_iff.mp e
    obtain ⟨rs2, rfl⟩ := onlyRs2Zero_eq_some.mp lr
    exact encodedBy_of_only64 e ⟨rfl, encA_of_fields_rs2 f5 rs2 f3 op⟩
  case h_3 f5 f3 => exact encodedBy_of_some e ⟨rfl, encA_of_fields f5 f3 op⟩
  case h_4 f5 f3 => exact encodedBy_of_only64 e ⟨rfl, encA_of_fields f5 f3 op⟩
  case h_5 => cases e

theorem decodeOp_encodedBy (op : opcodeOf v = 0x33#7) (e : decodeOp v = some i) : EncodedBy x v i := by
  unfold decodeOp at e
  split at e <;> cases e
  all_goals exact ⟨rfl, encR_of_fields ‹_› ‹_› op⟩

theorem decodeOp32_encodedBy (op : opcodeOf v = 0x3B#7) (e : decodeOp32 x v = some i) : EncodedBy x v i := by
  cases x with
  | rv32 => cases e
  | rv64 =>
    simp only [decodeOp32] at e
    split at e <;> cases e
    all_goals exact ⟨rfl, encR_of_fields ‹_› ‹_› op⟩

theorem wellFormed_of_even (row : i.existsAt x = true) (even : i.offsetEven = true) : i.wellFormed x = true :=
  Bool.and_eq_true_iff.mpr ⟨row, even⟩

theorem decodeBranch_encodedBy (op : opcodeOf v = 0x63#7) (e : decodeBranch v = some i) : EncodedBy x v i := by
  have even : (!(immBOf v).getLsbD 0) = true := congrArg (!·) (immBOf_even v)
  unfold decodeBranch at e
  split at e <;> cases e
  all_goals exact ⟨wellFormed_of_even rfl even, encB_of_fields ‹_› op⟩

theorem decodeJalr_encodedBy (op : opcodeOf v = 0x67#7) (e : decodeJalr v = some i) : EncodedBy x v i := by
  unfold decodeJalr at e
  split at e <;> cases e
  exact ⟨rfl, encI_of_fields ‹_› op⟩

theorem decodeSystem_encodedBy (e : decodeSystem v = some i) : EncodedBy x v i := by
  unfold decodeSystem at e
  split_ifs at e with call breakpoint <;> cases e
  · exact ⟨rfl, call.symm⟩
  · exact ⟨rfl, breakpoint.symm⟩

/-- What a word decodes to is well-formed and encoded by the word, by the arm of its opcode. -/
theorem decodeWord?_encodedBy (e : decodeWord? x v = some i) : EncodedBy x v i := by
  by_cases listed : opcodeOf v ∈ opcodes
  · simp only [opcodes, List.mem_cons, List.not_mem_nil, or_false] at listed
    rcases listed with op | op | op | op | op | op | op | op | op | op | op | op | op
    · rw [decodeWord?_load op] at e
      exact decodeLoad_encodedBy op e
    · rw [decodeWord?_opImm op] at e
      exact decodeOpImm_encodedBy op e
    · rw [decodeWord?_auipc op] at e
      exact encodedBy_of_some e ⟨rfl, encU_of_opcode op⟩
    · rw [decodeWord?_opImm32 op] at e
      exact decodeOpImm32_encodedBy op e
    · rw [decodeWord?_store op] at e
      exact decodeStore_encodedBy op e
    · rw [decodeWord?_atomic op] at e
      exact decodeAtomic_encodedBy op e
    · rw [decodeWord?_op op] at e
      exact decodeOp_encodedBy op e
    · rw [decodeWord?_lui op] at e
      exact encodedBy_of_some e ⟨rfl, encU_of_opcode op⟩
    · rw [decodeWord?_op32 op] at e
      exact decodeOp32_encodedBy op e
    · rw [decodeWord?_branch op] at e
      exact decodeBranch_encodedBy op e
    · rw [decodeWord?_jalr op] at e
      exact decodeJalr_encodedBy op e
    · rw [decodeWord?_jal op] at e
      exact encodedBy_of_some e ⟨wellFormed_of_even rfl (congrArg (!·) (immJOf_even v)), encJ_of_opcode op⟩
    · rw [decodeWord?_system op] at e
      exact decodeSystem_encodedBy e
  · rw [decodeWord?_unlisted listed] at e
    cases e

end Arms

/-- Settles O16: what each arm of the opcode map answers has the fields that led to the arm. -/
theorem encodeOfDecode : Obligations.EncodeOfDecode := fun _ _ _ e => decodeWord?_encodedBy (decode_eq_ok_iff.mp e)

end Sys2Proof
end

section
/-! The opcode table (R110, R111): a word that selects a row decodes to its instruction, no word selects two rows of a width, and
which rows a width has. -/

namespace Sys2Proof

/-! ## The words of a row (R110)

A word that matches a row has the fixed fields of the row's pattern, so the row's instruction, which has the other fields, is
encoded by it. -/

section Match

variable {v m p : InstWord} {f3 : BitVec 3} {op : BitVec 7}

theorem opcodeOf_of_match (e : v &&& m = p) (fixed : opcodeOf m = BitVec.allOnes 7) (ho : opcodeOf p = op) :
    opcodeOf v = op :=
  (slice_of_match e 0 7 fixed).trans ho

theorem funct3Of_of_match (e : v &&& m = p) (fixed : funct3Of m = BitVec.allOnes 3) (h3 : funct3Of p = f3) :
    funct3Of v = f3 :=
  (slice_of_match e 12 3 fixed).trans h3

theorem encR_of_match {f7 : BitVec 7} (e : v &&& 0xFE00707F#32 = p) (h7 : funct7Of p = f7) (h3 : funct3Of p = f3)
    (ho : opcodeOf p = op) : encR f7 (rs2Of v) (rs1Of v) f3 (rdOf v) op = v :=
  encR_of_fields ((slice_of_match e 25 7 rfl).trans h7) (funct3Of_of_match e rfl h3) (opcodeOf_of_match e rfl ho)

theorem encSh6_of_match {f6 : BitVec 6} (e : v &&& 0xFC00707F#32 = p) (h6 : funct6Of p = f6) (h3 : funct3Of p = f3)
    (ho : opcodeOf p = op) : encSh6 f6 (shamt6Of v) (rs1Of v) f3 (rdOf v) op = v :=
  encSh6_of_fields ((slice_of_match e 26 6 rfl).trans h6) (funct3Of_of_match e rfl h3) (opcodeOf_of_match e rfl ho)

theorem encI_of_match (e : v &&& 0x0000707F#32 = p) (h3 : funct3Of p = f3) (ho : opcodeOf p = op) :
    encI (immIOf v) (rs1Of v) f3 (rdOf v) op = v :=
  encI_of_fields (funct3Of_of_match e rfl h3) (opcodeOf_of_match e rfl ho)

theorem encS_of_match (e : v &&& 0x0000707F#32 = p) (h3 : funct3Of p = f3) (ho : opcodeOf p = op) :
    encS (immSOf v) (rs2Of v) (rs1Of v) f3 op = v :=
  encS_of_fields (funct3Of_of_match e rfl h3) (opcodeOf_of_match e rfl ho)

theorem encB_of_match (e : v &&& 0x0000707F#32 = p) (h3 : funct3Of p = f3) (ho : opcodeOf p = op) :
    encB (immBOf v) (rs2Of v) (rs1Of v) f3 op = v :=
  encB_of_fields (funct3Of_of_match e rfl h3) (opcodeOf_of_match e rfl ho)

theorem encA_of_match {f5 : BitVec 5} (e : v &&& 0xF800707F#32 = p) (h5 : funct5Of p = f5) (h3 : funct3Of p = f3)
    (ho : opcodeOf p = op) : encA f5 (aqOf v) (rlOf v) (rs2Of v) (rs1Of v) f3 (rdOf v) op = v :=
  encA_of_fields ((slice_of_match e 27 5 rfl).trans h5) (funct3Of_of_match e rfl h3) (opcodeOf_of_match e rfl ho)

theorem encA_of_match_rs2 {f5 : BitVec 5} {rs2 : RegNum} (e : v &&& 0xF9F0707F#32 = p) (h5 : funct5Of p = f5)
    (h2 : rs2Of p = rs2) (h3 : funct3Of p = f3) (ho : opcodeOf p = op) :
    encA f5 (aqOf v) (rlOf v) rs2 (rs1Of v) f3 (rdOf v) op = v :=
  encA_of_fields_rs2 ((slice_of_match e 27 5 rfl).trans h5) ((slice_of_match e 20 5 rfl).trans h2)
    (funct3Of_of_match e rfl h3) (opcodeOf_of_match e rfl ho)

end Match

section Rows

variable {x : XLen} {v : InstWord} {r q : TableRow}

/-- A word selects a row when the width has the row and the bits under the mask are the pattern's (R110). -/
theorem selects_iff : r.selects x v = true ↔ x ∈ r.xlens ∧ v &&& r.mask = r.pattern := by
  simp [TableRow.selects]

theorem tableArithmetic_encodedBy (hr : r ∈ tableArithmetic) (hx : x ∈ r.xlens) (e : v &&& r.mask = r.pattern) :
    EncodedBy x v (r.build v) := by
  repeat' rcases List.mem_cons.mp hr with rfl | hr
  iterate 10 exact ⟨rfl, encR_of_match e rfl rfl rfl⟩
  iterate 6 exact ⟨rfl, encI_of_match e rfl rfl⟩
  iterate 3
    cases List.mem_singleton.mp hx
    exact ⟨rfl, encR_of_match e rfl rfl rfl⟩
  nomatch hr

theorem tableMemory_encodedBy (hr : r ∈ tableMemory) (e : v &&& r.mask = r.pattern) : EncodedBy x v (r.build v) := by
  repeat' rcases List.mem_cons.mp hr with rfl | hr
  iterate 5 exact ⟨rfl, encI_of_match e rfl rfl⟩
  iterate 3 exact ⟨rfl, encS_of_match e rfl rfl⟩
  nomatch hr

theorem tableControl_encodedBy (hr : r ∈ tableControl) (e : v &&& r.mask = r.pattern) : EncodedBy x v (r.build v) := by
  have evenB : (!(immBOf v).getLsbD 0) = true := congrArg (!·) (immBOf_even v)
  have evenJ : (!(immJOf v).getLsbD 0) = true := congrArg (!·) (immJOf_even v)
  repeat' rcases List.mem_cons.mp hr with rfl | hr
  iterate 6 exact ⟨wellFormed_of_even rfl evenB, encB_of_match e rfl rfl⟩
  · exact ⟨wellFormed_of_even rfl evenJ, encJ_of_opcode (opcodeOf_of_match e rfl rfl)⟩
  · exact ⟨rfl, encI_of_match e rfl rfl⟩
  · nomatch hr

theorem tableOther_encodedBy (hr : r ∈ tableOther) (e : v &&& r.mask = r.pattern) : EncodedBy x v (r.build v) := by
  repeat' rcases List.mem_cons.mp hr with rfl | hr
  iterate 2 exact ⟨rfl, encU_of_opcode (opcodeOf_of_match e rfl rfl)⟩
  iterate 2 exact ⟨rfl, e.symm.trans BitVec.and_allOnes⟩
  nomatch hr

theorem tableAtomic_encodedBy (hr : r ∈ tableAtomic) (hx : x ∈ r.xlens) (e : v &&& r.mask = r.pattern) :
    EncodedBy x v (r.build v) := by
  repeat' rcases List.mem_cons.mp hr with rfl | hr
  · exact ⟨rfl, encA_of_match_rs2 e rfl rfl rfl rfl⟩
  · cases List.mem_singleton.mp hx
    exact ⟨rfl, encA_of_match_rs2 e rfl rfl rfl rfl⟩
  · exact ⟨rfl, encA_of_match e rfl rfl rfl⟩
  · cases List.mem_singleton.mp hx
    exact ⟨rfl, encA_of_match e rfl rfl rfl⟩
  · nomatch hr

theorem tableRv64_encodedBy (hr : r ∈ tableRv64) (e : v &&& r.mask = r.pattern) : EncodedBy .rv64 v (r.build v) := by
  repeat' rcases List.mem_cons.mp hr with rfl | hr
  iterate 5 exact ⟨rfl, encR_of_match e rfl rfl rfl⟩
  iterate 3 exact ⟨rfl, encSh6_of_match e rfl rfl rfl⟩
  · exact ⟨rfl, encI_of_match e rfl rfl⟩
  iterate 3 exact ⟨rfl, encR_of_match e rfl rfl rfl⟩
  iterate 2 exact ⟨rfl, encI_of_match e rfl rfl⟩
  · exact ⟨rfl, encS_of_match e rfl rfl⟩
  · nomatch hr

theorem tableMulDiv_encodedBy (hr : r ∈ tableMulDiv) (hx : x ∈ r.xlens) (e : v &&& r.mask = r.pattern) :
    EncodedBy x v (r.build v) := by
  repeat' rcases List.mem_cons.mp hr with rfl | hr
  iterate 8 exact ⟨rfl, encR_of_match e rfl rfl rfl⟩
  iterate 5
    cases List.mem_singleton.mp hx
    exact ⟨rfl, encR_of_match e rfl rfl rfl⟩
  nomatch hr

/-- Every row of `tableRv64` is of `XLEN = 64` only (R111). -/
theorem tableRv64_xlens (hr : r ∈ tableRv64) : r.xlens = [.rv64] :=
  (by decide : ∀ r ∈ tableRv64, r.xlens = [.rv64]) r hr

/-- The instruction of a row that a word selects is well-formed and encoded by that word. -/
theorem build_encodedBy (hr : r ∈ opcodeTable) (hs : r.selects x v = true) : EncodedBy x v (r.build v) := by
  obtain ⟨hx, e⟩ := selects_iff.mp hs
  simp only [opcodeTable, List.mem_append] at hr
  rcases hr with (((((arithmetic | memory) | control) | other) | atomic) | rv64) | mulDiv
  · exact tableArithmetic_encodedBy arithmetic hx e
  · exact tableMemory_encodedBy memory e
  · exact tableControl_encodedBy control e
  · exact tableOther_encodedBy other e
  · exact tableAtomic_encodedBy atomic hx e
  · rw [tableRv64_xlens rv64] at hx
    cases List.mem_singleton.mp hx
    exact tableRv64_encodedBy rv64 e
  · exact tableMulDiv_encodedBy mulDiv hx e

end Rows

/-- Every instruction is encoded by its own row: the family of `Laws.EncodesItsRow` (R110). -/
theorem encodesItsRow (i : Instr) : Laws.EncodesItsRow.Statement i := by
  open Laws.EncodesItsRow in
  cases i
  exacts [add .., sub .., and .., or .., xor .., sll .., srl .., sra .., slt .., sltu .., addi .., andi .., ori .., xori ..,
    slti .., sltiu .., slli .., srli .., srai .., lb .., lbu .., lh .., lhu .., lw .., sb .., sh .., sw .., beq .., bne ..,
    blt .., bltu .., bge .., bgeu .., jal .., jalr .., auipc .., lui .., ebreak, ecall, lrw .., lrd .., scw .., scd ..,
    addw .., subw .., sllw .., srlw .., sraw .., slli64 .., srli64 .., srai64 .., addiw .., slliw .., srliw .., sraiw ..,
    lwu .., ld .., sd .., mul .., mulh .., mulhu .., mulhsu .., div .., divu .., rem .., remu .., mulw .., divw ..,
    divuw .., remw .., remuw ..]

section Selected

variable {x : XLen} {v : InstWord} {r q : TableRow} {i : Instr}

/-- A word that selects a row decodes to the row's instruction (R110). -/
theorem decode_of_selects (hr : r ∈ opcodeTable) (hs : r.selects x v = true) : decode x v = .ok (r.build v) := by
  obtain ⟨wf, word⟩ := build_encodedBy hr hs
  have read : decode x (encode (r.build v)) = .ok (r.build v) := decodeOfEncode x _ wf
  rwa [word] at read

/-- A word that decodes selects a row. -/
theorem exists_selects_of_decode (e : decode x v = .ok i) : ∃ r ∈ opcodeTable, r.selects x v = true := by
  obtain ⟨wf, rfl⟩ := encodeOfDecode x v i e
  obtain ⟨r, hr, -, width, word, -⟩ := encodesItsRow i
  exact ⟨r, hr, selects_iff.mpr ⟨(width x).mpr (Bool.and_eq_true_iff.mp wf).1, word⟩⟩

/-- The illegal words are those that no row matches (R112). -/
theorem decode_illegal_iff : decode x v = .error (.illegal v) ↔ ∀ r ∈ opcodeTable, r.selects x v = false := by
  rw [decode_eq_illegal_iff]
  constructor
  · intro undecoded r hr
    by_contra hs
    have read := decode_eq_ok_iff.mp (decode_of_selects hr (Bool.eq_true_of_not_eq_false hs))
    rw [undecoded] at read
    cases read
  · intro unselected
    by_contra decodes
    obtain ⟨i, e⟩ := Option.ne_none_iff_exists'.mp decodes
    obtain ⟨r, hr, hs⟩ := exists_selects_of_decode (decode_eq_ok_iff.mpr e)
    rw [unselected r hr] at hs
    cases hs

/-! ## No word matches two rows of a width (R110, R111) -/

/-- `r` and `q` are the 5-bit row and the 6-bit row of one of `slli`, `srli`, `srai` (R103). -/
abbrev ShiftRows (r q : TableRow) : Prop :=
  (r.xlens = [.rv32] ∧ r.mask = 0xFE00707F#32) ∧ (q.xlens = [.rv64] ∧ q.mask = 0xFC00707F#32) ∧
    r.mnemonic = q.mnemonic ∧ r.pattern = q.pattern

/-- Any two rows differ in a bit that both masks keep, but for the two rows of a shift-immediate. -/
theorem rows_apart :
    opcodeTable.Pairwise fun r q => r.pattern &&& q.mask ≠ q.pattern &&& r.mask ∨ ShiftRows r q := by
  decide +kernel

/-- Under both masks the patterns of two rows that a word matches are the same. -/
theorem patterns_agree {p m p' m' : InstWord} (e : v &&& m = p) (e' : v &&& m' = p') : p &&& m' = p' &&& m := by
  rw [← e, ← e', BitVec.and_assoc, BitVec.and_assoc, BitVec.and_comm m]

/-- Two rows that a word matches are one row, or the two rows of a shift-immediate. -/
theorem eq_or_shiftRows {j k : Nat} (hj : opcodeTable[j]? = some r) (hk : opcodeTable[k]? = some q)
    (er : v &&& r.mask = r.pattern) (eq : v &&& q.mask = q.pattern) : j = k ∨ ShiftRows r q ∨ ShiftRows q r := by
  obtain ⟨lj, rfl⟩ := List.getElem?_eq_some_iff.mp hj
  obtain ⟨lk, rfl⟩ := List.getElem?_eq_some_iff.mp hk
  have apart := List.pairwise_iff_getElem.mp rows_apart
  rcases Nat.lt_trichotomy j k with below | same | above
  · exact .inr (.inl ((apart j k lj lk below).resolve_left fun differ => differ (patterns_agree er eq)))
  · exact .inl same
  · exact .inr (.inr ((apart k j lk lj above).resolve_left fun differ => differ (patterns_agree eq er)))

/-- The two rows of a shift-immediate are of different widths, so no word selects both. -/
theorem ShiftRows.not_both (rows : ShiftRows r q) (hr : r.selects x v = true) (hq : q.selects x v = true) : False := by
  obtain ⟨⟨narrow, -⟩, ⟨wide, -⟩, -⟩ := rows
  have at32 := (selects_iff.mp hr).1
  have at64 := (selects_iff.mp hq).1
  rw [narrow, List.mem_singleton] at at32
  rw [wide, List.mem_singleton, at32] at at64
  cases at64

/-- For a fixed width no word matches two rows (R110). -/
theorem index_eq_of_selects {j k : Nat} (hj : opcodeTable[j]? = some r) (hk : opcodeTable[k]? = some q)
    (hr : r.selects x v = true) (hq : q.selects x v = true) : j = k := by
  rcases eq_or_shiftRows hj hk (selects_iff.mp hr).2 (selects_iff.mp hq).2 with same | rows | rows
  · exact same
  · exact (rows.not_both hr hq).elim
  · exact (rows.not_both hq hr).elim

end Selected

/-- Settles O12: rows decode, words without a row do not, two rows of a width differ under both masks, and the masks are checked
row by row. -/
theorem decodeFollowsTable : Obligations.DecodeFollowsTable :=
  ⟨fun _ _ => ⟨fun _ hr hs => decode_of_selects hr hs, decode_illegal_iff.mpr, fun _ _ _ _ => index_eq_of_selects⟩,
    by decide +kernel⟩

/-! ## Which rows a width has (R111) -/

/-- A row is of both widths or of one of them. -/
theorem xlens_cases : ∀ r ∈ opcodeTable, r.xlens = [.rv32, .rv64] ∨ r.xlens = [.rv32] ∨ r.xlens = [.rv64] := by
  decide +kernel

/-- A pattern has no bit outside its mask. -/
theorem pattern_in_mask : ∀ r ∈ opcodeTable, r.pattern &&& r.mask = r.pattern := by
  decide +kernel

/-- A row of `XLEN = 32` only is the 5-bit row of a shift-immediate. -/
theorem exists_shiftRows : ∀ r ∈ opcodeTable, r.xlens = [.rv32] → ∃ q ∈ opcodeTable, ShiftRows r q := by
  decide +kernel

section Widths

variable {v : InstWord} {r q : TableRow}

theorem rv32_mem_xlens (hr : r ∈ opcodeTable) (other : r.xlens ≠ [.rv64]) : XLen.rv32 ∈ r.xlens := by
  rcases xlens_cases r hr with e | e | e
  · simp [e]
  · simp [e]
  · exact absurd e other

theorem rv64_mem_xlens (hr : r ∈ opcodeTable) (other : r.xlens ≠ [.rv32]) : XLen.rv64 ∈ r.xlens := by
  rcases xlens_cases r hr with e | e | e
  · simp [e]
  · exact absurd e other
  · simp [e]

/-- A word of the 5-bit row of a shift-immediate is a word of its 6-bit row (R103). -/
theorem ShiftRows.match_wide (rows : ShiftRows r q) (hq : q ∈ opcodeTable) (e : v &&& r.mask = r.pattern) :
    v &&& q.mask = q.pattern := by
  obtain ⟨⟨-, narrow⟩, ⟨-, wide⟩, -, pattern⟩ := rows
  have fewer : q.mask = r.mask &&& q.mask := by rw [narrow, wide]; rfl
  rw [fewer, ← BitVec.and_assoc, e, pattern, pattern_in_mask q hq]

/-- A word of both rows of a shift-immediate has bit 25 clear: the 5-bit row fixes it, and the pattern is the same (R103). -/
theorem ShiftRows.bit25 (rows : ShiftRows r q) (er : v &&& r.mask = r.pattern) (eq : v &&& q.mask = q.pattern) :
    v.getLsbD 25 = false := by
  obtain ⟨⟨-, narrow⟩, ⟨-, wide⟩, -, pattern⟩ := rows
  have same : v &&& 0xFE00707F#32 = v &&& 0xFC00707F#32 := by rw [← narrow, ← wide, er, eq, pattern]
  simpa using congrArg (·.getLsbD 25) same

/-- With `XLEN = 32` a word of a row of `XLEN = 64` only is illegal, but for the words that a 5-bit shift has (R111). -/
theorem decode_rv32_illegal (hr : r ∈ opcodeTable) (e : v &&& r.mask = r.pattern) (wide : r.xlens = [.rv64])
    (bit : r.mask = 0xFC00707F#32 → v.getLsbD 25 = true) : decode .rv32 v = .error (.illegal v) := by
  refine decode_illegal_iff.mpr fun q hq => ?_
  by_contra hs
  obtain ⟨at32, eq⟩ := selects_iff.mp (Bool.eq_true_of_not_eq_false hs)
  obtain ⟨j, hj⟩ := List.getElem?_of_mem hr
  obtain ⟨k, hk⟩ := List.getElem?_of_mem hq
  rcases eq_or_shiftRows hj hk e eq with rfl | ⟨⟨narrow, -⟩, -⟩ | rows
  · cases hj.symm.trans hk
    simp [wide] at at32
  · rw [wide] at narrow
    cases narrow
  · have ⟨_, ⟨_, mask⟩, _⟩ := rows
    have set := bit mask
    rw [rows.bit25 eq e] at set
    cases set

end Widths

/-- Settles O14: the widths checked row by row, the words without a row of `XLEN = 32`, and the rows that a width has. -/
theorem rowsOfEachWidth : Obligations.RowsOfEachWidth := by
  refine ⟨by decide +kernel, fun v r hr e => ⟨decode_rv32_illegal hr e, fun both => ?_, fun both => ?_, fun narrow => ?_⟩⟩
  · exact decode_of_selects hr (selects_iff.mpr ⟨rv32_mem_xlens hr both, e⟩)
  · exact decode_of_selects hr (selects_iff.mpr ⟨rv64_mem_xlens hr both, e⟩)
  · obtain ⟨q, hq, rows⟩ := exists_shiftRows r hr narrow
    have ⟨_, ⟨wide, mask⟩, mnemonic, _⟩ := rows
    have at64 : XLen.rv64 ∈ q.xlens := by simp [wide]
    exact ⟨q, hq, mnemonic.symm, mask, decode_of_selects hq (selects_iff.mpr ⟨at64, rows.match_wide hq e⟩)⟩

end Sys2Proof
end

section
/-! The words that no row matches: the AMO words, unused function codes, the other words of opcode `1110011`, and every word of an
unlisted opcode (R107, R112, R205). -/

namespace Sys2Proof

section Unlisted

variable {x : XLen} {v : InstWord}

/-- Of the atomic words only those of `lr` and `sc` are listed: not the AMO words (R105, R112). -/
theorem decodeAtomic_amo (notLr : funct5Of v ≠ 0x02#5) (notSc : funct5Of v ≠ 0x03#5) : decodeAtomic x v = none := by
  unfold decodeAtomic
  split
  case h_1 lr _ | h_2 lr _ => exact absurd lr notLr
  case h_3 sc _ | h_4 sc _ => exact absurd sc notSc
  case h_5 => rfl

/-- With funct7 `0100000` only `sub` and `sra` are listed (R112). -/
theorem decodeOp_alternate (f7 : funct7Of v = 0x20#7) (notSub : funct3Of v ≠ 0#3) (notSra : funct3Of v ≠ 5#3) :
    decodeOp v = none := by
  unfold decodeOp
  split
  case h_9 sub => exact absurd sub notSub
  case h_10 sra => exact absurd sra notSra
  case h_19 => rfl
  all_goals
    next other _ => exact absurd (f7.symm.trans other) (by decide)

theorem decodeSystem_other (notEcall : v ≠ 0x00000073#32) (notEbreak : v ≠ 0x00100073#32) : decodeSystem v = none := by
  rw [decodeSystem, if_neg notEcall, if_neg notEbreak]

/-- A word that does not decode selects no row. -/
theorem unselected_of_decodeWord?_eq_none (e : decodeWord? x v = none) : ∀ r ∈ opcodeTable, r.selects x v = false :=
  decode_illegal_iff.mp (decode_eq_illegal_iff.mpr e)

end Unlisted

namespace Machine

/-- A step that fetches an illegal word raises with the word, and changes nothing else (R112, R306). -/
theorem step_eq_raise_of_illegal {x : XLen} {h : Hart x.width} {v : InstWord} (running : h.outcome = .running)
    (fetched : h.fetch = .ok v) (illegal : decode x v = .error (.illegal v)) :
    step ⟨x, h⟩ = .next ⟨x, { h with outcome := .raised (.illegalInstruction v) }⟩ := by
  simp only [step, running, fetched, illegal]
  rfl

end Machine

/-- Settles O13: the words without a row are the illegal ones, and the listed words decode to nothing. -/
theorem unlistedWordsAreIllegal : Obligations.UnlistedWordsAreIllegal := by
  intro x v
  refine ⟨fun unselected => ?_, fun listed => unselected_of_decodeWord?_eq_none ?_⟩
  · have illegal : decode x v = .error (.illegal v) := decode_illegal_iff.mpr unselected
    exact ⟨illegal, fun h running fetched => Machine.step_eq_raise_of_illegal running fetched illegal⟩
  · rcases listed with opcode | ⟨atomic, notLr, notSc⟩ | ⟨op, f7, notSub, notSra⟩ | ⟨system, notEcall, notEbreak⟩
    · exact decodeWord?_unlisted opcode
    · rw [decodeWord?_atomic atomic, decodeAtomic_amo notLr notSc]
    · rw [decodeWord?_op op, decodeOp_alternate f7 notSub notSra]
    · rw [decodeWord?_system system, decodeSystem_other notEcall notEbreak]

end Sys2Proof
end

section
/-! The immediates as signed numbers (R98 to R102). -/

namespace Sys2Proof.Machine

/-- Sign extension to either width keeps the signed value. -/
theorem toInt_signExtend_width (x : XLen) {n : Nat} (hn : n ≤ 32) (b : BitVec n) :
    (b.signExtend x.width).toInt = b.toInt :=
  BitVec.toInt_signExtend_of_le (hn.trans (by cases x <;> decide))

/-- The signed value of bits appended below a word that is not empty. -/
theorem toInt_append_succ {m n : Nat} (hi : BitVec (m + 1)) (lo : BitVec n) :
    (hi ++ lo).toInt = 2 ^ n * hi.toInt + lo.toNat := by
  simp [BitVec.toInt_append]

/-- The signed value of a slice: its top bit has the negative weight. -/
theorem toInt_extractLsb'_succ {w : Nat} (v : BitVec w) (s n : Nat) :
    (v.extractLsb' s (n + 1)).toInt = (v.extractLsb' s n).toNat - (if v.getLsbD (s + n) then 2 ^ n else 0) := by
  have top : (v.extractLsb' s (n + 1)).msb = v.getLsbD (s + n) := by simp [BitVec.msb_eq_getLsbD_last]
  have value : (v.extractLsb' s (n + 1)).toNat = (v.extractLsb' s n).toNat + 2 ^ n * (v.getLsbD (s + n)).toNat := by
    rw [BitVec.extractLsb'_toNat, BitVec.extractLsb'_toNat, Nat.mod_pow_succ, ← BitVec.testBit_toNat,
      ← Nat.testBit_shiftRight, Nat.toNat_testBit]
  rw [BitVec.toInt_eq_msb_cond, top, value]
  cases v.getLsbD (s + n)
  · simp
  · push_cast
    simp only [if_true, Bool.toNat_true]
    ring

/-- One bit as a signed number. -/
theorem toInt_extractLsb'_one {w : Nat} (v : BitVec w) (s : Nat) :
    (v.extractLsb' s 1).toInt = - (if v.getLsbD s then 1 else 0) := by
  rw [toInt_extractLsb'_succ, BitVec.toNat_of_zero_length rfl]
  simp

section Values

variable (v : InstWord)

theorem immIOf_toInt : (immIOf v).toInt = (v.extractLsb' 20 11).toNat - (if v.getLsbD 31 then 2 ^ 11 else 0) :=
  toInt_extractLsb'_succ v 20 11

theorem immSOf_toInt : (immSOf v).toInt =
    (v.extractLsb' 25 6).toNat * 32 + (v.extractLsb' 7 5).toNat - (if v.getLsbD 31 then 2 ^ 11 else 0) := by
  rw [immSOf, toInt_append_succ, toInt_extractLsb'_succ]
  split <;> ring

theorem immBOf_toInt : (immBOf v).toInt =
    (v.extractLsb' 7 1).toNat * 2 ^ 11 + (v.extractLsb' 25 6).toNat * 32 + (v.extractLsb' 8 4).toNat * 2 -
      (if v.getLsbD 31 then 2 ^ 12 else 0) := by
  rw [immBOf, toInt_append_succ, toInt_append_succ, toInt_append_succ, toInt_append_succ, toInt_extractLsb'_one]
  split <;> simp only [BitVec.toNat_ofNat] <;> ring

theorem immJOf_toInt : (immJOf v).toInt =
    (v.extractLsb' 12 8).toNat * 2 ^ 12 + (v.extractLsb' 20 1).toNat * 2 ^ 11 + (v.extractLsb' 21 10).toNat * 2 -
      (if v.getLsbD 31 then 2 ^ 20 else 0) := by
  rw [immJOf, toInt_append_succ, toInt_append_succ, toInt_append_succ, toInt_append_succ, toInt_extractLsb'_one]
  split <;> simp only [BitVec.toNat_ofNat] <;> ring

/-- The 32-bit value of `imm_U`: `immu` above twelve zeros (R102). -/
theorem immUOf_toInt : (immUOf v ++ 0#12).toInt =
    (v.extractLsb' 12 19).toNat * 2 ^ 12 - (if v.getLsbD 31 then 2 ^ 31 else 0) := by
  rw [immUOf, toInt_append_succ, toInt_extractLsb'_succ]
  split <;> simp only [BitVec.toNat_ofNat] <;> ring

end Values

/-- Settles O19: either width keeps the signed value of the immediate, and that is the sum of its parts. -/
theorem immediateValues : Obligations.ImmediateValues := by
  intro x v
  refine ⟨?_, ?_, ?_, ?_, ?_⟩
  · exact (toInt_signExtend_width x (by decide) _).trans (immIOf_toInt v)
  · exact (toInt_signExtend_width x (by decide) _).trans (immSOf_toInt v)
  · exact (toInt_signExtend_width x (by decide) _).trans (immBOf_toInt v)
  · exact (toInt_signExtend_width x (by decide) _).trans (immJOf_toInt v)
  · exact (toInt_signExtend_width x (by decide) _).trans (immUOf_toInt v)

end Sys2Proof.Machine
end

section
/-! Instructions whose row the width lacks (R111, R235, assumptions 11 and 12): the shift-immediates, and the instructions of
`XLEN = 64` only. -/

namespace Sys2Proof.Machine

/-! ## Shifts by exact arithmetic (R147 to R149) -/

section Shifts

variable {w : Nat} (a : BitVec w) (k : Nat)

theorem shiftLeft_eq_ofNat_mul : a <<< k = BitVec.ofNat w (a.toNat * 2 ^ k) := by
  apply BitVec.eq_of_toNat_eq
  rw [BitVec.toNat_shiftLeft, BitVec.toNat_ofNat, Nat.shiftLeft_eq]

theorem ushiftRight_eq_ofNat_div : a >>> k = BitVec.ofNat w (a.toNat / 2 ^ k) := by
  apply BitVec.eq_of_toNat_eq
  rw [BitVec.toNat_ushiftRight, BitVec.toNat_ofNat, Nat.shiftRight_eq_div_pow,
    Nat.mod_eq_of_lt ((Nat.div_le_self ..).trans_lt a.isLt)]

theorem sshiftRight_eq_ofInt_div : a.sshiftRight k = BitVec.ofInt w (a.toInt / 2 ^ k) := by
  rw [BitVec.sshiftRight_eq, Int.shiftRight_eq_div_pow, Nat.cast_pow, Nat.cast_ofNat]

end Shifts

/-! ## What writes a register, and what raises -/

section Ends

variable {x : XLen} {h : Hart x.width} {i : Instr} {rd : RegNum}

/-- An instruction that ends in `writeNext` writes its register, goes on, and changes nothing else (R130). -/
theorem writesReg_of_writeNext {v : BitVec x.width} (e : exec i ⟨x, h⟩ = .next ⟨x, h.writeNext rd v⟩) :
    WritesReg x h i rd v :=
  ⟨_, e, writeNext_regBecomes h rd v, by simp, by simp, ⟨by simp, by simp⟩, ⟨by simp, by simp, by simp⟩, by simp⟩

/-- A shift of the 6-bit rows by less than the width writes its register (R242, assumption 12). -/
theorem writesReg_of_shiftNext {amount : Nat} {v : BitVec x.width} (fits : amount < x.width)
    (e : exec i ⟨x, h⟩ = .next ⟨x, h.shiftNext i rd amount v⟩) : WritesReg x h i rd v := by
  rw [Hart.shiftNext, if_pos fits] at e
  exact writesReg_of_writeNext e

/-- A shift of the 6-bit rows by the width or more raises with its word (R111, assumption 11). -/
theorem raises_of_shiftNext {amount : Nat} {v : BitVec x.width} (exceeds : x.width ≤ amount)
    (e : exec i ⟨x, h⟩ = .next ⟨x, h.shiftNext i rd amount v⟩) : Raises x h i (.illegalInstruction (encode i)) := by
  rw [Hart.shiftNext, if_neg (Nat.not_lt.mpr exceeds)] at e
  exact e

end Ends

/-! ## The rows that a width lacks -/

/-- The 5-bit shift-immediates shift at either width (R147 to R149, assumption 12). -/
theorem writesReg_shift5 (x : XLen) (h : Hart x.width) (rd rs1 : RegNum) (shamt : BitVec 5) :
    WritesReg x h (.slli rd rs1 shamt) rd (BitVec.ofNat _ ((h.reg rs1).toNat * 2 ^ shamt.toNat)) ∧
    WritesReg x h (.srli rd rs1 shamt) rd (BitVec.ofNat _ ((h.reg rs1).toNat / 2 ^ shamt.toNat)) ∧
    WritesReg x h (.srai rd rs1 shamt) rd (BitVec.ofInt _ ((h.reg rs1).toInt / 2 ^ shamt.toNat)) := by
  rw [← shiftLeft_eq_ofNat_mul, ← ushiftRight_eq_ofNat_div, ← sshiftRight_eq_ofInt_div]
  exact ⟨writesReg_of_writeNext rfl, writesReg_of_writeNext rfl, writesReg_of_writeNext rfl⟩

/-- The 6-bit shift-immediates shift at either width, by an amount below it (R242 to R244, assumption 12). -/
theorem writesReg_shift6 (x : XLen) (h : Hart x.width) (rd rs1 : RegNum) {shamt : BitVec 6} (fits : shamt.toNat < x.width) :
    WritesReg x h (.slli64 rd rs1 shamt) rd (BitVec.ofNat _ ((h.reg rs1).toNat * 2 ^ shamt.toNat)) ∧
    WritesReg x h (.srli64 rd rs1 shamt) rd (BitVec.ofNat _ ((h.reg rs1).toNat / 2 ^ shamt.toNat)) ∧
    WritesReg x h (.srai64 rd rs1 shamt) rd (BitVec.ofInt _ ((h.reg rs1).toInt / 2 ^ shamt.toNat)) := by
  rw [← shiftLeft_eq_ofNat_mul, ← ushiftRight_eq_ofNat_div, ← sshiftRight_eq_ofInt_div]
  exact ⟨writesReg_of_shiftNext fits rfl, writesReg_of_shiftNext fits rfl, writesReg_of_shiftNext fits rfl⟩

/-- With `XLEN = 32` an instruction of `XLEN = 64` only raises with its word, but for a shift by less than 32
(R111, R235, assumption 11). -/
theorem raises_of_absent {h : Hart XLen.rv32.width} {i : Instr} (absent : i.existsAt .rv32 = false)
    (exceeds : ∀ rd rs1 shamt, i = .slli64 rd rs1 shamt ∨ i = .srli64 rd rs1 shamt ∨ i = .srai64 rd rs1 shamt →
      32 ≤ shamt.toNat) : Raises .rv32 h i (.illegalInstruction (encode i)) := by
  cases i with
  | slli64 rd rs1 shamt => exact raises_of_shiftNext (exceeds rd rs1 shamt (.inl rfl)) rfl
  | srli64 rd rs1 shamt => exact raises_of_shiftNext (exceeds rd rs1 shamt (.inr (.inl rfl))) rfl
  | srai64 rd rs1 shamt => exact raises_of_shiftNext (exceeds rd rs1 shamt (.inr (.inr rfl))) rfl
  | lrd | scd | addw | subw | sllw | srlw | sraw | addiw | slliw | srliw | sraiw | lwu | ld | sd | mulw | divw | divuw
  | remw | remuw => rfl
  | _ => cases absent

/-- Settles O18: the shifts that a width lacks shift, and the other absent instructions raise. -/
theorem absentRowsRaise : Obligations.AbsentRowsRaise :=
  ⟨fun h => writesReg_shift5 .rv64 h,
    fun h => ⟨fun _ => raises_of_absent, fun rd rs1 _ => writesReg_shift6 .rv32 h rd rs1⟩⟩

end Sys2Proof.Machine
end

section
/-! A row of the opcode table as a statement about words (R110), and words that are written out. -/

namespace Sys2Proof

/-- The words of a row decode to its instruction at each of the row's widths (R110). The row is found by its mnemonic. -/
theorem decodesAs_of_row {x : XLen} {widths : List XLen} {pattern mask : InstWord} {build : InstWord → Instr}
    (mnemonic : String) (width : x ∈ widths)
    (row : ⟨mnemonic, pattern, mask, widths, build⟩ ∈ opcodeTable := by
      simp [opcodeTable, tableArithmetic, tableMemory, tableControl, tableOther, tableAtomic, tableRv64, tableMulDiv]) :
    Machine.DecodesAs x pattern mask build :=
  fun _ e => decode_of_selects row (selects_iff.mpr ⟨width, e⟩)

theorem mem_bothWidths (x : XLen) : x ∈ [XLen.rv32, XLen.rv64] := by
  cases x <;> decide

/-- A word decodes to the instruction that it encodes. -/
theorem decode_of_encode_eq {x : XLen} {i : Instr} {v : InstWord} (word : encode i = v) (wf : i.wellFormed x = true) :
    decode x v = .ok i :=
  word ▸ decodeOfEncode x i wf

/-- Settles O17: each word is the encoding of its instruction. -/
theorem writtenWordsDecode : Obligations.WrittenWordsDecode := by
  refine ⟨?_, ?_, ?_, ?_, ?_, ?_, ?_, ?_, ?_, ?_, ?_, ?_⟩
  all_goals
    intros
    exact decode_of_encode_eq rfl rfl

end Sys2Proof
end

section
/-! RV32I arithmetic (R130 to R149): each operation by exact arithmetic on the values of its sources, and its row. -/

namespace Sys2Proof.Machine

/-! ## Results by exact arithmetic -/

section Results

variable {w : Nat} (a b : BitVec w)

theorem sub_eq_ofInt_sub : a - b = BitVec.ofInt w (a.toNat - b.toNat) := by
  rw [Int.sub_eq_add_neg, BitVec.ofInt_add, BitVec.ofInt_neg, BitVec.ofInt_natCast, BitVec.ofInt_natCast,
    BitVec.ofNat_toNat, BitVec.ofNat_toNat, BitVec.setWidth_eq, BitVec.setWidth_eq, BitVec.sub_eq_add_neg]

theorem and_eq_ofNat_and : a &&& b = BitVec.ofNat w (a.toNat &&& b.toNat) := by
  rw [← BitVec.toNat_and, BitVec.ofNat_toNat, BitVec.setWidth_eq]

theorem or_eq_ofNat_or : a ||| b = BitVec.ofNat w (a.toNat ||| b.toNat) := by
  rw [← BitVec.toNat_or, BitVec.ofNat_toNat, BitVec.setWidth_eq]

theorem xor_eq_ofNat_xor : a ^^^ b = BitVec.ofNat w (a.toNat ^^^ b.toNat) := by
  rw [← BitVec.toNat_xor, BitVec.ofNat_toNat, BitVec.setWidth_eq]

theorem bitValue_ltSigned : (bitValue (ltSigned a b) : BitVec w) = if a.toInt < b.toInt then 1 else 0 := by
  simp [bitValue, ltSigned, BitVec.slt_iff_toInt_lt]

theorem bitValue_ltUnsigned : (bitValue (ltUnsigned a b) : BitVec w) = if a.toNat < b.toNat then 1 else 0 := by
  simp [bitValue, ltUnsigned, BitVec.ult_iff_toNat_lt]

/-- An immediate is its signed value modulo `2^XLEN` (R98). -/
theorem imm12_eq_ofInt (imm : BitVec 12) : (imm12 imm : BitVec w) = BitVec.ofInt w imm.toInt := rfl

/-- Adding an immediate adds its signed value modulo `2^XLEN` (R141). -/
theorem add_imm12_eq_ofInt_add (imm : BitVec 12) : a + imm12 imm = BitVec.ofInt w (a.toNat + imm.toInt) := by
  rw [imm12_eq_ofInt, BitVec.ofInt_add, BitVec.ofInt_natCast, BitVec.ofNat_toNat, BitVec.setWidth_eq]

end Results

section Widths

variable {x : XLen} (a b : BitVec x.width)

/-- The amount in a register is its value modulo the width (R136). -/
theorem shiftAmount_eq_mod : shiftAmount b = b.toNat % x.width := by
  cases x <;> rfl

theorem shiftLeft_eq_ofNat : shiftLeft a b = BitVec.ofNat _ (a.toNat * 2 ^ (b.toNat % x.width)) := by
  rw [shiftLeft, shiftLeft_eq_ofNat_mul, shiftAmount_eq_mod]

theorem shiftRightLogical_eq_ofNat : shiftRightLogical a b = BitVec.ofNat _ (a.toNat / 2 ^ (b.toNat % x.width)) := by
  rw [shiftRightLogical, ushiftRight_eq_ofNat_div, shiftAmount_eq_mod]

theorem shiftRightArith_eq_ofInt : shiftRightArith a b = BitVec.ofInt _ (a.toInt / 2 ^ (b.toNat % x.width)) := by
  rw [shiftRightArith, sshiftRight_eq_ofInt_div, shiftAmount_eq_mod]

/-- An immediate compares by its own signed value at either width (R145). -/
theorem bitValue_ltSigned_imm12 (imm : BitVec 12) :
    (bitValue (ltSigned a (imm12 imm)) : BitVec x.width) = if a.toInt < imm.toInt then 1 else 0 := by
  rw [bitValue_ltSigned, imm12, toInt_signExtend_width x (by decide)]

end Widths

/-! ## The instructions -/

/-- Settles O30: each instruction ends in `writeNext`, and its sum or difference is the exact one modulo `2^XLEN`. -/
theorem additionResults : Obligations.AdditionResults := by
  intro x
  have both := mem_bothWidths x
  refine ⟨decodesAs_of_row "add" both, decodesAs_of_row "sub" both, decodesAs_of_row "addi" both, fun h rd rs1 rs2 imm => ?_⟩
  rw [← BitVec.add_def, ← sub_eq_ofInt_sub, ← add_imm12_eq_ofInt_add]
  exact ⟨writesReg_of_writeNext rfl, writesReg_of_writeNext rfl, writesReg_of_writeNext rfl⟩

/-- Settles O31: the bits of the result are those of the values, an immediate being sign-extended first. -/
theorem bitwiseResults : Obligations.BitwiseResults := by
  intro x
  have both := mem_bothWidths x
  refine ⟨decodesAs_of_row "and" both, decodesAs_of_row "or" both, decodesAs_of_row "xor" both, decodesAs_of_row "andi" both,
    decodesAs_of_row "ori" both, decodesAs_of_row "xori" both, fun h rd rs1 rs2 imm => ?_⟩
  simp only [← and_eq_ofNat_and, ← or_eq_ofNat_or, ← xor_eq_ofNat_xor, ← imm12_eq_ofInt]
  exact ⟨writesReg_of_writeNext rfl, writesReg_of_writeNext rfl, writesReg_of_writeNext rfl, writesReg_of_writeNext rfl,
    writesReg_of_writeNext rfl, writesReg_of_writeNext rfl⟩

/-- Settles O32: the amount is `x[rs2]` modulo `XLEN`, and a shift by it is a product or a floored quotient. -/
theorem registerShiftResults : Obligations.RegisterShiftResults := by
  intro x
  have both := mem_bothWidths x
  refine ⟨decodesAs_of_row "sll" both, decodesAs_of_row "srl" both, decodesAs_of_row "sra" both, fun h rd rs1 rs2 => ?_⟩
  rw [← shiftLeft_eq_ofNat, ← shiftRightLogical_eq_ofNat, ← shiftRightArith_eq_ofInt]
  exact ⟨writesReg_of_writeNext rfl, writesReg_of_writeNext rfl, writesReg_of_writeNext rfl⟩

/-- Settles O33: the comparisons are those of the signed or the unsigned values, an immediate being sign-extended first. -/
theorem compareResults : Obligations.CompareResults := by
  intro x
  have both := mem_bothWidths x
  refine ⟨decodesAs_of_row "slt" both, decodesAs_of_row "sltu" both, decodesAs_of_row "slti" both,
    decodesAs_of_row "sltiu" both, fun h rd rs1 rs2 imm => ?_⟩
  rw [← bitValue_ltSigned, ← bitValue_ltUnsigned, ← bitValue_ltSigned_imm12, ← imm12_eq_ofInt, ← bitValue_ltUnsigned]
  exact ⟨writesReg_of_writeNext rfl, writesReg_of_writeNext rfl, writesReg_of_writeNext rfl, writesReg_of_writeNext rfl⟩

/-- The patterns of the 6-bit shift rows of `XLEN = 64` (R103, R242 to R244). -/
theorem exists_shift6Row {pattern : InstWord}
    (shift : pattern = 0x00001013#32 ∨ pattern = 0x00005013#32 ∨ pattern = 0x40005013#32) :
    ∃ r ∈ opcodeTable, r.xlens = [.rv64] ∧ r.mask = 0xFC00707F#32 ∧ r.pattern = pattern := by
  rcases shift with rfl | rfl | rfl <;> decide +kernel

/-- Settles O34: the rows of each width, the words of a 6-bit row with bit 25 set, which RV32 lacks, and the shifts of
either width. -/
theorem shiftImmediateResults : Obligations.ShiftImmediateResults := by
  have narrow : XLen.rv32 ∈ [XLen.rv32] := List.mem_singleton_self _
  have wide : XLen.rv64 ∈ [XLen.rv64] := List.mem_singleton_self _
  refine ⟨decodesAs_of_row "slli" narrow, decodesAs_of_row "srli" narrow, decodesAs_of_row "srai" narrow,
    decodesAs_of_row "slli" wide, decodesAs_of_row "srli" wide, decodesAs_of_row "srai" wide, ?_,
    writesReg_shift5 .rv32, fun h rd rs1 shamt => writesReg_shift6 .rv64 h rd rs1 shamt.isLt⟩
  intro v bit shift
  obtain ⟨r, row, only64, mask, pattern⟩ := exists_shift6Row shift
  exact decode_rv32_illegal row (by rw [mask]; exact pattern.symm) only64 fun _ => bit

end Sys2Proof.Machine
end

section
/-! Loads and stores (R160 to R169): what a load or a store of any size does, clause by clause of its rule, and the rows of RV32I. -/

namespace Sys2Proof.Machine

section Accesses

variable {x : XLen} {h : Hart x.width} {i : Instr} {a : BitVec x.width} {n : Nat}

/-- An instruction that is a load of `n` bytes obeys the rule of loads (R161), with `v` the value that the bytes widen to. -/
theorem loadBehaves_of_load {rd : RegNum} {ext : BitVec (8 * n) → BitVec x.width} {v : BitVec x.width}
    (e : exec i ⟨x, h⟩ = .next ⟨x, h.load rd a n ext⟩) (value : ext (h.readValue a n) = v) : LoadBehaves x h i rd a n v := by
  rcases load_cases h rd a n ext with ⟨misaligned, load⟩ | ⟨passes, denied, load⟩ | ⟨passes, granted, load⟩ <;> rw [load] at e
  · exact ⟨fun ok => absurd ok.1 misaligned, fun _ => e, fun fault => absurd fault.1 misaligned⟩
  · exact ⟨fun ok => absurd ok.2 denied, fun misaligned => absurd passes misaligned, fun _ => e⟩
  · exact ⟨fun _ => writesReg_of_writeNext (value ▸ e), fun misaligned => absurd passes misaligned,
      fun fault => absurd granted fault.2⟩

/-- An instruction that writes a value to memory and advances stores its bytes and changes nothing else (R56, R161). -/
theorem storesBytes_of_writeValue {v : BitVec x.width} (hm : h.mem.wf) (size : n ≤ 8)
    (e : exec i ⟨x, h⟩ = .next ⟨x, (h.writeValue a n (v.setWidth (8 * n))).advance⟩) : StoresBytes x h i a n v := by
  have space : n ≤ 2 ^ x.width := size.trans (by cases x <;> decide)
  exact ⟨_, e, by simp [SameRegs], by simp, by simp, writeValue_stored hm a space v, ⟨by simp, by simp, by simp⟩, by simp⟩

/-- An instruction that is a store of the low `n` bytes of `v` obeys the rule of stores (R161). -/
theorem storeBehaves_of_store {v : BitVec x.width} (hm : h.mem.wf) (size : n ≤ 8)
    (e : exec i ⟨x, h⟩ = .next ⟨x, h.store a n v⟩) : StoreBehaves x h i a n v := by
  rcases store_cases h a n v with ⟨misaligned, store⟩ | ⟨passes, denied, store⟩ | ⟨passes, granted, store⟩ <;> rw [store] at e
  · exact ⟨fun ok => absurd ok.1 misaligned, fun _ => e, fun fault => absurd fault.1 misaligned⟩
  · exact ⟨fun ok => absurd ok.2 denied, fun misaligned => absurd passes misaligned, fun _ => e⟩
  · exact ⟨fun _ => storesBytes_of_writeValue hm size e, fun misaligned => absurd passes misaligned,
      fun fault => absurd granted fault.2⟩

end Accesses

/-- Settles O35: each load is the common sequence of R161, and widening by sign or by zeros keeps the signed or the unsigned number
of the bytes. -/
theorem loadResults : Obligations.LoadResults := by
  intro x
  have both := mem_bothWidths x
  refine ⟨decodesAs_of_row "lb" both, decodesAs_of_row "lbu" both, decodesAs_of_row "lh" both, decodesAs_of_row "lhu" both,
    decodesAs_of_row "lw" both, fun h rd rs1 imm => ?_⟩
  have signed {n : Nat} (pos : 0 < n) := readValue_signExtend h (h.effAddr rs1 imm) pos x.width
  have unsigned (n : Nat) := readValue_zeroExtend h (h.effAddr rs1 imm) n x.width
  exact ⟨loadBehaves_of_load rfl (signed (by decide)), loadBehaves_of_load rfl (unsigned 1),
    loadBehaves_of_load rfl (signed (by decide)), loadBehaves_of_load rfl (unsigned 2),
    loadBehaves_of_load rfl (signed (by decide))⟩

/-- Settles O37: each store is the common sequence of R161 with the low bytes of `x[rs2]`. -/
theorem storeResults : Obligations.StoreResults := by
  intro x
  have both := mem_bothWidths x
  refine ⟨decodesAs_of_row "sb" both, decodesAs_of_row "sh" both, decodesAs_of_row "sw" both, fun h rs1 rs2 imm hm => ?_⟩
  exact ⟨storeBehaves_of_store hm (by decide) rfl, storeBehaves_of_store hm (by decide) rfl,
    storeBehaves_of_store hm (by decide) rfl⟩

end Sys2Proof.Machine
end

section
/-! Branches and jumps (R180 to R189): what a branch or a jump that links does, clause by clause of its rule, and the rows. -/

namespace Sys2Proof.Machine

/-! ## Conditions and targets by exact arithmetic -/

section Arithmetic

variable {w : Nat} (a b : BitVec w)

theorem eqBits_eq_true_iff : eqBits a b = true ↔ a = b := decide_eq_true_iff

theorem ltSigned_eq_true_iff : ltSigned a b = true ↔ a.toInt < b.toInt := BitVec.slt_iff_toInt_lt

theorem ltUnsigned_eq_true_iff : ltUnsigned a b = true ↔ a.toNat < b.toNat := BitVec.ult_iff_toNat_lt

/-- A branch on the negation of a comparison is taken where the comparison does not hold (R183, R186, R187). -/
theorem bnot_eq_true_iff_not {t : Bool} {p : Prop} (means : t = true ↔ p) : (!t) = true ↔ ¬ p := by
  rw [Bool.not_eq_true', ← Bool.not_eq_true, not_congr means]

/-- Adding a signed number to a word is the word of the exact sum (R101, R188). -/
theorem add_ofInt_eq_ofInt_add (z : Int) : a + BitVec.ofInt w z = BitVec.ofInt w (a.toNat + z) := by
  rw [BitVec.ofInt_add, BitVec.ofInt_natCast, BitVec.ofNat_toNat, BitVec.setWidth_eq]

end Arithmetic

/-! ## The rules of R180 and R181 -/

section Transfers

variable {x : XLen} {h : Hart x.width} {i : Instr}

/-- An instruction that ends in `setPc` goes to its target and changes nothing else. -/
theorem goesTo_of_setPc {t : BitVec x.width} (e : exec i ⟨x, h⟩ = .next ⟨x, h.setPc t⟩) : GoesTo x h i t :=
  ⟨_, e, h.setPc_reg t, h.setPc_pc t, h.setPc_reservation t, ⟨by simp, by simp⟩, ⟨by simp, by simp, by simp⟩, h.setPc_draws t⟩

/-- An instruction that sets a register and then `pc` links, goes to its target and changes nothing else. -/
theorem linksAndGoesTo_of_setReg_setPc {rd : RegNum} {v t : BitVec x.width}
    (e : exec i ⟨x, h⟩ = .next ⟨x, (h.setReg rd v).setPc t⟩) : LinksAndGoesTo x h i rd v t :=
  ⟨_, e, fun r => h.reg_setReg rd r v, (h.setReg rd v).setPc_pc t, by simp, ⟨by simp, by simp⟩,
    ⟨by simp, by simp, by simp⟩, by simp⟩

/-- An instruction that is a branch on `taken` obeys the rule of branches (R180, R181), where `cond` says when it is taken. -/
theorem branchBehaves_of_branch {taken : Bool} {cond : Prop} {offset : BitVec 13} (means : taken = true ↔ cond)
    (e : exec i ⟨x, h⟩ = .next ⟨x, h.branch taken offset⟩) : BranchBehaves x h i cond offset := by
  rcases branch_cases h taken offset with ⟨fell, branch⟩ | ⟨fires, branch⟩ <;> rw [branch] at e
  · have untaken : ¬ cond := fun c => absurd (means.mpr c) (Bool.eq_false_iff.mp fell)
    exact ⟨fun ok => absurd ok.1 untaken, fun fault => absurd fault.1 untaken, fun _ => goesTo_of_setPc e⟩
  have holds : cond := means.mp fires
  rcases jumpTo_cases h (h.pc + immB offset) with ⟨aligned, jump⟩ | ⟨misaligned, jump⟩ <;> rw [jump] at e
  · exact ⟨fun _ => goesTo_of_setPc e, fun fault => absurd aligned fault.2, fun untaken => absurd holds untaken⟩
  · exact ⟨fun ok => absurd ok.2 misaligned, fun _ => e, fun untaken => absurd holds untaken⟩

/-- An instruction that is a jump that links obeys the rule of jumps (R181, R188, R189). -/
theorem jumpBehaves_of_jumpLink {rd : RegNum} {t : BitVec x.width}
    (e : exec i ⟨x, h⟩ = .next ⟨x, h.jumpLink rd t⟩) : JumpBehaves x h i rd t := by
  rcases jumpLink_cases h rd t with ⟨aligned, jump⟩ | ⟨misaligned, jump⟩ <;> rw [jump] at e
  · exact ⟨fun _ => linksAndGoesTo_of_setReg_setPc e, fun misaligned => absurd aligned misaligned⟩
  · exact ⟨fun aligned => absurd aligned misaligned, fun _ => e⟩

end Transfers

/-! ## The instructions -/

/-- Settles O39: each branch is the common sequence of R180 on its own comparison. -/
theorem branchResults : Obligations.BranchResults := by
  intro x
  have both := mem_bothWidths x
  refine ⟨decodesAs_of_row "beq" both, decodesAs_of_row "bne" both, decodesAs_of_row "blt" both, decodesAs_of_row "bltu" both,
    decodesAs_of_row "bge" both, decodesAs_of_row "bgeu" both, fun h rs1 rs2 offset => ?_⟩
  have same := eqBits_eq_true_iff (h.reg rs1) (h.reg rs2)
  have signed := ltSigned_eq_true_iff (h.reg rs1) (h.reg rs2)
  have unsigned := ltUnsigned_eq_true_iff (h.reg rs1) (h.reg rs2)
  rw [← Int.not_lt, ← Nat.not_lt]
  exact ⟨branchBehaves_of_branch same rfl, branchBehaves_of_branch (bnot_eq_true_iff_not same) rfl,
    branchBehaves_of_branch signed rfl, branchBehaves_of_branch unsigned rfl,
    branchBehaves_of_branch (bnot_eq_true_iff_not signed) rfl,
    branchBehaves_of_branch (bnot_eq_true_iff_not unsigned) rfl⟩

/-- Settles O40: both jumps are the common sequence of R188; the target is taken from the registers before the link. -/
theorem jumpResults : Obligations.JumpResults := by
  intro x
  have both := mem_bothWidths x
  refine ⟨decodesAs_of_row "jal" both, decodesAs_of_row "jalr" both, fun h rd rs1 offset imm => ?_⟩
  rw [← add_ofInt_eq_ofInt_add, ← clear_bit0]
  exact ⟨jumpBehaves_of_jumpLink rfl, jumpBehaves_of_jumpLink rfl⟩

end Sys2Proof.Machine
end

section
/-! Upper immediates and the environment (R200 to R204, R310): `imm_U` as a number, and what `ecall` and `ebreak` do for each answer of
the handler. -/

namespace Sys2Proof.Machine

/-! ## Upper immediates -/

/-- `imm_U` is `immu * 4096`, read as a signed number, modulo `2^XLEN` (R102). -/
theorem immU_eq_ofInt {w : Nat} (immu : BitVec 20) : (immU immu : BitVec w) = BitVec.ofInt w (immu.toInt * 4096) := by
  have value : (immu ++ 0#12).toInt = immu.toInt * 4096 := by
    rw [toInt_append_succ, BitVec.toNat_ofNat]
    ring
  rw [immU, BitVec.signExtend, value]

/-- Settles O41: both instructions end in `writeNext`, with `imm_U` by its number. -/
theorem upperImmediateResults : Obligations.UpperImmediateResults := by
  intro x
  have both := mem_bothWidths x
  refine ⟨decodesAs_of_row "auipc" both, decodesAs_of_row "lui" both, fun h rd immu => ?_⟩
  rw [← add_ofInt_eq_ofInt_add, ← immU_eq_ofInt]
  exact ⟨writesReg_of_writeNext rfl, writesReg_of_writeNext rfl⟩

/-! ## The answer of the handler -/

section Answers

variable {w : Nat} {h : Hart w} {k : EnvKind}

/-- The default handler stops every transfer (R310). -/
theorem answer_of_no_handler (unset : h.handler = []) (k : EnvKind) : h.answer k = .stop := by
  rw [Hart.answer, unset, handlerAnswer]

/-- Where the handler stops, the transfer raises its condition. -/
theorem transfer_of_stop (stop : h.answer k = .stop) : h.transfer k = h.raise (k.condition h.pc.toNat) := by
  rw [Hart.transfer, stop]

variable {regs : Vector (BitVec w) 31} {pc : BitVec w} {bytes : List Host.Cell} {keep : Bool}

/-- Where the handler resumes the hart, the transfer is that resumption. -/
theorem transfer_of_resume (answer : h.answer k = .resume regs pc bytes keep) :
    h.transfer k = h.resume regs pc bytes keep := by
  rw [Hart.transfer, answer]

/-! ## The memory of a resumed hart (R310, assumption 15) -/

/-- A byte that the answer does not list, or that does not exist, is as before. -/
theorem resume_read_other (hm : h.mem.wf) {a : Nat} (other : (∀ c ∈ bytes, a ≠ c.1) ∨ ¬ h.platform.HasByte w a) :
    (h.resume regs pc bytes keep).mem.read a = h.mem.read a := by
  refine Memory.read_writeAll_other hm fun c hc e => ?_
  obtain ⟨listed, exist⟩ := mem_existingCells.mp hc
  rcases other with unlisted | absent
  · exact unlisted c listed e
  · exact absent (e ▸ exist)

/-- A byte that the answer lists once and that exists is as the answer says. -/
theorem resume_read_listed (hm : h.mem.wf) (once : (bytes.map Prod.fst).Nodup) {c : Host.Cell} (hc : c ∈ bytes)
    (exist : h.platform.HasByte w c.1) : (h.resume regs pc bytes keep).mem.read c.1 = c.2 :=
  Memory.read_writeAll_same hm (once.sublist (List.filter_sublist.map _)) (mem_existingCells.mpr ⟨hc, exist⟩)

/-- The bytes that changed join `written`, and no other does: a byte that changed is a listed one. -/
theorem mem_written_resume_iff (hm : h.mem.wf) {a : Nat} :
    a ∈ (h.resume regs pc bytes keep).written ↔
      a ∈ h.written ∨ (h.resume regs pc bytes keep).mem.read a ≠ h.mem.read a := by
  obtain ⟨kept, recorded⟩ := recordsChanges_resume hm regs pc bytes keep
  exact ⟨fun ha => (mem_written_resume.mp ha).imp_right And.right, fun ha => ha.elim (kept a) (recorded a)⟩

end Answers

/-! ## The instructions -/

/-- Where the handler stops, the instruction raises its condition (R203, R204). -/
theorem raises_of_stop {x : XLen} {h : Hart x.width} {k : EnvKind} (stop : h.answer k = .stop) :
    Raises x h k.instr (k.condition h.pc.toNat) := by
  rw [Raises, exec_envKind, transfer_of_stop stop, Hart.raise_eq]

/-- Settles O42: the transfer is a raise or a resumption, and a resumption keeps what R310 does not let it change. -/
theorem environmentTransfer : Obligations.EnvironmentTransfer := by
  intro x
  have both := mem_bothWidths x
  refine ⟨decodesAs_of_row "ecall" both, decodesAs_of_row "ebreak" both, fun h => ⟨answer_of_no_handler,
    raises_of_stop (k := .call), raises_of_stop (k := .breakpoint), fun k regs pc bytes keep hm answer => ?_⟩⟩
  have resumes : exec k.instr ⟨x, h⟩ = .next ⟨x, h.resume regs pc bytes keep⟩ := by
    rw [exec_envKind, transfer_of_resume answer]
  have sameRun : SameRun h (h.resume regs pc bytes keep) := ⟨by simp, by simp, by simp⟩
  exact ⟨_, resumes, h.resume_regs .., Hart.reg_zero _, h.resume_pc .., h.resume_reservation ..,
    fun _ => resume_read_other hm, fun once _ => resume_read_listed hm once, fun _ => mem_written_resume_iff hm,
    sameRun, h.resume_draws ..⟩

end Sys2Proof.Machine
end

section
/-! The words of load-reserved and store-conditional (R105, R216): the illegal ones beside them, and the two ordering bits. -/

namespace Sys2Proof

/-! ## Illegal words (R105, R111, R112) -/

/-- With `XLEN = 32` the words of a row of `XLEN = 64` only are illegal; a 6-bit shift row is set apart, whose words a 5-bit row
shares (R103, R111). -/
theorem illegalAs_of_wide_row {pattern mask : InstWord} (notShift : mask ≠ 0xFC00707F#32)
    (row : ∃ r ∈ opcodeTable, r.xlens = [.rv64] ∧ r.mask = mask ∧ r.pattern = pattern := by decide +kernel) :
    Machine.IllegalAs .rv32 pattern mask := by
  obtain ⟨r, row, wide, rfl, rfl⟩ := row
  exact fun _ e => decode_rv32_illegal row e wide fun shift => absurd shift notShift

/-- An `lr` with a nonzero rs2 field is no instruction, at either width (R105, R218, R219). -/
theorem decodeAtomic_lr_rs2 {x : XLen} {v : InstWord} (f5 : funct5Of v = 0x02#5) (f3 : funct3Of v = 2#3 ∨ funct3Of v = 3#3)
    (nonzero : rs2Of v ≠ 0) : decodeAtomic x v = none := by
  have refused (i : Instr) : onlyRs2Zero v i = none := if_neg nonzero
  rcases f3 with f3 | f3 <;> simp [decodeAtomic, refused, f5, f3]

/-- A word that matches an `lr` in all but its rs2 field, which is not zero, is illegal (R112). -/
theorem decode_lr_rs2_illegal {x : XLen} {v : InstWord}
    (lr : v &&& 0xF800707F#32 = 0x1000202F#32 ∨ v &&& 0xF800707F#32 = 0x1000302F#32) (nonzero : rs2Of v ≠ 0) :
    decode x v = .error (.illegal v) := by
  have fields : opcodeOf v = 0x2F#7 ∧ funct5Of v = 0x02#5 ∧ (funct3Of v = 2#3 ∨ funct3Of v = 3#3) := by
    rcases lr with e | e
    · exact ⟨opcodeOf_of_match e rfl rfl, slice_of_match e 27 5 rfl, .inl (funct3Of_of_match e rfl rfl)⟩
    · exact ⟨opcodeOf_of_match e rfl rfl, slice_of_match e 27 5 rfl, .inr (funct3Of_of_match e rfl rfl)⟩
  obtain ⟨op, f5, f3⟩ := fields
  rw [decode_eq_illegal_iff, decodeWord?_atomic op, decodeAtomic_lr_rs2 f5 f3 nonzero]

/-! ## The ordering bits (R216) -/

/-- Settles O45: the decoder reads the two bits back, they stand at 26 and 25, and neither `lr` nor `sc` uses them. -/
theorem orderingBitsChangeNothing : Obligations.OrderingBitsChangeNothing := by
  refine ⟨fun x rd rs1 rs2 aq rl => ⟨decodeOfEncode _ _ rfl, decodeOfEncode _ _ rfl, decodeOfEncode _ _ rfl,
    decodeOfEncode _ _ rfl, ?_⟩, fun ⟨x, h⟩ rd rs1 rs2 aq rl aq' rl' => ⟨rfl, rfl, ?_⟩⟩
  · simp only [List.forall_mem_cons, List.not_mem_nil, false_imp_iff, implies_true, and_true]
    exact ⟨⟨aqOf_encA .., rlOf_encA ..⟩, ⟨aqOf_encA .., rlOf_encA ..⟩, ⟨aqOf_encA .., rlOf_encA ..⟩,
      ⟨aqOf_encA .., rlOf_encA ..⟩⟩
  · rintro rfl
    exact ⟨rfl, rfl⟩

end Sys2Proof
end

section
/-! Load-reserved and store-conditional (R215 to R221): the life of the reservation, the rule of each instruction clause by clause,
and what a run of them does. -/

namespace Sys2Proof.Machine

/-! ## The life of the reservation (R215) -/

section Operations

variable {w : Nat} {h : Hart w} {rd : RegNum} {a : BitVec w} {sz : ReservedSize}

/-- A load-reserved that completes has passed its alignment check and set the reservation, whatever it held (R215, R217). -/
theorem loadReserved_completes {ext : BitVec (8 * sz.bytes) → BitVec w}
    (completes : (h.loadReserved rd a sz ext).outcome = .running) :
    a.toNat % sz.bytes = 0 ∧ (h.loadReserved rd a sz ext).reservation = some { addr := a, size := sz } := by
  rcases loadReserved_cases h rd a sz ext with ⟨-, e⟩ | ⟨-, -, e⟩ | ⟨aligned, -, e⟩ <;> rw [e] at completes ⊢
  · cases completes
  · cases completes
  · exact ⟨aligned, by rw [Hart.writeNext_reservation, Hart.setReservation_reservation]⟩

/-- A store-conditional that completes has cleared the reservation, whether it stored or not (R215). -/
theorem storeConditional_reservation {v : BitVec w} (completes : (h.storeConditional rd a sz v).outcome = .running) :
    (h.storeConditional rd a sz v).reservation = none := by
  rcases storeConditional_cases h rd a sz v with ⟨-, e⟩ | ⟨-, -, e⟩ | ⟨-, -, -, e⟩ | ⟨-, -, -, e⟩ <;> rw [e] at completes ⊢
  · cases completes
  · cases completes
  · rw [Hart.writeNext_reservation, Hart.writeValue_reservation, Hart.setReservation_reservation]
  · rw [Hart.writeNext_reservation, Hart.setReservation_reservation]

/-- After a transfer to the environment the reservation is as before or none (R310). -/
theorem transfer_reservation (h : Hart w) (k : EnvKind) :
    (h.transfer k).reservation = h.reservation ∨ (h.transfer k).reservation = none := by
  rcases transfer_cases h k with ⟨regs, pc, bytes, keep, -, e⟩ | ⟨-, e⟩ <;> rw [e]
  · rw [Hart.resume_reservation]
    cases keep
    · exact .inr rfl
    · exact .inl rfl
  · exact .inl rfl

/-- What a store does to memory is seen in memory and `written` alone. -/
theorem BytesStored.congr {g g' k k' : Hart w} {n : Nat} {v : BitVec w} (stored : BytesStored g g' a n v)
    (mem : k.mem = g.mem) (written : k.written = g.written) (mem' : k'.mem = g'.mem) (written' : k'.written = g'.written) :
    BytesStored k k' a n v := by
  unfold BytesStored
  rw [mem, written, mem', written']
  exact stored

end Operations

section Life

variable {x : XLen} {h h' : Hart x.width} {i : Instr}

/-- An instruction that does not complete leaves the reservation: every way to end but a raise goes on running. -/
theorem Effect.reservation_of_raise (e : Effect x h i h') (running : h.outcome = .running) (raises : h'.outcome ≠ .running) :
    h'.reservation = h.reservation := by
  cases e with
  | wrote | stored | fell | branched | linked | reserved | scStored | scFailed | resumed => simp [running] at raises
  | called | targetMisaligned | loadMisaligned | loadDenied | storeMisaligned | storeDenied | absent => rfl

/-- An instruction that is no `lr`, no `sc` and no transfer to the environment leaves the reservation. -/
theorem Effect.reservation_eq (e : Effect x h i h') (plain : isReserving i = false) (notCall : i ≠ .ecall ∧ i ≠ .ebreak) :
    h'.reservation = h.reservation := by
  cases e with
  | wrote | stored | fell | branched | linked => simp
  | reserved _ _ _ _ _ _ same | scStored _ _ _ _ _ _ same | scFailed _ _ _ _ _ _ same => subst same; simp at plain
  | resumed k _ _ _ _ call => exact absurd (call ▸ k.instr_cases) (not_or.mpr notCall)
  | called | targetMisaligned | loadMisaligned | loadDenied | storeMisaligned | storeDenied | absent => rfl

end Life

/-- Settles O26: a raise leaves the reservation; of the completing instructions `lr` sets it, `sc` clears it, the environment keeps
or clears it, and the others leave it. -/
theorem reservationLife : Obligations.ReservationLife := by
  refine ⟨fun _ _ => rfl, fun x i h h' running e =>
    ⟨(effect_of_next e).reservation_of_raise running, fun completes => ?_⟩⟩
  cases i with
  | lrw =>
    cases e
    exact (loadReserved_completes completes).2
  | scw =>
    cases e
    exact storeConditional_reservation completes
  | lrd =>
    cases x <;> cases e
    · cases completes
    · exact (loadReserved_completes completes).2
  | scd =>
    cases x <;> cases e
    · cases completes
    · exact storeConditional_reservation completes
  | ecall | ebreak =>
    cases e
    exact transfer_reservation h _
  | _ => exact (effect_of_next e).reservation_eq rfl ⟨nofun, nofun⟩

/-! ## The rule of load-reserved (R217 to R219) -/

section Rules

variable {x : XLen} {h : Hart x.width} {i : Instr} {rd : RegNum} {a : BitVec x.width} {sz : ReservedSize}

/-- An instruction that is a load-reserved of `sz` at `a` obeys the rule of `lr`, with `v` the value that the bytes widen to. -/
theorem lrBehaves_of_loadReserved {ext : BitVec (8 * sz.bytes) → BitVec x.width} {v : BitVec x.width}
    (e : exec i ⟨x, h⟩ = .next ⟨x, h.loadReserved rd a sz ext⟩) (value : ext (h.readValue a sz.bytes) = v) :
    LrBehaves x h i rd a sz v := by
  rcases loadReserved_cases h rd a sz ext with ⟨misaligned, lr⟩ | ⟨aligned, denied, lr⟩ | ⟨aligned, granted, lr⟩ <;>
    rw [lr] at e
  · exact ⟨fun ok => absurd ok.1 misaligned, fun _ => e, fun fault => absurd fault.1 misaligned⟩
  · exact ⟨fun ok => absurd ok.2 denied, fun misaligned => absurd aligned misaligned, fun _ => e⟩
  · have reserves : Reserves x h i rd a sz v :=
      ⟨_, e, fun r => by simp [value], by simp, by simp, ⟨by simp, by simp⟩, ⟨by simp, by simp, by simp⟩, by simp⟩
    exact ⟨fun _ => reserves, fun misaligned => absurd aligned misaligned, fun fault => absurd granted fault.2⟩

/-! ## The rule of store-conditional (R217, R220, R221) -/

/-- A store-conditional that passes its checks and does not succeed fails (R220). -/
theorem scFails_of_storeConditional {v : BitVec x.width} (e : exec i ⟨x, h⟩ = .next ⟨x, h.storeConditional rd a sz v⟩)
    (aligned : a.toNat % sz.bytes = 0) (granted : Permitted h .write a sz.bytes) (fails : h.scSucceeds a sz = false) :
    ScFails x h i rd := by
  rcases storeConditional_cases h rd a sz v with ⟨misaligned, -⟩ | ⟨-, denied, -⟩ | ⟨-, -, succeeds, -⟩ | ⟨-, -, -, sc⟩
  · exact absurd aligned misaligned
  · exact absurd granted denied
  · exact absurd succeeds (by simp [fails])
  · rw [sc] at e
    exact ⟨_, e, fun r => by simp, by simp, by simp, ⟨by simp, by simp⟩, ⟨by simp, by simp, by simp⟩⟩

/-- An instruction that ends as a store-conditional that succeeds stores the bytes, gives 0 and drops the reservation (R220). -/
theorem scStores_of_writeValue {v : BitVec x.width} {taken : Bool} (hm : h.mem.wf)
    (e : exec i ⟨x, h⟩ = .next ⟨x,
      (((h.countDraw taken).setReservation none).writeValue a sz.bytes (v.setWidth (8 * sz.bytes))).writeNext rd 0⟩) :
    ScStores x h i rd a sz.bytes v := by
  have space : sz.bytes ≤ 2 ^ x.width := by cases x <;> cases sz <;> decide
  have stored := writeValue_stored hm a space v
  exact ⟨_, e, fun r => by simp, by simp, by simp, stored.congr rfl rfl (by simp) (by simp), ⟨by simp, by simp, by simp⟩⟩

/-- With no reservation a store-conditional does not succeed (R220). -/
theorem scSucceeds_of_none (unreserved : h.reservation = none) : h.scSucceeds a sz = false := by
  simp [Hart.scSucceeds, unreserved]

/-- With a matching reservation and no spurious failures a store-conditional succeeds (R220). -/
theorem scSucceeds_of_match (reserved : h.reservation = some { addr := a, size := sz })
    (reliable : h.platform.scMayFail = false) : h.scSucceeds a sz = true := by
  simp [Hart.scSucceeds, reserved, reliable]

/-- An instruction that is a store-conditional of `sz` at `a` obeys the rule of `sc`. -/
theorem scBehaves_of_storeConditional {v : BitVec x.width} (hm : h.mem.wf)
    (e : exec i ⟨x, h⟩ = .next ⟨x, h.storeConditional rd a sz v⟩) : ScBehaves x h i rd a sz v := by
  rcases storeConditional_cases h rd a sz v with
    ⟨misaligned, sc⟩ | ⟨aligned, denied, sc⟩ | ⟨aligned, granted, succeeds, sc⟩ | ⟨aligned, granted, fails, -⟩
  · rw [sc] at e
    exact ⟨fun _ => e, fun fault => absurd fault.1 misaligned, fun ok => absurd ok.1 misaligned⟩
  · rw [sc] at e
    exact ⟨fun misaligned => absurd aligned misaligned, fun _ => e, fun ok => absurd ok.2 denied⟩
  · rw [sc] at e
    have stores := scStores_of_writeValue hm e
    exact ⟨fun misaligned => absurd aligned misaligned, fun fault => absurd granted fault.2, fun _ =>
      ⟨fun unreserved => absurd succeeds (by simp [scSucceeds_of_none unreserved]), fun _ => stores, .inl stores⟩⟩
  · have failed := scFails_of_storeConditional e aligned granted fails
    exact ⟨fun misaligned => absurd aligned misaligned, fun fault => absurd granted fault.2, fun _ =>
      ⟨fun _ => failed, fun ok => absurd fails (by simp [scSucceeds_of_match ok.1 ok.2]), .inr failed⟩⟩

end Rules

/-! ## The instructions -/

/-- Settles O43: `lr.w` and `lr.d` are the load-reserved of their width, and widening keeps the number of the bytes. -/
theorem loadReservedResults : Obligations.LoadReservedResults := by
  refine ⟨fun x => ⟨decodesAs_of_row "lr.w" (mem_bothWidths x), fun h rd rs1 aq rl =>
      lrBehaves_of_loadReserved rfl (readValue_signExtend h (h.reg rs1) (by decide) x.width)⟩,
    fun _ _ => decode_lr_rs2_illegal, illegalAs_of_wide_row (by decide),
    decodesAs_of_row "lr.d" (List.mem_singleton_self _), fun h rd rs1 aq rl =>
      lrBehaves_of_loadReserved rfl (readValue_zeroExtend h (h.reg rs1) 8 64)⟩

/-- Settles O44: `sc.w` and `sc.d` are the store-conditional of their width. -/
theorem storeConditionalResults : Obligations.StoreConditionalResults :=
  ⟨fun x => ⟨decodesAs_of_row "sc.w" (mem_bothWidths x), fun _ _ _ _ _ _ hm => scBehaves_of_storeConditional hm rfl⟩,
    illegalAs_of_wide_row (by decide), decodesAs_of_row "sc.d" (List.mem_singleton_self _),
    fun _ _ _ _ _ _ hm => scBehaves_of_storeConditional hm rfl⟩

/-- Settles O46: the first `sc` has cleared the reservation (O26), and without one an `sc` fails. -/
theorem secondStoreConditionalFails : Obligations.SecondStoreConditionalFails := by
  intro x h h' rd a b rd' a' b' aq rl aq' rl' running e completes aligned granted
  have cleared : h'.reservation = none := (reservationLife.2 x _ h h' running e).2 completes
  exact scFails_of_storeConditional rfl aligned granted (scSucceeds_of_none cleared)

/-- Settles O47: the `lr` has passed the alignment check and `sw` keeps the reservation that it has set, so the `sc` passes its
checks and meets a matching reservation (O44). -/
theorem storeConditionalAfterLoadReserved : Obligations.StoreConditionalAfterLoadReserved := by
  intro x h h1 h2 rd a aq rl base src imm rd' a' b' aq' rl' running hm reliable lr completes sw completes' address granted
  have lrEffect := effect_of_next lr
  have swEffect := effect_of_next sw
  have platform : h2.platform = h.platform := swEffect.platform_eq.trans lrEffect.platform_eq
  have kept : h2.reservation = h1.reservation := swEffect.reservation_eq rfl ⟨nofun, nofun⟩
  have ⟨aligned, reserved⟩ : (h.reg a).toNat % 4 = 0 ∧ h1.reservation = some { addr := h.reg a, size := .word } := by
    cases lr
    exact loadReserved_completes completes
  obtain ⟨-, -, passed⟩ := (storeConditionalResults.1 x).2 h2 rd' a' b' aq' rl' (swEffect.mem_wf (lrEffect.mem_wf hm))
  rw [address] at passed
  exact (passed ⟨aligned, granted.of_platform_eq platform⟩).2.1 ⟨kept.trans reserved, platform ▸ reliable⟩

end Sys2Proof.Machine
end

section
/-! RV64I loads, stores and word arithmetic (R235 to R251): the word convention of R236 by exact arithmetic modulo `2^32`, the
words with a shift amount too wide, and the rows of `XLEN = 64` only. -/

namespace Sys2Proof

/-! ## Word shifts with bit 25 set (R103, R112) -/

section ShiftAmounts

variable {v : InstWord}

/-- The word shifts fix every bit above a 5-bit amount: with bit 25 set a word is none of them (R103, R246 to R248). -/
theorem decodeShiftW_bit25 (bit : v.getLsbD 25 = true) : decodeShiftW v = none := by
  have odd : (funct7Of v).getLsbD 0 = true := by simpa [funct7Of] using bit
  unfold decodeShiftW
  split
  case h_4 => rfl
  all_goals
    next even =>
      rw [even] at odd
      cases odd

/-- A word of opcode `0011011` that is not `addiw` is a word shift or illegal (R107). -/
theorem decodeOpImm32_shift (f3 : funct3Of v ≠ 0#3) : decodeOpImm32 .rv64 v = decodeShiftW v := by
  unfold decodeOpImm32
  split
  case h_1 width => cases width
  case h_2 =>
    split
    case h_1 addiw => exact absurd addiw f3
    case h_2 => rfl

/-- A word of the word shift-immediates with bit 25 set is illegal (R103, R112). -/
theorem decode_shiftW_bit25_illegal (bit : v.getLsbD 25 = true)
    (shift : v &&& 0x0000707F#32 = 0x0000101B#32 ∨ v &&& 0x0000707F#32 = 0x0000501B#32) :
    decode .rv64 v = .error (.illegal v) := by
  have fields : opcodeOf v = 0x1B#7 ∧ funct3Of v ≠ 0#3 := by
    rcases shift with e | e
    · exact ⟨opcodeOf_of_match e rfl rfl, by rw [funct3Of_of_match e rfl rfl]; decide⟩
    · exact ⟨opcodeOf_of_match e rfl rfl, by rw [funct3Of_of_match e rfl rfl]; decide⟩
  obtain ⟨op, f3⟩ := fields
  rw [decode_eq_illegal_iff, decodeWord?_opImm32 op, decodeOpImm32_shift f3, decodeShiftW_bit25 bit]

end ShiftAmounts

namespace Machine

/-! ## Loads and stores -/

/-- Settles O36: `lwu` and `ld` are the common sequence of R161, and widening by zeros keeps the number of the bytes. -/
theorem rv64LoadResults : Obligations.Rv64LoadResults := by
  have wide : XLen.rv64 ∈ [XLen.rv64] := List.mem_singleton_self _
  refine ⟨decodesAs_of_row "lwu" wide, decodesAs_of_row "ld" wide, fun h rd rs1 imm => ?_⟩
  have unsigned (n : Nat) := readValue_zeroExtend h (h.effAddr rs1 imm) n 64
  exact ⟨loadBehaves_of_load rfl (unsigned 4), loadBehaves_of_load rfl (unsigned 8)⟩

/-- Settles O38: `sd` is the common sequence of R161 with all eight bytes of `x[rs2]`. -/
theorem doubleStoreResult : Obligations.DoubleStoreResult :=
  ⟨decodesAs_of_row "sd" (List.mem_singleton_self _), fun _ _ _ _ hm => storeBehaves_of_store hm (Nat.le_refl 8) rfl⟩

/-! ## The word convention (R236) -/

section Words

variable (a b : BitVec 64) (k : Nat)

theorem lowWord_eq_ofNat : lowWord a = BitVec.ofNat 32 a.toNat := (BitVec.ofNat_toNat 32 a).symm

theorem lowWord_toNat : (lowWord a).toNat = a.toNat % 2 ^ 32 := BitVec.toNat_setWidth 32 a

/-- Reducing modulo `2^64` first does not matter modulo `2^32`. -/
theorem lowWord_ofInt (z : Int) : lowWord (BitVec.ofInt 64 z) = BitVec.ofInt 32 z := by
  apply BitVec.eq_of_toNat_eq
  rw [lowWord_toNat, BitVec.toNat_ofInt, BitVec.toNat_ofInt]
  omega

/-- The low words add to the exact sum modulo `2^32`: a carry out of bit 31 is lost (R237). -/
theorem lowWord_add_lowWord : lowWord a + lowWord b = BitVec.ofNat 32 (a.toNat + b.toNat) := by
  rw [lowWord_eq_ofNat, lowWord_eq_ofNat, BitVec.ofNat_add]

/-- The low words subtract to the exact difference modulo `2^32` (R238). -/
theorem lowWord_sub_lowWord : lowWord a - lowWord b = BitVec.ofInt 32 (a.toNat - b.toNat) := by
  rw [lowWord_eq_ofNat, lowWord_eq_ofNat, Int.sub_eq_add_neg, BitVec.ofInt_add, BitVec.ofInt_neg, BitVec.ofInt_natCast,
    BitVec.ofInt_natCast, BitVec.sub_eq_add_neg]

/-- The low word of a sum with an immediate is the exact sum modulo `2^32` (R245). -/
theorem lowWord_add_imm12 (imm : BitVec 12) : lowWord (a + imm12 imm) = BitVec.ofInt 32 (a.toNat + imm.toInt) := by
  rw [add_imm12_eq_ofInt_add, lowWord_ofInt]

/-- A low word shifted left is the exact product modulo `2^32` (R239, R246). -/
theorem lowWord_shiftLeft : lowWord a <<< k = BitVec.ofNat 32 (a.toNat * 2 ^ k) := by
  apply BitVec.eq_of_toNat_eq
  rw [shiftLeft_eq_ofNat_mul, lowWord_toNat, BitVec.toNat_ofNat, BitVec.toNat_ofNat, Nat.mod_mul_mod]

/-- A low word shifted right is the floored quotient of its unsigned value (R240, R247). -/
theorem lowWord_ushiftRight : lowWord a >>> k = BitVec.ofNat 32 (a.toNat % 2 ^ 32 / 2 ^ k) := by
  rw [ushiftRight_eq_ofNat_div, lowWord_toNat]

/-- A low word shifted right with copies of bit 31 has the floored quotient of its signed value (R241, R248). -/
theorem toInt_lowWord_sshiftRight : ((lowWord a).sshiftRight k).toInt = (BitVec.ofNat 32 a.toNat).toInt / 2 ^ k := by
  rw [BitVec.toInt_sshiftRight, Int.shiftRight_eq_div_pow, lowWord_eq_ofNat, Nat.cast_pow, Nat.cast_ofNat]

/-- The amount of a word shift is the value of the register modulo 32 (R236). -/
theorem shiftAmount_lowWord : shiftAmount (lowWord b) = b.toNat % 32 := by
  have fiveBits : shiftAmount (lowWord b) = (lowWord b).toNat % 32 := rfl
  rw [fiveBits, lowWord_toNat, Nat.mod_mod_of_dvd _ (by decide)]

theorem shiftLeft_lowWord :
    shiftLeft (lowWord a) (lowWord b) = BitVec.ofNat 32 (a.toNat * 2 ^ (b.toNat % 32)) := by
  rw [shiftLeft, shiftAmount_lowWord, lowWord_shiftLeft]

theorem shiftRightLogical_lowWord :
    shiftRightLogical (lowWord a) (lowWord b) = BitVec.ofNat 32 (a.toNat % 2 ^ 32 / 2 ^ (b.toNat % 32)) := by
  rw [shiftRightLogical, shiftAmount_lowWord, lowWord_ushiftRight]

theorem toInt_shiftRightArith_lowWord :
    (shiftRightArith (lowWord a) (lowWord b)).toInt = (BitVec.ofNat 32 a.toNat).toInt / 2 ^ (b.toNat % 32) := by
  rw [shiftRightArith, shiftAmount_lowWord, toInt_lowWord_sshiftRight]

end Words

/-- An instruction that ends in writing a sign-extended word writes the signed value of the word modulo `2^64` (R236). -/
theorem writesReg_of_sextWord {h : Hart XLen.rv64.width} {i : Instr} {rd : RegNum} {v : BitVec 32} {z : Int}
    (e : exec i ⟨.rv64, h⟩ = .next ⟨.rv64, h.writeNext rd (sextWord v)⟩) (value : v.toInt = z) :
    WritesReg .rv64 h i rd (BitVec.ofInt 64 z) := by
  subst value
  exact writesReg_of_writeNext e

/-! ## The word instructions -/

/-- Settles O48: each instruction widens the result of the low words, which is exact modulo `2^32`. -/
theorem wordRegisterResults : Obligations.WordRegisterResults := by
  have wide : XLen.rv64 ∈ [XLen.rv64] := List.mem_singleton_self _
  refine ⟨decodesAs_of_row "addw" wide, decodesAs_of_row "subw" wide, decodesAs_of_row "sllw" wide,
    decodesAs_of_row "srlw" wide, decodesAs_of_row "sraw" wide, fun h rd rs1 rs2 => ?_⟩
  exact ⟨writesReg_of_sextWord rfl (congrArg _ (lowWord_add_lowWord ..)),
    writesReg_of_sextWord rfl (congrArg _ (lowWord_sub_lowWord ..)),
    writesReg_of_sextWord rfl (congrArg _ (shiftLeft_lowWord ..)),
    writesReg_of_sextWord rfl (congrArg _ (shiftRightLogical_lowWord ..)),
    writesReg_of_sextWord rfl (toInt_shiftRightArith_lowWord ..)⟩

/-- Settles O49: the rows, the words with a shift amount too wide, and the result of the low word, exact modulo `2^32`. -/
theorem wordImmediateResults : Obligations.WordImmediateResults := by
  have wide : XLen.rv64 ∈ [XLen.rv64] := List.mem_singleton_self _
  refine ⟨decodesAs_of_row "addiw" wide, decodesAs_of_row "slliw" wide, decodesAs_of_row "srliw" wide,
    decodesAs_of_row "sraiw" wide, fun _ => decode_shiftW_bit25_illegal, fun h rd rs1 imm shamt => ?_⟩
  exact ⟨writesReg_of_sextWord rfl (congrArg _ (lowWord_add_imm12 ..)),
    writesReg_of_sextWord rfl (congrArg _ (lowWord_shiftLeft ..)),
    writesReg_of_sextWord rfl (congrArg _ (lowWord_ushiftRight ..)),
    writesReg_of_sextWord rfl (toInt_lowWord_sshiftRight ..)⟩

end Machine
end Sys2Proof
end

section
/-! Multiplication and division (R260 to R274): the high half of a product as a floor, the table of division (R261) against
the quotients and remainders of integer arithmetic, and the rows. -/

namespace Sys2Proof.Machine

/-! ## The high half of a product (R263 to R265) -/

section Products

/-- What a number leaves modulo `m * m` has the same quotient by `m`, modulo `m`. -/
theorem emod_mul_self_ediv_emod {m : Int} (nonzero : m ≠ 0) (p : Int) : p % (m * m) / m % m = p / m % m := by
  rw [Int.emod_def p, mul_assoc, Int.sub_mul_ediv_left _ _ nonzero, Int.sub_mul_emod_self_left]

/-- Bits `2w-1` to `w` of a product are its floor by `2^w`, modulo `2^w`. -/
theorem highHalf_eq_ofInt_ediv (w : Nat) (p : Int) : (highHalf p : BitVec w) = BitVec.ofInt w (p / 2 ^ w) := by
  have square : (2 : Int) ^ (2 * w) = 2 ^ w * 2 ^ w := by rw [two_mul, pow_add]
  have nonzero (n : Nat) : (2 : Int) ^ n ≠ 0 := pow_ne_zero n two_ne_zero
  apply BitVec.eq_of_toNat_eq
  zify
  rw [highHalf, BitVec.extractLsb'_toNat, BitVec.toNat_ofInt, BitVec.toNat_ofInt, Nat.shiftRight_eq_div_pow]
  push_cast
  rw [Int.toNat_of_nonneg (Int.emod_nonneg _ (nonzero _)), Int.toNat_of_nonneg (Int.emod_nonneg _ (nonzero _)), square,
    emod_mul_self_ediv_emod (nonzero w)]

variable {w : Nat} (a b : BitVec w)

/-- The low half does not depend on the signs of the sources (R262). -/
theorem mul_eq_ofInt_mul : a * b = BitVec.ofInt w (a.toInt * b.toInt) := by
  rw [BitVec.ofInt_mul, BitVec.ofInt_toInt, BitVec.ofInt_toInt]

theorem mulHigh_eq_ofInt : mulHigh a b = BitVec.ofInt w (a.toInt * b.toInt / 2 ^ w) := highHalf_eq_ofInt_ediv ..

theorem mulHighUnsigned_eq_ofNat : mulHighUnsigned a b = BitVec.ofNat w (a.toNat * b.toNat / 2 ^ w) := by
  rw [mulHighUnsigned, highHalf_eq_ofInt_ediv, ← BitVec.ofInt_natCast]
  push_cast
  rfl

theorem mulHighSignedUnsigned_eq_ofInt : mulHighSignedUnsigned a b = BitVec.ofInt w (a.toInt * b.toNat / 2 ^ w) :=
  highHalf_eq_ofInt_ediv ..

end Products

/-! ## The table of division (R261), by the values of dividend and divisor -/

section Table

variable {w : Nat} {a b : BitVec w}

theorem toInt_allOnes_of_pos (positive : 0 < w) : (BitVec.allOnes w).toInt = -1 := BitVec.toInt_allOnes.trans (if_pos positive)

/-- The two operands whose signed quotient is out of range: the least dividend by -1. -/
theorem divOverflows_eq_true_iff (positive : 0 < w) :
    divOverflows a b = true ↔ a.toInt = -2 ^ (w - 1) ∧ b.toInt = -1 := by
  have least := BitVec.toInt_intMin_of_pos positive
  rw [divOverflows, Bool.and_eq_true, decide_eq_true_iff, decide_eq_true_iff, ← BitVec.toInt_inj, ← BitVec.toInt_inj, least,
    toInt_allOnes_of_pos positive]

theorem toNat_eq_zero_iff : b.toNat = 0 ↔ b = 0 := BitVec.toNat_inj (y := 0)

theorem allOnes_eq_ofNat (w : Nat) : BitVec.allOnes w = BitVec.ofNat w (2 ^ w - 1) := by
  rw [← BitVec.toNat_allOnes, BitVec.ofNat_toNat, BitVec.setWidth_eq]

variable (a b)

theorem quotSigned_eq_ite (positive : 0 < w) :
    quotSigned a b = if b.toNat = 0 then BitVec.ofNat w (2 ^ w - 1)
      else if a.toInt = -2 ^ (w - 1) ∧ b.toInt = -1 then a
      else BitVec.ofInt w (a.toInt.tdiv b.toInt) := by
  simp only [quotSigned, divOverflows_eq_true_iff positive, toNat_eq_zero_iff, allOnes_eq_ofNat]

theorem remSigned_eq_ite (positive : 0 < w) :
    remSigned a b = if b.toNat = 0 then a
      else if a.toInt = -2 ^ (w - 1) ∧ b.toInt = -1 then 0
      else BitVec.ofInt w (a.toInt - b.toInt * a.toInt.tdiv b.toInt) := by
  simp only [remSigned, divOverflows_eq_true_iff positive, toNat_eq_zero_iff]

theorem quotUnsigned_eq_ite :
    quotUnsigned a b = if b.toNat = 0 then BitVec.ofNat w (2 ^ w - 1) else BitVec.ofNat w (a.toNat / b.toNat) := by
  simp only [quotUnsigned, toNat_eq_zero_iff, allOnes_eq_ofNat]

theorem remUnsigned_eq_ite : remUnsigned a b = if b.toNat = 0 then a else BitVec.ofNat w (a.toNat % b.toNat) := by
  simp only [remUnsigned, toNat_eq_zero_iff]

end Table

/-! ## The division functions as quotients and remainders of integer arithmetic (R261, R266 to R269) -/

section Division

variable {w : Nat} {a b : BitVec w}

theorem ofNat_toNat_div_toNat : BitVec.ofNat w (a.toNat / b.toNat) = a / b := by
  rw [← BitVec.toNat_udiv, BitVec.ofNat_toNat, BitVec.setWidth_eq]

theorem ofNat_toNat_mod_toNat : BitVec.ofNat w (a.toNat % b.toNat) = a % b := by
  rw [← BitVec.toNat_umod, BitVec.ofNat_toNat, BitVec.setWidth_eq]

theorem quotUnsigned_eq_udiv (nonzero : b ≠ 0) : quotUnsigned a b = a / b := by
  rw [quotUnsigned, if_neg nonzero, ofNat_toNat_div_toNat]

/-- The remainder by zero is that of the natural numbers: the dividend. -/
theorem remUnsigned_eq_umod (a b : BitVec w) : remUnsigned a b = a % b := by
  unfold remUnsigned
  split
  · next zero => rw [zero]; exact BitVec.umod_zero.symm
  · exact ofNat_toNat_mod_toNat

/-- The value of the signed overflow is the quotient modulo `2^w`, so only a zero divisor stands apart. -/
theorem quotSigned_eq_sdiv (nonzero : b ≠ 0) : quotSigned a b = a.sdiv b := by
  rw [quotSigned, if_neg nonzero]
  split
  · next overflow =>
    obtain ⟨least, ones⟩ := Bool.and_eq_true_iff.mp overflow
    rw [of_decide_eq_true least, of_decide_eq_true ones, ← BitVec.neg_one_eq_allOnes, BitVec.intMin_sdiv_neg_one]
  · apply BitVec.eq_of_toInt_eq
    rw [BitVec.toInt_ofInt, BitVec.toInt_sdiv]

/-- A remainder is never reduced. -/
theorem toInt_remSigned_ite (positive : 0 < w) (a b : BitVec w) :
    (remSigned a b).toInt = if b.toNat = 0 then a.toInt
      else if a.toInt = -2 ^ (w - 1) ∧ b.toInt = -1 then 0
      else a.toInt - b.toInt * a.toInt.tdiv b.toInt := by
  rw [remSigned_eq_ite a b positive, apply_ite BitVec.toInt, apply_ite BitVec.toInt, BitVec.ofNat_eq_ofNat,
    BitVec.toInt_zero, ← Int.tmod_def, ← BitVec.toInt_srem, BitVec.ofInt_toInt]

/-- The values for a zero divisor and for the signed overflow are those of the remainder of the integers. -/
theorem remSigned_eq_srem (positive : 0 < w) (a b : BitVec w) : remSigned a b = a.srem b := by
  apply BitVec.eq_of_toInt_eq
  rw [toInt_remSigned_ite positive, BitVec.toInt_srem]
  split
  · next zero => rw [toNat_eq_zero_iff.mp zero, BitVec.ofNat_eq_ofNat, BitVec.toInt_zero, Int.tmod_zero]
  · split
    · next overflow => rw [overflow.2, Int.tmod_neg, Int.tmod_one]
    · exact (Int.tmod_def ..).symm

theorem toInt_remSigned (positive : 0 < w) (a b : BitVec w) : (remSigned a b).toInt = a.toInt.tmod b.toInt := by
  rw [remSigned_eq_srem positive, BitVec.toInt_srem]

/-- Where the quotient is in range it is not reduced. -/
theorem toInt_quotSigned (positive : 0 < w) (nonzero : b ≠ 0) (inRange : ¬ (a.toInt = -2 ^ (w - 1) ∧ b.toInt = -1)) :
    (quotSigned a b).toInt = a.toInt.tdiv b.toInt := by
  rw [quotSigned_eq_sdiv nonzero]
  apply BitVec.toInt_sdiv_of_ne_or_ne
  rw [BitVec.neg_one_eq_allOnes]
  by_contra! both
  exact inRange ((divOverflows_eq_true_iff positive).mp (by simp [divOverflows, both]))

theorem toInt_quotSigned_ite (positive : 0 < w) (a b : BitVec w) :
    (quotSigned a b).toInt = if b.toNat = 0 then -1
      else if a.toInt = -2 ^ (w - 1) ∧ b.toInt = -1 then -2 ^ (w - 1)
      else a.toInt.tdiv b.toInt := by
  split
  · next zero => rw [quotSigned, if_pos (toNat_eq_zero_iff.mp zero), toInt_allOnes_of_pos positive]
  · next nonzero =>
    split
    · next overflow => rw [quotSigned_eq_ite a b positive, if_neg nonzero, if_pos overflow, overflow.1]
    · next inRange => exact toInt_quotSigned positive (mt toNat_eq_zero_iff.mpr nonzero) inRange

theorem toInt_quotUnsigned_ite (positive : 0 < w) (a b : BitVec w) :
    (quotUnsigned a b).toInt = if b.toNat = 0 then -1 else (BitVec.ofNat w (a.toNat / b.toNat)).toInt := by
  rw [quotUnsigned_eq_ite, apply_ite BitVec.toInt, ← allOnes_eq_ofNat, toInt_allOnes_of_pos positive]

theorem toInt_remUnsigned_ite (a b : BitVec w) :
    (remUnsigned a b).toInt = if b.toNat = 0 then a.toInt else (BitVec.ofNat w (a.toNat % b.toNat)).toInt := by
  rw [remUnsigned_eq_ite, apply_ite BitVec.toInt]

theorem mul_sdiv_add_srem (a b : BitVec w) : b * a.sdiv b + a.srem b = a := by
  have quotient : a.sdiv b = BitVec.ofInt w (a.toInt.tdiv b.toInt) := BitVec.eq_of_toInt_eq (by simp [BitVec.toInt_sdiv])
  have remainder : a.srem b = BitVec.ofInt w (a.toInt.tmod b.toInt) := by rw [← BitVec.toInt_srem, BitVec.ofInt_toInt]
  calc b * a.sdiv b + a.srem b
    _ = BitVec.ofInt w (b.toInt * a.toInt.tdiv b.toInt + a.toInt.tmod b.toInt) := by
      rw [quotient, remainder, BitVec.ofInt_add, BitVec.ofInt_mul, BitVec.ofInt_toInt]
    _ = a := by rw [Int.mul_tdiv_add_tmod, BitVec.ofInt_toInt]

theorem mul_udiv_add_umod (a b : BitVec w) : b * (a / b) + a % b = a := by
  calc b * (a / b) + a % b
    _ = BitVec.ofNat w (b.toNat * (a.toNat / b.toNat) + a.toNat % b.toNat) := by
      rw [BitVec.ofNat_add, BitVec.ofNat_mul, ofNat_toNat_div_toNat, ofNat_toNat_mod_toNat, BitVec.ofNat_toNat,
        BitVec.setWidth_eq]
    _ = a := by rw [Nat.div_add_mod, BitVec.ofNat_toNat, BitVec.setWidth_eq]

/-- The last sentence of R261, signed. -/
theorem mul_quotSigned_add_remSigned (positive : 0 < w) (a b : BitVec w) : b * quotSigned a b + remSigned a b = a := by
  by_cases zero : b = 0
  · rw [remSigned, if_pos zero, zero, BitVec.ofNat_eq_ofNat, BitVec.zero_mul, BitVec.zero_add]
  · rw [quotSigned_eq_sdiv zero, remSigned_eq_srem positive, mul_sdiv_add_srem]

/-- The last sentence of R261, unsigned. -/
theorem mul_quotUnsigned_add_remUnsigned (a b : BitVec w) : b * quotUnsigned a b + remUnsigned a b = a := by
  by_cases zero : b = 0
  · rw [remUnsigned, if_pos zero, zero, BitVec.ofNat_eq_ofNat, BitVec.zero_mul, BitVec.zero_add]
  · rw [quotUnsigned_eq_udiv zero, remUnsigned_eq_umod, mul_udiv_add_umod]

/-! The rows of the table, then what the remaining operands give. -/

theorem zeroDivisor_results (zero : b.toNat = 0) :
    quotSigned a b = BitVec.ofInt w (-1) ∧ remSigned a b = a ∧ (quotUnsigned a b).toNat = 2 ^ w - 1 ∧
      remUnsigned a b = a := by
  have ones : BitVec.allOnes w = BitVec.ofInt w (-1) := by
    rw [← BitVec.neg_one_eq_allOnes, BitVec.ofInt_neg, BitVec.ofInt_ofNat]
  have isZero := toNat_eq_zero_iff.mp zero
  rw [quotSigned, remSigned, quotUnsigned, remUnsigned, if_pos isZero, if_pos isZero, if_pos isZero, if_pos isZero]
  exact ⟨ones, rfl, BitVec.toNat_allOnes, rfl⟩

theorem overflow_results (positive : 0 < w) (overflow : a.toInt = -2 ^ (w - 1) ∧ b.toInt = -1) :
    quotSigned a b = a ∧ remSigned a b = 0 := by
  have nonzero : b.toNat ≠ 0 := by
    intro zero
    rw [toNat_eq_zero_iff.mp zero, BitVec.ofNat_eq_ofNat, BitVec.toInt_zero] at overflow
    exact absurd overflow.2 (by decide)
  rw [quotSigned_eq_ite a b positive, remSigned_eq_ite a b positive, if_neg nonzero, if_neg nonzero, if_pos overflow,
    if_pos overflow]
  exact ⟨rfl, rfl⟩

/-- A remainder is smaller than the divisor and never of the sign opposite to the dividend's. -/
theorem tmod_bounds {n d : Int} (nonzero : d ≠ 0) :
    (n.tmod d).natAbs < d.natAbs ∧ (0 ≤ n → 0 ≤ n.tmod d) ∧ (n ≤ 0 → n.tmod d ≤ 0) := by
  refine ⟨?_, Int.tmod_nonneg d, fun nonpos => ?_⟩
  · rw [Int.natAbs_tmod]
    exact Nat.mod_lt _ (Int.natAbs_pos.mpr nonzero)
  · have opposite := Int.tmod_nonneg d (Int.neg_nonneg.mpr nonpos)
    rwa [Int.neg_tmod, Int.neg_nonneg] at opposite

theorem unsigned_results (nonzero : b.toNat ≠ 0) :
    (quotUnsigned a b).toNat = a.toNat / b.toNat ∧ (remUnsigned a b).toNat = a.toNat % b.toNat := by
  rw [quotUnsigned_eq_udiv (mt toNat_eq_zero_iff.mpr nonzero), remUnsigned_eq_umod]
  exact ⟨BitVec.toNat_udiv, BitVec.toNat_umod⟩

end Division

/-! ## The instructions -/

theorem width_pos (x : XLen) : 0 < x.width := by
  cases x <;> decide

/-- Settles O50: the low half is the product modulo `2^XLEN`, and each high half a floor of the exact product. -/
theorem multiplyResults : Obligations.MultiplyResults := by
  intro x
  have both := mem_bothWidths x
  refine ⟨decodesAs_of_row "mul" both, decodesAs_of_row "mulh" both, decodesAs_of_row "mulhu" both,
    decodesAs_of_row "mulhsu" both, fun h rd rs1 rs2 => ?_⟩
  rw [← mul_eq_ofInt_mul, ← mulHigh_eq_ofInt, ← mulHighUnsigned_eq_ofNat, ← mulHighSignedUnsigned_eq_ofInt]
  exact ⟨writesReg_of_writeNext rfl, writesReg_of_writeNext rfl, writesReg_of_writeNext rfl, writesReg_of_writeNext rfl⟩

/-- Settles O51: each instruction writes the entry of the table, whatever the operands. -/
theorem divideResults : Obligations.DivideResults := by
  intro x
  have both := mem_bothWidths x
  refine ⟨decodesAs_of_row "div" both, decodesAs_of_row "divu" both, decodesAs_of_row "rem" both,
    decodesAs_of_row "remu" both, fun h rd rs1 rs2 => ?_⟩
  rw [← quotSigned_eq_ite _ _ (width_pos x), ← quotUnsigned_eq_ite, ← remSigned_eq_ite _ _ (width_pos x),
    ← remUnsigned_eq_ite]
  exact ⟨writesReg_of_writeNext rfl, writesReg_of_writeNext rfl, writesReg_of_writeNext rfl, writesReg_of_writeNext rfl⟩

/-- An instruction that ends in writing a word result writes that of the low words `a` and `b`, sign-extended (R236). -/
theorem writesReg_of_wordResult {h : Hart XLen.rv64.width} {i : Instr} {rd rs1 rs2 : RegNum}
    {op : BitVec 32 → BitVec 32 → BitVec 32} {a b : BitVec 32}
    (e : exec i ⟨.rv64, h⟩ = .next ⟨.rv64, h.writeNext rd (wordResult op (h.reg rs1) (h.reg rs2))⟩)
    (left : a = BitVec.ofNat 32 (h.reg rs1).toNat) (right : b = BitVec.ofNat 32 (h.reg rs2).toNat) :
    WritesReg .rv64 h i rd (BitVec.ofInt 64 (op a b).toInt) := by
  have lowWords : op (lowWord (h.reg rs1)) (lowWord (h.reg rs2)) = op a b :=
    congrArg₂ op ((lowWord_eq_ofNat _).trans left.symm) ((lowWord_eq_ofNat _).trans right.symm)
  exact writesReg_of_sextWord e (congrArg BitVec.toInt lowWords)

/-- Settles O53: the rows of the table one by one, the signed division in range by the remainder of the integers, and the
word forms. -/
theorem divisionTable : Obligations.DivisionTable := by
  refine ⟨fun x a b => ?_, fun h rd rs1 rs2 a b left right =>
    ⟨writesReg_of_wordResult rfl left right, writesReg_of_wordResult rfl left right, writesReg_of_wordResult rfl left right,
      writesReg_of_wordResult rfl left right⟩⟩
  have positive := width_pos x
  refine ⟨zeroDivisor_results, overflow_results positive, fun ⟨nonzero, inRange⟩ => ?_, unsigned_results,
    (mul_quotSigned_add_remSigned positive a b).symm, (mul_quotUnsigned_add_remUnsigned a b).symm⟩
  have divisor : b ≠ 0 := mt toNat_eq_zero_iff.mpr nonzero
  have divisorInt : b.toInt ≠ 0 := fun e => divisor (BitVec.eq_of_toInt_eq (e.trans BitVec.toInt_zero.symm))
  rw [toInt_remSigned positive]
  exact ⟨toInt_quotSigned positive divisor inRange, Int.tmod_def .., tmod_bounds divisorInt⟩

/-- Settles O52: the low words multiply modulo `2^32`, and the word divisions have the values of the table. -/
theorem wordMultiplyDivideResults : Obligations.WordMultiplyDivideResults := by
  have wide : XLen.rv64 ∈ [XLen.rv64] := List.mem_singleton_self _
  have positive : 0 < 32 := by decide
  refine ⟨decodesAs_of_row "mulw" wide, decodesAs_of_row "divw" wide, decodesAs_of_row "divuw" wide,
    decodesAs_of_row "remw" wide, decodesAs_of_row "remuw" wide, fun h rd rs1 rs2 a b left right => ?_⟩
  rw [← mul_eq_ofInt_mul, ← toInt_quotUnsigned_ite positive, ← toInt_remUnsigned_ite]
  have divw := writesReg_of_wordResult (i := .divw rd rs1 rs2) (op := quotSigned) rfl left right
  have remw := writesReg_of_wordResult (i := .remw rd rs1 rs2) (op := remSigned) rfl left right
  rw [toInt_quotSigned_ite positive] at divw
  rw [toInt_remSigned_ite positive] at remw
  exact ⟨writesReg_of_wordResult rfl left right, divw, writesReg_of_wordResult rfl left right, remw,
    writesReg_of_wordResult rfl left right⟩

end Sys2Proof.Machine
end

section
/-! How a step ends (R300, R306, R310): it completes, or it raises a condition that the table of R300 allows and changes nothing else;
and a step that hands nothing to the environment is the same under every handler. -/

namespace Sys2Proof.Machine

/-! ## A step completes or raises (R300, R306) -/

section Ends

variable {x : XLen} {h h' : Hart x.width} {i : Instr}

/-- What a failing fetch answers stands in the table of R300 with `pc` as its payload (R70). -/
theorem raisedWhen_of_fetch_error {f : Fault} (failed : h.fetch = .error f) : RaisedWhen x h f := by
  rcases fetch_cases h with ⟨misaligned, e⟩ | ⟨aligned, denied, e⟩ | ⟨aligned, permitted, stored, e⟩ | ⟨-, -, -, e⟩ <;>
    rw [e] at failed <;> cases failed
  · exact ⟨misaligned, .inl rfl⟩
  · exact ⟨rfl, aligned, denied⟩
  · exact ⟨rfl, aligned, permitted, stored⟩

/-- The width has the row of the instruction that it executes, because that was decoded (O16). -/
theorem Executes.existsAt (executes : Executes x h i) : i.existsAt x = true := by
  obtain ⟨-, v, -, decoded⟩ := executes
  exact (Bool.and_eq_true_iff.mp (encodeOfDecode x v i decoded).1).1

/-- An executed instruction completes, or it raises a condition that the table of R300 allows it. -/
theorem Effect.completes_or_raises (e : Effect x h i h') (executes : Executes x h i) :
    h'.outcome = .running ∨ ∃ f, h' = h.raise f ∧ RaisedWhen x h f := by
  have running : h.outcome = .running := executes.1
  cases e with
  | wrote | stored | fell | branched | linked | reserved | scStored | scFailed | resumed =>
    exact .inl (by simpa using running)
  | called k call =>
    subst call
    cases k
    · exact .inr ⟨_, rfl, rfl, executes⟩
    · exact .inr ⟨_, rfl, rfl, executes⟩
  | targetMisaligned t target bad => exact .inr ⟨_, rfl, bad, .inr ⟨i, t, executes, target, rfl⟩⟩
  | loadMisaligned a n access bad split | storeMisaligned a n access bad split =>
    exact .inr ⟨_, rfl, i, a, n, executes, access, rfl, bad, split⟩
  | loadDenied a n access bad | storeDenied a n access bad =>
    exact .inr ⟨_, rfl, i, a, n, executes, access, rfl, bad⟩
  | absent row => exact absurd executes.existsAt (by simp [row])

/-- Settles O7: a failing fetch and a word without a row raise, and so may the effect of the instruction; no other step ends the
run. -/
theorem everyStepCompletesOrRaises : Obligations.EveryStepCompletesOrRaises := by
  intro x h running
  rcases step_cases x h with
    ⟨f, ended, -⟩ | ⟨-, f, failed, e⟩ | ⟨-, v, fetched, undecoded, e⟩ | ⟨-, v, i, fetched, decoded, e⟩
  · cases running.symm.trans ended
  · exact ⟨_, e, .inr ⟨f, rfl, raisedWhen_of_fetch_error failed⟩⟩
  · exact ⟨_, e, .inr ⟨_, rfl, fetched, unselected_of_decodeWord?_eq_none undecoded⟩⟩
  · obtain ⟨h', ends, effect⟩ := exec_effect x h i
    exact ⟨h', e.trans ends, effect.completes_or_raises ⟨running, v, fetched, decoded⟩⟩

/-- Of a hart whose run has ended no step gives a next state: it answers the condition (R306, assumption 6). -/
theorem step_of_raised {f : Fault} (ended : h.outcome = .raised f) : step ⟨x, h⟩ = .fault f := by
  simp only [step, ended]

/-- A step that ends the run changes the outcome alone (R306). -/
theorem eq_raise_of_step {f : Fault} (running : h.outcome = .running) (e : step ⟨x, h⟩ = .next ⟨x, h'⟩)
    (raises : h'.outcome = .raised f) : h' = h.raise f := by
  obtain ⟨g, q, completes | ⟨f', rfl, -⟩⟩ := everyStepCompletesOrRaises x h running <;> rw [q] at e <;> cases e
  · cases raises.symm.trans completes
  · cases raises
    rfl

end Ends

/-! ## The handler (R310): only a transfer to the environment reads it -/

/-- The hart with another handler. -/
def Hart.withHandler {w : Nat} (h : Hart w) (t : List (EnvRow w)) : Hart w := { h with handler := t }

section Handler

variable {w : Nat} (h : Hart w) (t : List (EnvRow w))

theorem Hart.setReservation_withHandler (r : Option (Reservation w)) :
    (h.withHandler t).setReservation r = (h.setReservation r).withHandler t := rfl

theorem Hart.writeValue_withHandler (a : BitVec w) (n : Nat) (v : BitVec (8 * n)) :
    (h.withHandler t).writeValue a n v = (h.writeValue a n v).withHandler t := rfl

theorem Hart.setReg_withHandler (rd : RegNum) (v : BitVec w) :
    (h.withHandler t).setReg rd v = (h.setReg rd v).withHandler t := by
  unfold Hart.setReg
  split <;> rfl

theorem Hart.countDraw_withHandler (taken : Bool) :
    (h.withHandler t).countDraw taken = (h.countDraw taken).withHandler t := by
  cases taken <;> rfl

theorem Hart.writeNext_withHandler (rd : RegNum) (v : BitVec w) :
    (h.withHandler t).writeNext rd v = (h.writeNext rd v).withHandler t :=
  congrArg Hart.advance (h.setReg_withHandler t rd v)

theorem Hart.shiftNext_withHandler (i : Instr) (rd : RegNum) (amount : Nat) (v : BitVec w) :
    (h.withHandler t).shiftNext i rd amount v = (h.shiftNext i rd amount v).withHandler t := by
  unfold Hart.shiftNext
  split
  · exact h.writeNext_withHandler t rd v
  · rfl

theorem Hart.load_withHandler (rd : RegNum) (a : BitVec w) (n : Nat) (ext : BitVec (8 * n) → BitVec w) :
    (h.withHandler t).load rd a n ext = (h.load rd a n ext).withHandler t := by
  have checks : (h.withHandler t).loadFault false a n = h.loadFault false a n := rfl
  unfold Hart.load
  rw [checks]
  split
  · rfl
  · exact h.writeNext_withHandler t rd _

theorem Hart.store_withHandler (a : BitVec w) (n : Nat) (v : BitVec w) :
    (h.withHandler t).store a n v = (h.store a n v).withHandler t := by
  have checks : (h.withHandler t).storeFault false a n = h.storeFault false a n := rfl
  unfold Hart.store
  rw [checks]
  split <;> rfl

theorem Hart.branch_withHandler (taken : Bool) (offset : BitVec 13) :
    (h.withHandler t).branch taken offset = (h.branch taken offset).withHandler t := by
  have target : (h.withHandler t).pc = h.pc := rfl
  unfold Hart.branch Hart.jumpTo
  rw [target]
  split
  · split <;> rfl
  · rfl

theorem Hart.jumpLink_withHandler (rd : RegNum) (target : BitVec w) :
    (h.withHandler t).jumpLink rd target = (h.jumpLink rd target).withHandler t := by
  unfold Hart.jumpLink
  split
  · exact congrArg (·.setPc target) (h.setReg_withHandler t rd _)
  · rfl

theorem Hart.loadReserved_withHandler (rd : RegNum) (a : BitVec w) (sz : ReservedSize)
    (ext : BitVec (8 * sz.bytes) → BitVec w) :
    (h.withHandler t).loadReserved rd a sz ext = (h.loadReserved rd a sz ext).withHandler t := by
  have checks : (h.withHandler t).loadFault true a sz.bytes = h.loadFault true a sz.bytes := rfl
  unfold Hart.loadReserved
  rw [checks]
  split
  · rfl
  · exact (h.setReservation _).writeNext_withHandler t rd _

theorem Hart.storeConditional_withHandler (rd : RegNum) (a : BitVec w) (sz : ReservedSize) (v : BitVec w) :
    (h.withHandler t).storeConditional rd a sz v = (h.storeConditional rd a sz v).withHandler t := by
  have checks : (h.withHandler t).storeFault true a sz.bytes = h.storeFault true a sz.bytes := rfl
  have choice : (h.withHandler t).scSucceeds a sz = h.scSucceeds a sz := rfl
  have draws : (h.withHandler t).scDraws a sz = h.scDraws a sz := rfl
  unfold Hart.storeConditional
  rw [checks, choice, draws]
  split
  · rfl
  · simp only [Hart.countDraw_withHandler, Hart.setReservation_withHandler, Hart.writeValue_withHandler,
      Hart.writeNext_withHandler]
    split <;> rfl

end Handler

section Instructions

variable {x : XLen} {i : Instr}

/-- With another handler `i` does the same and leaves that handler in place. -/
def HandlerIrrelevant (x : XLen) (i : Instr) : Prop :=
  ∀ (h : Hart x.width) (t : List (EnvRow x.width)), ∃ h', exec i ⟨x, h⟩ = .next ⟨x, h'⟩ ∧
    exec i ⟨x, h.withHandler t⟩ = .next ⟨x, h'.withHandler t⟩

/-- An instruction of both widths. -/
theorem handlerIrrelevant_onHart {f : Hart x.width → Hart x.width}
    (meaning : ∀ h : Hart x.width, exec i ⟨x, h⟩ = .next ⟨x, f h⟩)
    (commutes : ∀ h t, f (h.withHandler t) = (f h).withHandler t) : HandlerIrrelevant x i :=
  fun h t => ⟨f h, meaning h, by rw [meaning, commutes]⟩

/-- An instruction of `XLEN = 64` only: with `XLEN = 32` it raises under either handler. -/
theorem handlerIrrelevant_onHart64 {f : Hart 64 → Hart 64} (meaning : ∀ s, exec i s = s.onHart64 i f)
    (commutes : ∀ (h : Hart 64) t, f (h.withHandler t) = (f h).withHandler t) : HandlerIrrelevant x i := by
  cases x
  · exact fun h t => ⟨_, meaning _, meaning _⟩
  · exact handlerIrrelevant_onHart (fun _ => meaning _) commutes

/-- No instruction but `ecall` and `ebreak` reads the handler, by the shape of its meaning. -/
theorem exec_handlerIrrelevant (x : XLen) (notCall : i ≠ .ecall ∧ i ≠ .ebreak) : HandlerIrrelevant x i := by
  cases i with
  | add | sub | and | or | xor | sll | srl | sra | slt | sltu | mul | mulh | mulhu | mulhsu | div | divu | rem | remu
  | addi | andi | ori | xori | slti | sltiu | slli | srli | srai | lui | auipc =>
    exact handlerIrrelevant_onHart (fun _ => rfl) fun h t => h.writeNext_withHandler t _ _
  | slli64 | srli64 | srai64 =>
    exact handlerIrrelevant_onHart (fun _ => rfl) fun h t => h.shiftNext_withHandler t _ _ _ _
  | lb | lbu | lh | lhu | lw =>
    exact handlerIrrelevant_onHart (fun _ => rfl) fun h t => h.load_withHandler t _ _ _ _
  | sb | sh | sw => exact handlerIrrelevant_onHart (fun _ => rfl) fun h t => h.store_withHandler t _ _ _
  | beq | bne | blt | bltu | bge | bgeu =>
    exact handlerIrrelevant_onHart (fun _ => rfl) fun h t => h.branch_withHandler t _ _
  | jal | jalr => exact handlerIrrelevant_onHart (fun _ => rfl) fun h t => h.jumpLink_withHandler t _ _
  | lrw => exact handlerIrrelevant_onHart (fun _ => rfl) fun h t => h.loadReserved_withHandler t _ _ _ _
  | scw => exact handlerIrrelevant_onHart (fun _ => rfl) fun h t => h.storeConditional_withHandler t _ _ _ _
  | addw | subw | sllw | srlw | sraw | mulw | divw | divuw | remw | remuw | addiw | slliw | srliw | sraiw =>
    exact handlerIrrelevant_onHart64 (fun _ => rfl) fun h t => h.writeNext_withHandler t _ _
  | lwu | ld => exact handlerIrrelevant_onHart64 (fun _ => rfl) fun h t => h.load_withHandler t _ _ _ _
  | sd => exact handlerIrrelevant_onHart64 (fun _ => rfl) fun h t => h.store_withHandler t _ _ _
  | lrd => exact handlerIrrelevant_onHart64 (fun _ => rfl) fun h t => h.loadReserved_withHandler t _ _ _ _
  | scd => exact handlerIrrelevant_onHart64 (fun _ => rfl) fun h t => h.storeConditional_withHandler t _ _ _ _
  | ecall => exact absurd rfl notCall.1
  | ebreak => exact absurd rfl notCall.2

end Instructions

/-- A step that executes neither `ecall` nor `ebreak` is the same under every handler (R310). -/
theorem step_withHandler {x : XLen} {h h' : Hart x.width} (notCall : ¬ Executes x h .ecall ∧ ¬ Executes x h .ebreak)
    (e : step ⟨x, h⟩ = .next ⟨x, h'⟩) (t : List (EnvRow x.width)) :
    step ⟨x, h.withHandler t⟩ = .next ⟨x, h'.withHandler t⟩ := by
  rcases step_cases x h with
    ⟨f, -, q⟩ | ⟨running, f, failed, q⟩ | ⟨running, v, fetched, undecoded, q⟩ | ⟨running, v, i, fetched, decoded, q⟩ <;>
    rw [q] at e
  · cases e
  · cases e
    exact step_eq_raise_of_fetch running failed
  · cases e
    exact step_eq_raise_of_illegal running fetched (decode_eq_illegal_iff.mpr undecoded)
  · have executes : Executes x h i := ⟨running, v, fetched, decoded⟩
    obtain ⟨g, same, other⟩ := exec_handlerIrrelevant x
      ⟨fun call => notCall.1 (call ▸ executes), fun call => notCall.2 (call ▸ executes)⟩ h t
    rw [same] at e
    cases e
    exact (step_eq_exec (h := h.withHandler t) executes).trans other

/-- Settles O6: a step that raises leaves all but the outcome (O7), and the next step looks at the outcome first; what executes no
transfer does not read the handler. -/
theorem faultsAreTerminal : Obligations.FaultsAreTerminal :=
  fun _ _ _ running e =>
    ⟨fun _ raises => ⟨eq_raise_of_step running e raises, step_of_raised raises⟩, fun notCall => step_withHandler notCall e⟩

end Sys2Proof.Machine
end

section
/-! Runs (R311): a run goes on as long as no step has raised, and a handler may make it go on for ever (R310). -/

namespace Sys2Proof.Machine

/-- A run goes on from the state after its first step. -/
theorem run_succ_of_next {M : Host.Core} {n : Nat} {s t : M.State} (e : M.step s = .next t) :
    M.run (n + 1) s = M.run n t := by
  rw [Host.Core.run, e]

/-- A run ends with the fault of its first step. -/
theorem run_succ_of_fault {M : Host.Core} {n : Nat} {s : M.State} {f : M.Fault} (e : M.step s = .fault f) :
    M.run (n + 1) s = .fault f := by
  rw [Host.Core.run, e]

section Runs

variable {s t : State} {n : Nat}

/-- A run takes its first step and goes on from there. -/
theorem run_succ_of_step (e : step s = .next t) :
    Host.Core.run Sys2Proof.core (n + 1) s = Host.Core.run Sys2Proof.core n t :=
  run_succ_of_next (M := Sys2Proof.core) e

/-- A run of at least one step from an ended state answers its condition (assumption 6). -/
theorem run_succ_of_raised {f : Fault} (ended : s.hart.outcome = .raised f) :
    Host.Core.run Sys2Proof.core (n + 1) s = .fault f :=
  run_succ_of_fault (M := Sys2Proof.core) (step_of_raised ended)

/-- A running state before a run of running states. -/
theorem StillRunning.succ (running : s.hart.outcome = .running) (e : step s = .next t) (rest : StillRunning t n) :
    StillRunning s (n + 1) := by
  intro k hk
  cases k with
  | zero => exact ⟨s, rfl, running⟩
  | succ k =>
    obtain ⟨u, run, goesOn⟩ := rest k (Nat.lt_of_succ_lt_succ hk)
    exact ⟨u, (run_succ_of_step e).trans run, goesOn⟩

theorem stillRunning_zero : StillRunning s 0 := fun _ hk => absurd hk (Nat.not_lt_zero _)

end Runs

/-- Settles O10: the first step completes or raises (O7); where it completes the run of the other steps decides, and where it
raises the second step answers the condition. -/
theorem runEndsOnlyByRaise : Obligations.RunEndsOnlyByRaise := by
  intro n
  induction n with
  | zero => exact fun s _ => .inl ⟨s, rfl, stillRunning_zero⟩
  | succ n ih =>
    rintro ⟨x, h⟩ running
    obtain ⟨h', e, completes | ⟨f, raises, -⟩⟩ := everyStepCompletesOrRaises x h running
    · rcases ih ⟨x, h'⟩ completes with ⟨t, run, rest⟩ | ⟨k, f, t, hk, run, raised, rest, ends⟩
      · exact .inl ⟨t, (run_succ_of_step e).trans run, rest.succ running e⟩
      · exact .inr ⟨k + 1, f, t, Nat.succ_lt_succ hk, (run_succ_of_step e).trans run, raised, rest.succ running e,
          (run_succ_of_step e).trans ends⟩
    · have raised : h'.outcome = .raised f := congrArg Hart.outcome raises
      have first : StillRunning ⟨x, h⟩ 1 := stillRunning_zero.succ running e
      cases n with
      | zero => exact .inl ⟨⟨x, h'⟩, run_succ_of_step e, first⟩
      | succ n =>
        exact .inr ⟨1, f, ⟨x, h'⟩, by omega, run_succ_of_step e, raised, first,
          (run_succ_of_step e).trans (run_succ_of_raised raised)⟩

/-- A hart resumed with what it holds and no bytes is as it was (R310). -/
theorem resume_in_place {w : Nat} (h : Hart w) : h.resume h.regs h.pc [] true = h := rfl

/-- Settles O56: the step is the transfer, which gives the state back, and so does every run. -/
theorem resumedRunNeverEnds : Obligations.ResumedRunNeverEnds := by
  intro x h k executes answer n
  have inPlace : step ⟨x, h⟩ = .next ⟨x, h⟩ := by
    rw [step_eq_exec executes, exec_envKind, transfer_of_resume answer, resume_in_place]
  induction n with
  | zero => rfl
  | succ n ih => exact (run_succ_of_step inPlace).trans ih

end Sys2Proof.Machine
end

section
/-! Every function of the kind and the state is the function of a table (R310, assumption 7): the states that a run can show are
finitely many, so a table can list them all. -/

namespace Sys2Proof.Machine

/-! ## Tables -/

/-- A table whose rows answer as `f` does answers so where it has a row for the kind and the state. -/
theorem handlerAnswer_of_rows {w : Nat} {f : EnvKind → EnvView w → EnvAnswer w} {t : List (EnvRow w)} {k : EnvKind}
    {v : EnvView w} (faithful : ∀ r ∈ t, r.answer = f r.kind r.seen) (listed : ∃ r ∈ t, r.kind = k ∧ r.seen = v) :
    handlerAnswer t k v = f k v := by
  induction t with
  | nil =>
    obtain ⟨_, hr, -⟩ := listed
    cases hr
  | cons r rs ih =>
    rw [handlerAnswer]
    split
    · next here =>
      obtain ⟨rfl, rfl⟩ := here
      exact faithful r List.mem_cons_self
    · next other =>
      obtain ⟨q, hq, same⟩ := listed
      rcases List.mem_cons.mp hq with rfl | below
      · exact absurd same other
      · exact ih (fun r hr => faithful r (List.mem_cons_of_mem _ hr)) ⟨q, below, same⟩

/-- The table that answers as `f` does from each of `views`. -/
def tableOf {w : Nat} (f : EnvKind → EnvView w → EnvAnswer w) (views : List (EnvView w)) : List (EnvRow w) :=
  views.flatMap fun v => [⟨.call, v, f .call v⟩, ⟨.breakpoint, v, f .breakpoint v⟩]

theorem handlerAnswer_tableOf {w : Nat} (f : EnvKind → EnvView w → EnvAnswer w) {views : List (EnvView w)} {v : EnvView w}
    (listed : v ∈ views) (k : EnvKind) : handlerAnswer (tableOf f views) k v = f k v := by
  refine handlerAnswer_of_rows (fun r hr => ?_) ⟨⟨k, v, f k v⟩, List.mem_flatMap.mpr ⟨v, listed, ?_⟩, rfl, rfl⟩
  · obtain ⟨u, -, row⟩ := List.mem_flatMap.mp hr
    simp only [List.mem_cons, List.not_mem_nil, or_false] at row
    rcases row with rfl | rfl <;> rfl
  · cases k <;> simp

/-! ## The states are finitely many -/

theorem finite_bitVec (w : Nat) : Finite (BitVec w) :=
  .of_injective BitVec.toFin fun _ _ => BitVec.eq_of_toFin_eq

theorem finite_vector (α : Type) [Finite α] (n : Nat) : Finite (Vector α n) :=
  .of_surjective Vector.ofFn fun v => ⟨fun i => v[i], by simp⟩

theorem finite_reservedSize : Finite ReservedSize :=
  .of_surjective (fun b : Bool => if b then .word else .double) fun
    | .word => ⟨true, rfl⟩
    | .double => ⟨false, rfl⟩

theorem finite_reservation (w : Nat) : Finite (Reservation w) := by
  have := finite_bitVec w
  have := finite_reservedSize
  exact .of_surjective (fun p : BitVec w × ReservedSize => ⟨p.1, p.2⟩) fun r => ⟨(r.addr, r.size), rfl⟩

/-- A memory in canonical form that lists only addresses below `2^w`. -/
def Memory.Within (m : Memory) (w : Nat) : Prop := m.wf ∧ ∀ c ∈ m.cells, c.1 < 2 ^ w

/-- Such a memory reads above its address space as an unset byte does. -/
theorem Memory.Within.read_of_le {m : Memory} {w a : Nat} (within : m.Within w) (above : 2 ^ w ≤ a) :
    m.read a = Config.unsetByte := by
  obtain ⟨hm, below⟩ := within
  by_contra set
  have listed : (a, m.read a) ∈ m.cells := (mem_cells_iff_read hm _).mpr ⟨rfl, set⟩
  exact Nat.not_lt.mpr above (below _ listed)

/-- Such memories are finitely many: each is decided by its bytes below `2^w` (O28). -/
theorem finite_memory_within (w : Nat) : {m : Memory | m.Within w}.Finite := by
  have := finite_bitVec 8
  refine Set.Finite.of_injOn (f := fun m (a : Fin (2 ^ w)) => m.read a) (Set.mapsTo_univ _ _) ?_ Set.finite_univ
  intro m hm m' hm' alike
  refine canonicalMemoryIsUnique m m' hm.1 hm'.1 fun a => ?_
  by_cases below : a < 2 ^ w
  · exact congrFun alike ⟨a, below⟩
  · rw [hm.read_of_le (Nat.not_lt.mp below), hm'.read_of_le (Nat.not_lt.mp below)]

/-- The states that a handler can be given are finitely many. -/
theorem finite_envView_within (w : Nat) : {v : EnvView w | v.mem.Within w}.Finite := by
  have := finite_bitVec w
  have := finite_vector (BitVec w) 31
  have := finite_reservation w
  refine (((Set.finite_univ (α := Vector (BitVec w) 31 × BitVec w × Option (Reservation w))).prod
    (finite_memory_within w)).image fun p => (⟨p.1.1, p.1.2.1, p.2, p.1.2.2⟩ : EnvView w)).subset ?_
  exact fun v within => ⟨((v.regs, v.pc, v.reservation), v.mem), ⟨trivial, within⟩, rfl⟩

/-- Settles O55: a table with a row of each kind for each of those states. -/
theorem everyHandlerIsATable : Obligations.EveryHandlerIsATable := by
  intro x f
  have finite := finite_envView_within x.width
  refine ⟨tableOf f finite.toFinset.toList, fun k v hm below => handlerAnswer_tableOf f ?_ k⟩
  exact Finset.mem_toList.mpr (finite.mem_toFinset.mpr ⟨hm, below⟩)

end Sys2Proof.Machine
end

section
/-! The word placed for the next fetch (R70, R343, assumption 17): it can be fetched, and what is fetched is that word. -/

namespace Sys2Proof.Machine

variable {w : Nat} {h : Hart w}

/-- The cells that are placed are those that a store of the word at `pc` writes (R50). -/
theorem zip_span_bytesOfWord (a : BitVec w) (v : InstWord) :
    (span a 4).zip (bytesOfWord v) = cellsOf a 4 v := rfl

/-- A value that was written is read back (R50, R52). -/
theorem readValue_writeValue (hm : h.mem.wf) (a : BitVec w) {n : Nat} (hn : n ≤ 2 ^ w) (v : BitVec (8 * n)) :
    (h.writeValue a n v).readValue a n = v :=
  eq_of_bytes_eq fun k hk => by rw [readValue_byte a hk, read_writeValue hm a hn v hk]

theorem placeWord_readValue (hm : h.mem.wf) (space : 4 ≤ 2 ^ w) (v : InstWord) :
    (h.placeWord v).readValue h.pc 4 = v :=
  readValue_writeValue hm h.pc space v

/-- The bytes of an aligned word do not wrap. -/
theorem byteAddr_of_aligned {a : BitVec w} (divides : 4 ∣ 2 ^ w) (aligned : a.toNat % 4 = 0) {k : Nat} (hk : k < 4) :
    byteAddr a k = a.toNat + k := by
  have := a.isLt
  exact Nat.mod_eq_of_lt (by omega)

/-- The placed word may be fetched: it could be before, or the map has a region for it now (assumption 25). -/
theorem placeWord_permitted (divides : 4 ∣ 2 ^ w) (aligned : h.pc.toNat % 4 = 0) (v : InstWord) :
    Permitted (h.placeWord v) .fetch h.pc 4 := by
  by_cases fetchable : h.allowsAll .fetch h.pc 4 = true
  · exact ((allowsAll_iff ..).mp fetchable).of_platform_eq (if_pos fetchable)
  · intro j hj
    rw [byteAddr_of_aligned divides aligned hj]
    simp [Hart.placeWord, fetchable, Platform.backed, Platform.perm, Region.covers, Perm.grants, hj]

/-- No byte of the placed word counts as stored. -/
theorem placeWord_unwritten (h : Hart w) (v : InstWord) {k : Nat} (hk : k < 4) :
    byteAddr h.pc k ∉ (h.placeWord v).written := by
  intro stored
  have outside : byteAddr h.pc k ∉ span h.pc 4 := of_decide_eq_true (List.mem_filter.mp stored).2
  exact outside (mem_span.mpr ⟨k, hk, rfl⟩)

/-- The next fetch answers the placed word (R70). -/
theorem placeWord_fetch {x : XLen} {h : Hart x.width} (hm : h.mem.wf) (aligned : h.pc.toNat % 4 = 0) (v : InstWord) :
    (h.placeWord v).fetch = .ok v := by
  have divides : 4 ∣ 2 ^ x.width := by cases x <;> decide
  have permitted := placeWord_permitted divides aligned v
  rw [fetch_eq_ok (h := h.placeWord v) aligned permitted fun k hk => placeWord_unwritten h v hk, ← readValue_four]
  exact congrArg _ (placeWord_readValue hm (Nat.le_of_dvd (Nat.two_pow_pos _) divides) v)

/-- Settles O11: the fetch answers the placed word, which decodes to the instruction that it encodes (O15). -/
theorem placedWordIsExecuted : Obligations.PlacedWordIsExecuted := by
  rintro ⟨x, h⟩ i running aligned hm wf
  have word : BitVec.ofNat 32 ((encode i).toNat % 2 ^ 32) = encode i := by
    rw [Nat.mod_eq_of_lt (encode i).isLt, BitVec.ofNat_toNat, BitVec.setWidth_eq]
  have fetched : (h.placeWord (BitVec.ofNat 32 ((encode i).toNat % 2 ^ 32))).fetch = .ok (encode i) := by
    rw [word]
    exact placeWord_fetch hm aligned _
  exact step_eq_exec ⟨running, _, fetched, decodeOfEncode x i wf⟩

end Sys2Proof.Machine
end
